-- ==== Sys2Proof/Word.lean ====
section
/-! DEFINITION. The plain types of LCC's values: words, bytes, polarities, levels, and the parts of a mode. -/

namespace Sys2Proof

/-- A command word, or the image of a port: 16 bits (R8 `CMD_W`, R39, R40). -/
abbrev Word := BitVec 16

/-- An input or output item: 8 bits (R8 `DATA_W`). -/
abbrev Byte := BitVec 8

/-- The sign of a non-zero level, −1 or +1 (glossary "Polarity"); the value set of `ENC_CUR`, `AMI_LAST`, `SCR_POL`. -/
inductive Polarity where
  | neg
  | pos
deriving DecidableEq, Repr

/-- One of the three levels −1, 0, +1 an encoder produces (R2 "LevelCode", R10). -/
inductive Level where
  | zero
  | pulse (p : Polarity)
deriving DecidableEq, Repr

/-- Direction of a frame: `DIR` of R74. -/
inductive Dir where
  | enc
  | dec
deriving DecidableEq, Repr

/-- Scrambling of AMI output: `SCR` of R74, without its reserved value 3. -/
inductive Scrambling where
  | off
  | b8zs
  | hdb3
deriving DecidableEq, Repr

/-- The five line codes of R3: `SCHEME` of R74, without its reserved values 5 to 7. -/
inductive Scheme where
  | nrzl
  | nrzi
  | man
  | dman
  | ami
deriving DecidableEq, Repr

/-- The twelve legal values of MODE (R75), one constructor a row. -/
inductive Mode where
  | encNrzl
  | encNrzi
  | encMan
  | encDman
  | encAmi
  | encAmiB8zs
  | encAmiHdb3
  | decNrzl
  | decNrzi
  | decMan
  | decDman
  | decAmi
deriving DecidableEq, Repr

end Sys2Proof
end

