-- ==== Sys2Proof/Syntax.lean ====
section
/-! DEFINITION. The commands of LCC, one constructor per row of spec/opcode_table.json (R84). -/

namespace Sys2Proof

/-- The legal commands (R84). A word that spells none of them is ILLEGAL and has no constructor (R80, R81). -/
inductive Instr where
  /-- NOP, 0x0000 (R72). -/
  | nop
  /-- START ENC NRZL, 0x1000. -/
  | startEncNrzl
  /-- START ENC NRZI, 0x1001. -/
  | startEncNrzi
  /-- START ENC MAN, 0x1002. -/
  | startEncMan
  /-- START ENC DMAN, 0x1003. -/
  | startEncDman
  /-- START ENC AMI, 0x1004. -/
  | startEncAmi
  /-- START ENC AMI B8ZS, 0x100C. -/
  | startEncAmiB8zs
  /-- START ENC AMI HDB3, 0x1014. -/
  | startEncAmiHdb3
  /-- START DEC NRZL, 0x1020. -/
  | startDecNrzl
  /-- START DEC NRZI, 0x1021. -/
  | startDecNrzi
  /-- START DEC MAN, 0x1022. -/
  | startDecMan
  /-- START DEC DMAN, 0x1023. -/
  | startDecDman
  /-- START DEC AMI, 0x1024. -/
  | startDecAmi
  /-- PUSH DATA, 0x2000 with any byte DATA (R76). -/
  | push (data : Byte)
  /-- END, 0x3000 (R77). -/
  | endFrame
deriving DecidableEq, Repr

end Sys2Proof
end

