-- ==== Sys2Proof/WellFormed.lean ====
section
/-! DEFINITION. What the spec's prose says a legal MODE and a legal command word are (R71, R75, R79), check by check.
It is written apart from the decoder of Decode.lean, which follows R80's pseudocode and R75's table;
that the two agree is a statement about the model. -/

namespace Sys2Proof

/-- R74: SCHEME values 5 to 7 are reserved. -/
def schemeDefined (m : BitVec 6) : Bool := (m.extractLsb' 0 3).toNat ≤ 4

/-- R74: SCR value 3 is reserved. -/
def scrDefined (m : BitVec 6) : Bool := m.extractLsb' 3 2 ≠ 3

/-- R75: SCR ≠ 0 needs SCHEME = AMI. -/
def scrOnlyWithAmi (m : BitVec 6) : Bool := m.extractLsb' 3 2 = 0 || m.extractLsb' 0 3 = 4

/-- R75: SCR ≠ 0 needs DIR = 0. -/
def scrOnlyWithEncode (m : BitVec 6) : Bool := m.extractLsb' 3 2 = 0 || !m.getLsbD 5

/-- `legal(m)` by R75's prose. -/
def modeWf (m : BitVec 6) : Bool :=
  schemeDefined m && scrDefined m && scrOnlyWithAmi m && scrOnlyWithEncode m

/-- R79: OP values 0x4 to 0xF are reserved. -/
def opDefined (w : Word) : Bool := (w.extractLsb' 12 4).toNat ≤ 3

/-- R70, R71: the fixed fields of the word's OP hold zeros. -/
def fixedFieldsZero (w : Word) : Bool :=
  match (w.extractLsb' 12 4).toNat with
  | 1 => w.extractLsb' 6 6 = 0
  | 2 => w.extractLsb' 8 4 = 0
  | _ => w.extractLsb' 0 12 = 0

/-- R73: a START word carries a legal MODE; other words carry none. -/
def modeFieldLegal (w : Word) : Bool := (w.extractLsb' 12 4).toNat ≠ 1 || modeWf (w.extractLsb' 0 6)

/-- A word that spells a command (R71, R75, R79). -/
def wordWf (w : Word) : Bool := opDefined w && fixedFieldsZero w && modeFieldLegal w

/-- The MODE field of a START row of R84, and none for the other commands. -/
def Instr.modeField : Instr → Option (BitVec 6)
  | .nop => none
  | .startEncNrzl => some 0x00
  | .startEncNrzi => some 0x01
  | .startEncMan => some 0x02
  | .startEncDman => some 0x03
  | .startEncAmi => some 0x04
  | .startEncAmiB8zs => some 0x0C
  | .startEncAmiHdb3 => some 0x14
  | .startDecNrzl => some 0x20
  | .startDecNrzi => some 0x21
  | .startDecMan => some 0x22
  | .startDecDman => some 0x23
  | .startDecAmi => some 0x24
  | .push _ => none
  | .endFrame => none

/-- A well-formed command: a START's MODE is legal. The operand of PUSH is a byte by its type, and every
byte is legal (R76), so every term of `Instr` is well-formed (`Sys2Proof.Laws.instr_wf`). -/
def Instr.wf (i : Instr) : Bool :=
  match i.modeField with
  | some m => modeWf m
  | none => true

end Sys2Proof
end

