-- ==== Sys2Proof/Decode.lean ====
section
/-! DEFINITION. The mode field's bits (R74, R75), the decoder of command words (R80), total on every word and
refusing by name, and after it the encoder (R72, R73, R76, R77). -/

namespace Sys2Proof

/-- `DIR = MODE[5]` (R74, R75). -/
def Mode.dir : Mode → Dir
  | .encNrzl | .encNrzi | .encMan | .encDman | .encAmi | .encAmiB8zs | .encAmiHdb3 => .enc
  | .decNrzl | .decNrzi | .decMan | .decDman | .decAmi => .dec

/-- `SCR = MODE[4:3]` (R74, R75). -/
def Mode.scr : Mode → Scrambling
  | .encAmiB8zs => .b8zs
  | .encAmiHdb3 => .hdb3
  | .encNrzl | .encNrzi | .encMan | .encDman | .encAmi
  | .decNrzl | .decNrzi | .decMan | .decDman | .decAmi => .off

/-- `SCHEME = MODE[2:0]` (R74, R75). -/
def Mode.scheme : Mode → Scheme
  | .encNrzl | .decNrzl => .nrzl
  | .encNrzi | .decNrzi => .nrzi
  | .encMan | .decMan => .man
  | .encDman | .decDman => .dman
  | .encAmi | .encAmiB8zs | .encAmiHdb3 | .decAmi => .ami

/-- The number of `DIR` (R74). -/
def Dir.bits : Dir → BitVec 1
  | .enc => 0
  | .dec => 1

/-- The number of `SCR` (R74). -/
def Scrambling.bits : Scrambling → BitVec 2
  | .off => 0
  | .b8zs => 1
  | .hdb3 => 2

/-- The number of `SCHEME` (R74). -/
def Scheme.bits : Scheme → BitVec 3
  | .nrzl => 0
  | .nrzi => 1
  | .man => 2
  | .dman => 3
  | .ami => 4

/-- The 6-bit value of a mode: DIR in bit 5, SCR in bits 4:3, SCHEME in bits 2:0 (R74). -/
def Mode.bits (m : Mode) : BitVec 6 := m.dir.bits ++ m.scr.bits ++ m.scheme.bits

/-- The twelve legal MODE values of R75's table; every other value is reserved. -/
def Mode.ofBits (m : BitVec 6) : Option Mode :=
  if m = 0x00 then some .encNrzl
  else if m = 0x01 then some .encNrzi
  else if m = 0x02 then some .encMan
  else if m = 0x03 then some .encDman
  else if m = 0x04 then some .encAmi
  else if m = 0x0C then some .encAmiB8zs
  else if m = 0x14 then some .encAmiHdb3
  else if m = 0x20 then some .decNrzl
  else if m = 0x21 then some .decNrzi
  else if m = 0x22 then some .decMan
  else if m = 0x23 then some .decDman
  else if m = 0x24 then some .decAmi
  else none

/-- The START command that carries a mode (R84). -/
def Mode.start : Mode → Instr
  | .encNrzl => .startEncNrzl
  | .encNrzi => .startEncNrzi
  | .encMan => .startEncMan
  | .encDman => .startEncDman
  | .encAmi => .startEncAmi
  | .encAmiB8zs => .startEncAmiB8zs
  | .encAmiHdb3 => .startEncAmiHdb3
  | .decNrzl => .startDecNrzl
  | .decNrzi => .startDecNrzi
  | .decMan => .startDecMan
  | .decDman => .startDecDman
  | .decAmi => .startDecAmi

/-- Why a word spells no command; each has exactly the effect of R81. -/
inductive DecodeError where
  /-- OP is 0x4 to 0xF (R79). -/
  | reservedOp
  /-- A fixed field of NOP, START, PUSH or END is not zero (R71). -/
  | fixedField
  /-- The MODE of a START word is none of the twelve (R75). -/
  | reservedMode
deriving DecidableEq, Repr

/-- `OP = w[15:12]` (R70, R71). -/
def opField (w : Word) : BitVec 4 := w.extractLsb' 12 4

/-- `MODE = w[5:0]` (R74). -/
def modeFieldOf (w : Word) : BitVec 6 := w.extractLsb' 0 6

/-- `DATA = w[7:0]` (R78). -/
def dataFieldOf (w : Word) : Byte := w.extractLsb' 0 8

/-- `decode_cmd` of R80: a function of the word alone. -/
def decode (w : Word) : Except DecodeError Instr :=
  if opField w = 0x0 then
    if w.extractLsb' 0 12 = 0 then .ok .nop else .error .fixedField
  else if opField w = 0x1 then
    if w.extractLsb' 6 6 = 0 then
      match Mode.ofBits (modeFieldOf w) with
      | some m => .ok m.start
      | none => .error .reservedMode
    else .error .fixedField
  else if opField w = 0x2 then
    if w.extractLsb' 8 4 = 0 then .ok (.push (dataFieldOf w)) else .error .fixedField
  else if opField w = 0x3 then
    if w.extractLsb' 0 12 = 0 then .ok .endFrame else .error .fixedField
  else .error .reservedOp

/-- A START word: `0x1000 | zext_16(MODE)` (R73). -/
def startWord (m : Mode) : Word := 0x1000 ||| m.bits.zeroExtend 16

/-- The word of a command (R72, R73, R76, R77). -/
def encode : Instr → Word
  | .nop => 0x0000
  | .startEncNrzl => startWord .encNrzl
  | .startEncNrzi => startWord .encNrzi
  | .startEncMan => startWord .encMan
  | .startEncDman => startWord .encDman
  | .startEncAmi => startWord .encAmi
  | .startEncAmiB8zs => startWord .encAmiB8zs
  | .startEncAmiHdb3 => startWord .encAmiHdb3
  | .startDecNrzl => startWord .decNrzl
  | .startDecNrzi => startWord .decNrzi
  | .startDecMan => startWord .decMan
  | .startDecDman => startWord .decDman
  | .startDecAmi => startWord .decAmi
  | .push x => 0x2000 ||| x.zeroExtend 16
  | .endFrame => 0x3000

/-- The 16-bit word whose low `nbits` bits are those of `w`, zeros above them: the one word of a command (R70, R83).
A word travels whole, so no byte order enters (R58). -/
def tableWord (nbits w : Nat) : Word := BitVec.ofNat 16 (w % 2 ^ nbits)

/-- The command the decoder reads from a word given by its bits; none where it spells no command. -/
def decodeTableWord (nbits w : Nat) : Option Instr :=
  match decode (tableWord nbits w) with
  | .ok i => some i
  | .error _ => none

end Sys2Proof
end

