-- ==== Sys2Proof/Config.lean ====
section
/-! DEFINITION. What LCC interface revision 1 fixes, and the one platform constant the model's step needs.
The other OPEN parameter of R8, `OUT_DEPTH`, is an argument of Machine/Bounded.lean. -/

namespace Sys2Proof

/-- LCC interface revision 1 (R4). -/
def Config.interfaceRevision : Nat := 1

/-- `SYM0`, the symbol code of bit 0 (R8, R111). -/
def Config.sym0 : Byte := 0x30

/-- `SYM1`, the symbol code of bit 1 (R8, R111). -/
def Config.sym1 : Byte := 0x31

/-- `REG_BASE`, the base address of the register window (R8, R56): OPEN, a platform's choice, so it has no value here (DESIGN CHOICE, log 5). -/
opaque Config.regBase : Nat

/-- The window's size in bytes (R56). -/
def Config.windowBytes : Nat := 8

/-- How many zeros make a B8ZS block (R131). -/
def Config.b8zsRun : Nat := 8

/-- How many zeros make an HDB3 block (R135). -/
def Config.hdb3Run : Nat := 4

/-- The least `OUT_DEPTH` with which every command is acceptable from an empty queue (R197). -/
def Config.minOutDepth : Nat := 8

end Sys2Proof
end

