-- ==== Sys2Proof/Machine/State.lean ====
section
/-! DEFINITION. LCC's state (R22), the host's accesses and what they get back, the reasons a step can stop, and the
state after reset (R42). -/

namespace Sys2Proof.Machine

/-- The places of the register window (R56). `cmd`, `status` and `out` are the three ports of R51. -/
inductive Port where
  | cmd
  | status
  | out
  /-- Window offset 0x6: reads 0x0000, writes ignored. -/
  | reserved
deriving DecidableEq, Repr

/-- What a bus access to the register window does. -/
inductive BusKind where
  | read
  | write (value : Word)
  | fetch
deriving DecidableEq, Repr

/-- A bus access: its kind, its width in bits and its absolute byte address (R56, R57). -/
structure BusAccess where
  kind : BusKind
  width : Nat
  addr : Nat
deriving DecidableEq, Repr

/-- One thing the host does to LCC (R65). -/
inductive HostAccess where
  /-- A 16-bit read of a port. -/
  | read (p : Port)
  /-- A 16-bit write of a port; a write of `cmd` is a command (R52). -/
  | write (p : Port) (w : Word)
  /-- An access through the optional register window (R56). -/
  | bus (a : BusAccess)
  /-- Reset is asserted and released between two accesses (R190; DEDUCED, log 13). -/
  | reset
deriving DecidableEq, Repr

/-- What a read returned to the host, and the port it read. -/
structure Reply where
  port : Port
  value : Word
deriving DecidableEq, Repr

/-- Faults: none. "LCC never traps" (R170): every condition is a STATUS flag, so this type has no constructor and no
step can answer a fault. That is what the spec says, not a departure from it. -/
inductive Fault where
deriving DecidableEq, Repr

/-- Why a step has no next state. -/
inductive Refusal where
  /-- A command without a meaning in this model; raised by a refused arm of `exec`. No arm is refused, so nothing
  raises it. Safe: the model stops. -/
  | notModelled (mnemonic : String)
  /-- Raised by `busAccess`: an access of the register window whose width is not 16 bits (R57). Safe: "the model
  refuses it (it has no step)". -/
  | windowWidth
  /-- Raised by `busAccess`: a 16-bit access of the register window at an odd offset (R57). Safe, as above. -/
  | windowOddOffset
  /-- Raised by `busAccess`: an instruction fetch from the register window (R57). Safe, as above. -/
  | windowFetch
deriving DecidableEq, Repr

/-- The state. The first seventeen fields are LCC's own, exactly those of R22 in its order; the last two are the
model's: the host's side of the ports, which one step function must read and write (DESIGN CHOICE, log 1). -/
structure State where
  /-- `ACT`: a frame is open (R23). -/
  act : Bool
  /-- `INV`: InvalidSymbol; with `act`, the frame is aborted (R24). -/
  inv : Bool
  /-- `TRUNC`: TruncatedSequence (R25). -/
  trunc : Bool
  /-- `EMPTY`: EmptyInput (R26). -/
  empty : Bool
  /-- `ILL`: a word that spells no command was written (R27). -/
  ill : Bool
  /-- `PROTO`: a command was written in the wrong phase (R28). -/
  proto : Bool
  /-- `ANY`: the frame has consumed a PUSH (R29). -/
  any : Bool
  /-- `MODE`: the mode of the current or last frame (R30). -/
  mode : Mode
  /-- `OUT`: the output queue, head first, unbounded (R31). -/
  out : List Byte
  /-- `ENC_CUR`: the encoder's currentLevel (R32). -/
  encCur : Polarity
  /-- `AMI_LAST`: the AMI mapper's lastPulse (R33). -/
  amiLast : Polarity
  /-- `SCR_POL`: the scrambler's lastPulse (R34). -/
  scrPol : Polarity
  /-- `SCR_PAR`: pulseCount is odd (R35). -/
  scrPar : Bool
  /-- `SCR_ZC`: held zeros, 0..7 (R22, R36; DEDUCED, log 11). -/
  scrZc : Fin 8
  /-- `DEC_PREV`: the decoder's prevLevel or prevEndLevel, as the byte of a level in −128..127 (R37, log 9). -/
  decPrev : Byte
  /-- `DEC_HV`: a first level of a pair is held (R38). -/
  decHv : Bool
  /-- `DEC_HD`: that level, as a byte (R38). -/
  decHd : Byte
  /-- Model's own: the accesses the host makes next, oldest first (R60, log 1). -/
  host : List HostAccess
  /-- Model's own: what the host's reads have returned, oldest first (R53 to R56, log 1). -/
  replies : List Reply
deriving DecidableEq, Repr

/-- The state after reset: every field of R22 at R42's value, and a host that has done nothing (DESIGN CHOICE, log 1). -/
def State.reset : State where
  act := false
  inv := false
  trunc := false
  empty := false
  ill := false
  proto := false
  any := false
  mode := .encNrzl
  out := []
  encCur := .neg
  amiLast := .pos
  scrPol := .pos
  scrPar := false
  scrZc := 0
  decPrev := 0xFF
  decHv := false
  decHd := 0x00
  host := []
  replies := []

end Sys2Proof.Machine
end

