-- ==== Sys2Proof/Machine/Flags.lean ====
section
/-! DEFINITION. The five conditions and their STATUS bits (R171), and the images of the STATUS and OUT registers
(R39, R40). -/

namespace Sys2Proof.Machine

/-- The conditions of R171. -/
inductive Condition where
  | invalidSymbol
  | truncatedSequence
  | emptyInput
  | illegalCommand
  | protocolError
deriving DecidableEq, Repr

/-- A condition's code: the STATUS bit that records it (R171). -/
def Condition.code : Condition → Nat
  | .invalidSymbol => 1
  | .truncatedSequence => 2
  | .emptyInput => 3
  | .illegalCommand => 4
  | .protocolError => 5

/-- The flag that records a condition (R171). -/
def State.flag (s : State) : Condition → Bool
  | .invalidSymbol => s.inv
  | .truncatedSequence => s.trunc
  | .emptyInput => s.empty
  | .illegalCommand => s.ill
  | .protocolError => s.proto

/-- `OUTNE`: the output queue is not empty (R39). -/
def State.outNe (s : State) : Bool := !s.out.isEmpty

/-- The STATUS image: bits 15:14 zero, MODE, bit 7 zero, OUTNE, PROTO, ILL, EMPTY, TRUNC, INV, ACT (R39). -/
def State.statusImage (s : State) : Word :=
  0#2 ++ s.mode.bits ++ 0#1 ++ BitVec.ofBool s.outNe ++ BitVec.ofBool s.proto ++ BitVec.ofBool s.ill
    ++ BitVec.ofBool s.empty ++ BitVec.ofBool s.trunc ++ BitVec.ofBool s.inv ++ BitVec.ofBool s.act

/-- The OUT image: bits 15:9 zero, VALID in bit 8, DATA in bits 7:0 (R40). -/
def State.outImage (s : State) : Word :=
  match s.out with
  | [] => 0x0000
  | x :: _ => 0x0100 ||| x.zeroExtend 16

end Sys2Proof.Machine
end

