-- ==== Sys2Proof/Machine/Operands.lean ====
section
/-! DEFINITION. How bits and levels travel as bytes (R10, R11, R78), and the one operation on a polarity (R10 `neg`). -/

namespace Sys2Proof

/-- `neg(v) = −v` on {−1, +1} (R10). -/
def Polarity.flip : Polarity → Polarity
  | .neg => .pos
  | .pos => .neg

/-- The integer of a polarity. -/
def Polarity.toInt : Polarity → Int
  | .neg => -1
  | .pos => 1

/-- The integer of a level (R10). -/
def Level.toInt : Level → Int
  | .zero => 0
  | .pulse p => p.toInt

/-- `lv(x) = x[7] ? x − 256 : x` (R10, R151): every byte is a level. -/
def lv (x : Byte) : Int := if x.getLsbD 7 then (x.toNat : Int) - 256 else (x.toNat : Int)

/-- `code(v)`: the two's-complement byte of a level, 0xFF, 0x00 or 0x01 for −1, 0, +1 (R10). Nothing applies it to
another integer (DESIGN CHOICE, log 10). -/
def code (v : Int) : Byte := BitVec.ofInt 8 v

/-- The level byte of a pulse. -/
def Polarity.byte (p : Polarity) : Byte := code p.toInt

/-- `sym(b)`: the symbol byte of a bit (R11). -/
def sym (b : Bool) : Byte := if b then Config.sym1 else Config.sym0

/-- `bit(x)`: the bit of a symbol byte, and none for any other byte, for which R11 leaves it undefined. -/
def bit (x : Byte) : Option Bool :=
  if x = Config.sym0 then some false else if x = Config.sym1 then some true else none

end Sys2Proof
end

