-- ==== Sys2Proof/Machine/Ops.lean ====
section
/-! DEFINITION. The named operations over the state: appending to and popping the output queue (R13, R31, R55),
recording a condition (R13 `setflag`, R170), loading a frame's seeds (R92), and reset (R191). -/

namespace Sys2Proof.Machine

/-- `emit(x)` for each byte of a list, in order: appended at the tail of `OUT` (R13, R31, R52). -/
def emitAll (xs : List Byte) (s : State) : State := { s with out := s.out ++ xs }

/-- `emit(x)` (R13). -/
def emit (x : Byte) (s : State) : State := emitAll [x] s

/-- `repeat n times: emit(0x00)` (R96, R132, R136). -/
def emitZeros (n : Nat) (s : State) : State := emitAll (List.replicate n 0x00) s

/-- `setflag(F)`: how LCC records a condition. LCC has no exception entry: nothing is saved, no mode changes and nothing
vectors (R13, R170, R178). -/
def setFlag (c : Condition) (s : State) : State :=
  match c with
  | .invalidSymbol => { s with inv := true }
  | .truncatedSequence => { s with trunc := true }
  | .emptyInput => { s with empty := true }
  | .illegalCommand => { s with ill := true }
  | .protocolError => { s with proto := true }

/-- The effect of a word that spells no command: `S.ILL <- 1` and nothing else (R81). -/
def illegal (s : State) : State := setFlag .illegalCommand s

/-- The effect of a legal command in the wrong phase: `S.PROTO <- 1` and nothing else (R93, R95, R97, R176). -/
def protocolError (s : State) : State := setFlag .protocolError s

/-- The seed of `ENC_CUR`, and as a level of `DEC_PREV`: +1 for DMAN, −1 otherwise (R92). -/
def lineSeed (m : Mode) : Polarity := if m.scheme = .dman then .pos else .neg

/-- The running state of the stages at its seeds (R92). -/
def loadSeeds (m : Mode) (s : State) : State :=
  { s with
    encCur := lineSeed m
    amiLast := .pos
    scrPol := .pos
    scrPar := false
    scrZc := 0
    decPrev := (lineSeed m).byte
    decHv := false
    decHd := 0x00 }

/-- The flags an accepted START clears (R92); nothing but it and reset clears a flag (R45). -/
def clearFlags (s : State) : State :=
  { s with inv := false, trunc := false, empty := false, ill := false, proto := false, any := false }

/-- Removing the head of `OUT`; an empty queue stays empty (R55). -/
def popOut (s : State) : State := { s with out := s.out.tail }

/-- A read returns a word to the host. -/
def reply (p : Port) (v : Word) (s : State) : State := { s with replies := s.replies ++ [⟨p, v⟩] }

/-- Reset writes every field of R22 with R42's value (R191); what the host has received and will do is not LCC's. -/
def resetLcc (s : State) : State := { State.reset with host := s.host, replies := s.replies }

end Sys2Proof.Machine
end

