-- ==== Sys2Proof/Machine/LineDecoder.lean ====
section
/-! DEFINITION. The five inverse mappers (R150 to R157) and the truncation of an unpaired level (R158). -/

namespace Sys2Proof.Machine

/-- NRZ-L (R152): a level above 0 is 1, every other is 0. -/
def dnrzl (v : Int) : Bool := decide (v > 0)

/-- AMI (R157): level 0 is 0, every other is 1. -/
def dami (v : Int) : Bool := decide (v ≠ 0)

/-- Manchester (R155): the pair (−1, +1) is 1, every other pair is 0. -/
def manPairBit (first second : Int) : Bool := decide (first = -1 ∧ second = 1)

/-- Differential Manchester (R156): 0 if the group's first level differs from the previous end level, else 1. -/
def dmanGroupBit (prevEnd first : Int) : Bool := decide (first = prevEnd)

/-- NRZ-I (R154): 1 if the level differs from `DEC_PREV`, which becomes the level. -/
def dnrzi (x : Byte) (s : State) : State :=
  { emit (sym (decide (lv x ≠ lv s.decPrev))) s with decPrev := x }

/-- `dman_pair(v)` (R155). -/
def dmanPair (x : Byte) (s : State) : State :=
  if s.decHv then
    { emit (sym (manPairBit (lv s.decHd) (lv x))) s with decHv := false }
  else
    { s with decHd := x, decHv := true }

/-- `ddman_pair(v)` (R156). -/
def ddmanPair (x : Byte) (s : State) : State :=
  if s.decHv then
    { emit (sym (dmanGroupBit (lv s.decPrev) (lv s.decHd))) s with decPrev := x, decHv := false }
  else
    { s with decHd := x, decHv := true }

/-- `dec_push(x)` (R150): every byte is a level (R151). -/
def decPush (x : Byte) (s : State) : State :=
  match s.mode.scheme with
  | .nrzl => emit (sym (dnrzl (lv x))) s
  | .nrzi => dnrzi x s
  | .man => dmanPair x s
  | .dman => ddmanPair x s
  | .ami => emit (sym (dami (lv x))) s

/-- Samples per bit: 2 for MAN and DMAN, 1 otherwise (R153). -/
def samplesPerBit : Scheme → Nat
  | .nrzl => 1
  | .nrzi => 1
  | .man => 2
  | .dman => 2
  | .ami => 1

/-- At END, a held first level is dropped and `TRUNC` recorded (R158). -/
def dropUnpaired (s : State) : State := { setFlag .truncatedSequence s with decHv := false }

end Sys2Proof.Machine
end

