-- ==== Sys2Proof/Machine/Scrambler.lean ====
section
/-! DEFINITION. The zero-run scrambler, one level at a time (R130, R132, R133, R136, R137). -/

namespace Sys2Proof.Machine

/-- The eight levels of a B8ZS block after a pulse `p`: 0, 0, 0, p, −p, 0, −p, p (R132). -/
def b8zsBlock (p : Polarity) : List Byte :=
  [0x00, 0x00, 0x00, p.byte, p.flip.byte, 0x00, p.flip.byte, p.byte]

/-- The four levels of an HDB3 block: p, 0, 0, p at an even pulse count, 0, 0, 0, −p at an odd one (R136). -/
def hdb3Block (odd : Bool) (p : Polarity) : List Byte :=
  if odd then [0x00, 0x00, 0x00, p.flip.byte] else [p.byte, 0x00, 0x00, p.byte]

/-- The polarity an HDB3 block leaves in `SCR_POL`: the value written at position 4 (R136). -/
def hdb3BlockLast (odd : Bool) (p : Polarity) : Polarity := if odd then p.flip else p

/-- `b8zs_step(v)` of R132. -/
def b8zsStep (v : Level) (s : State) : State :=
  match v with
  | .zero =>
    if s.scrZc.val + 1 = Config.b8zsRun then
      { emitAll (b8zsBlock s.scrPol) s with scrZc := 0 }
    else
      { s with scrZc := s.scrZc + 1 }
  | .pulse p =>
    { emit p.byte (emitZeros s.scrZc.val s) with scrZc := 0, scrPol := p }

/-- `hdb3_step(v)` of R136. -/
def hdb3Step (v : Level) (s : State) : State :=
  match v with
  | .zero =>
    if s.scrZc.val + 1 = Config.hdb3Run then
      { emitAll (hdb3Block s.scrPar s.scrPol) s with
        scrPol := hdb3BlockLast s.scrPar s.scrPol
        scrPar := !s.scrPar
        scrZc := 0 }
    else
      { s with scrZc := s.scrZc + 1 }
  | .pulse p =>
    { emit p.byte (emitZeros s.scrZc.val s) with scrZc := 0, scrPol := p, scrPar := !s.scrPar }

/-- `stage(v)` of R130: where the AMI mapper's levels go. -/
def stage (v : Level) (s : State) : State :=
  match s.mode.scr with
  | .off => emit (code v.toInt) s
  | .b8zs => b8zsStep v s
  | .hdb3 => hdb3Step v s

/-- The flush at END: the held zeros are emitted and the count is cleared (R96, R133, R137). -/
def flushZeros (s : State) : State := { emitZeros s.scrZc.val s with scrZc := 0 }

end Sys2Proof.Machine
end

