-- ==== Sys2Proof/Machine/LineEncoder.lean ====
section
/-! DEFINITION. Symbol ingestion and the five mappers (R110 to R117). -/

namespace Sys2Proof.Machine

/-- NRZ-L (R113): 1 is +1, 0 is −1. -/
def nrzl (b : Bool) (s : State) : State := emit (if b then 0x01 else 0xFF) s

/-- NRZ-I (R114): a 1 inverts `ENC_CUR`; `ENC_CUR` is emitted. -/
def nrzi (b : Bool) (s : State) : State :=
  let cur := if b then s.encCur.flip else s.encCur
  emit cur.byte { s with encCur := cur }

/-- Manchester (R115): 1 is −1, +1; 0 is +1, −1. -/
def man (b : Bool) (s : State) : State := emitAll (if b then [0xFF, 0x01] else [0x01, 0xFF]) s

/-- Differential Manchester (R116): a 0 inverts `ENC_CUR` first; it and its negation are emitted; it ends inverted. -/
def dman (b : Bool) (s : State) : State :=
  let cur := if b then s.encCur else s.encCur.flip
  { emitAll [cur.byte, cur.flip.byte] s with encCur := cur.flip }

/-- AMI (R117): a 0 is the level 0; a 1 is the next pulse, alternating; the level goes to the scrambler stage. -/
def ami (b : Bool) (s : State) : State :=
  if b then stage (.pulse s.amiLast.flip) { s with amiLast := s.amiLast.flip } else stage .zero s

/-- The mapper of a scheme (R110). -/
def mapBit (b : Bool) (s : State) : State :=
  match s.mode.scheme with
  | .nrzl => nrzl b s
  | .nrzi => nrzi b s
  | .man => man b s
  | .dman => dman b s
  | .ami => ami b s

/-- `enc_push(x)` (R110): a byte that is no symbol aborts the frame (R112); a symbol's bit goes to the mapper. -/
def encPush (x : Byte) (s : State) : State :=
  match bit x with
  | none => setFlag .invalidSymbol s
  | some b => mapBit b s

end Sys2Proof.Machine
end

