-- ==== Sys2Proof/Machine/FrameControl.lean ====
section
/-! DEFINITION. The meanings of NOP, START, PUSH and END (R91 to R98), one definition per command. -/

namespace Sys2Proof.Machine

/-- `start(m)` of R92; `OUT` is not changed. -/
def start (m : Mode) (s : State) : State := { loadSeeds m (clearFlags s) with mode := m, act := true }

/-- `push(x)` of R94. -/
def push (x : Byte) (s : State) : State :=
  let s1 := { s with any := true }
  if s1.inv then s1
  else
    match s1.mode.dir with
    | .enc => encPush x s1
    | .dec => decPush x s1

/-- What `end()` does with held items in a frame that is not aborted (R96). -/
def releaseHeld (s : State) : State :=
  if s.mode.dir = .enc ∧ s.mode.scr ≠ .off then flushZeros s
  else if s.mode.dir = .dec ∧ samplesPerBit s.mode.scheme = 2 ∧ s.decHv then dropUnpaired s
  else s

/-- `end()` of R96: in an aborted frame nothing is flushed. -/
def closeFrame (s : State) : State :=
  let s1 := if s.inv then s else releaseHeld s
  { s1 with empty := !s1.any, act := false }

/-- START in either phase (R91): R92 when idle, R93 while a frame is open. -/
def startCommand (m : Mode) (s : State) : Host.Outcome State Fault Refusal :=
  .next (if s.act then protocolError s else start m s)

/-- NOP (R98): no effect in either phase. -/
def execNop (s : State) : Host.Outcome State Fault Refusal := .next s

/-- START ENC NRZL (R92, R93). -/
def execStartEncNrzl (s : State) : Host.Outcome State Fault Refusal := startCommand .encNrzl s

/-- START ENC NRZI (R92, R93). -/
def execStartEncNrzi (s : State) : Host.Outcome State Fault Refusal := startCommand .encNrzi s

/-- START ENC MAN (R92, R93). -/
def execStartEncMan (s : State) : Host.Outcome State Fault Refusal := startCommand .encMan s

/-- START ENC DMAN (R92, R93). -/
def execStartEncDman (s : State) : Host.Outcome State Fault Refusal := startCommand .encDman s

/-- START ENC AMI (R92, R93). -/
def execStartEncAmi (s : State) : Host.Outcome State Fault Refusal := startCommand .encAmi s

/-- START ENC AMI B8ZS (R92, R93). -/
def execStartEncAmiB8zs (s : State) : Host.Outcome State Fault Refusal := startCommand .encAmiB8zs s

/-- START ENC AMI HDB3 (R92, R93). -/
def execStartEncAmiHdb3 (s : State) : Host.Outcome State Fault Refusal := startCommand .encAmiHdb3 s

/-- START DEC NRZL (R92, R93). -/
def execStartDecNrzl (s : State) : Host.Outcome State Fault Refusal := startCommand .decNrzl s

/-- START DEC NRZI (R92, R93). -/
def execStartDecNrzi (s : State) : Host.Outcome State Fault Refusal := startCommand .decNrzi s

/-- START DEC MAN (R92, R93). -/
def execStartDecMan (s : State) : Host.Outcome State Fault Refusal := startCommand .decMan s

/-- START DEC DMAN (R92, R93). -/
def execStartDecDman (s : State) : Host.Outcome State Fault Refusal := startCommand .decDman s

/-- START DEC AMI (R92, R93). -/
def execStartDecAmi (s : State) : Host.Outcome State Fault Refusal := startCommand .decAmi s

/-- PUSH DATA (R94 in an open frame, R95 while idle). -/
def execPush (x : Byte) (s : State) : Host.Outcome State Fault Refusal :=
  .next (if s.act then push x s else protocolError s)

/-- END (R96 in an open frame, R97 while idle). -/
def execEnd (s : State) : Host.Outcome State Fault Refusal :=
  .next (if s.act then closeFrame s else protocolError s)

end Sys2Proof.Machine
end

