-- ==== Sys2Proof/Machine/Dispatch.lean ====
section
/-! DEFINITION. One arm per command (R91). -/

namespace Sys2Proof.Machine

def exec (i : Instr) (s : State) : Host.Outcome State Fault Refusal :=
  match i with
  | .nop => Sys2Proof.Machine.execNop s
  | .startEncNrzl => Sys2Proof.Machine.execStartEncNrzl s
  | .startEncNrzi => Sys2Proof.Machine.execStartEncNrzi s
  | .startEncMan => Sys2Proof.Machine.execStartEncMan s
  | .startEncDman => Sys2Proof.Machine.execStartEncDman s
  | .startEncAmi => Sys2Proof.Machine.execStartEncAmi s
  | .startEncAmiB8zs => Sys2Proof.Machine.execStartEncAmiB8zs s
  | .startEncAmiHdb3 => Sys2Proof.Machine.execStartEncAmiHdb3 s
  | .startDecNrzl => Sys2Proof.Machine.execStartDecNrzl s
  | .startDecNrzi => Sys2Proof.Machine.execStartDecNrzi s
  | .startDecMan => Sys2Proof.Machine.execStartDecMan s
  | .startDecDman => Sys2Proof.Machine.execStartDecDman s
  | .startDecAmi => Sys2Proof.Machine.execStartDecAmi s
  | .push x => Sys2Proof.Machine.execPush x s
  | .endFrame => Sys2Proof.Machine.execEnd s

end Sys2Proof.Machine
end

