-- ==== Sys2Proof/Machine/Ports.lean ====
section
/-! DEFINITION. The host ports (R51 to R55), the register window (R56, R57) and reset (R190): what each host access does. -/

namespace Sys2Proof.Machine

/-- `execute(w)` of R91: one word written to CMD is one command; a word that spells none has R81's effect. -/
def executeWord (w : Word) (s : State) : Host.Outcome State Fault Refusal :=
  match decode w with
  | .ok i => exec i s
  | .error _ => .next (illegal s)

/-- A 16-bit read of a port. CMD and window offset 6 read 0x0000 without effect (R41, R54, R56); STATUS reads its image
without effect (R53); OUT reads its image and removes the head (R55). -/
def readPort (p : Port) (s : State) : State :=
  match p with
  | .cmd => reply .cmd 0x0000 s
  | .status => reply .status s.statusImage s
  | .out => reply .out s.outImage (popOut s)
  | .reserved => reply .reserved 0x0000 s

/-- A 16-bit write of a port. CMD executes the word (R52); every other write is ignored (R54, R56). -/
def writePort (p : Port) (w : Word) (s : State) : Host.Outcome State Fault Refusal :=
  match p with
  | .cmd => executeWord w s
  | .status => .next s
  | .out => .next s
  | .reserved => .next s

/-- The number of bytes a bus access touches, at least the one at its address. -/
def BusAccess.bytes (a : BusAccess) : Nat := max 1 ((a.width + 7) / 8)

/-- Some byte of the access lies in the window (R56). -/
def BusAccess.touchesWindow (a : BusAccess) : Bool :=
  a.addr < Config.regBase + Config.windowBytes && Config.regBase < a.addr + a.bytes

/-- The access begins an even number of bytes from the window's base (R57). -/
def BusAccess.evenOffset (a : BusAccess) : Bool := a.addr % 2 = Config.regBase % 2

/-- The port at the access's place in the window (R56); used for 16-bit accesses at even offsets. -/
def BusAccess.port (a : BusAccess) : Port :=
  if a.addr = Config.regBase then .cmd
  else if a.addr = Config.regBase + 2 then .status
  else if a.addr = Config.regBase + 4 then .out
  else .reserved

/-- A bus access. One that touches no byte of the window is not LCC's and leaves LCC as it is (DESIGN CHOICE, log 4). In the window
only single 16-bit reads and writes at even offsets are in the contract; every other is refused (R57, log 6). -/
def busAccess (a : BusAccess) (s : State) : Host.Outcome State Fault Refusal :=
  if a.touchesWindow then
    if a.kind = .fetch then .refused .windowFetch
    else if a.width ≠ 16 then .refused .windowWidth
    else if a.evenOffset then
      match a.kind with
      | .read => .next (readPort a.port s)
      | .write w => writePort a.port w s
      | .fetch => .refused .windowFetch
    else .refused .windowOddOffset
  else .next s

/-- One host access (R65). -/
def hostAccess (a : HostAccess) (s : State) : Host.Outcome State Fault Refusal :=
  match a with
  | .read p => .next (readPort p s)
  | .write p w => writePort p w s
  | .bus b => busAccess b s
  | .reset => .next (resetLcc s)

/-- The host's next access is taken from the head of its list; a host that does nothing leaves LCC as it is, since LCC
starts nothing of its own (R60, R180, R202, log 2). -/
def takeAccess (s : State) : Host.Outcome State Fault Refusal :=
  match s.host with
  | [] => .next s
  | a :: rest => hostAccess a { s with host := rest }

/-- The state whose next host access writes a word to CMD, before all the others (DESIGN CHOICE, log 3). -/
def writeNext (w : Word) (s : State) : State := { s with host := .write .cmd w :: s.host }

end Sys2Proof.Machine
end

