-- ==== Sys2Proof/Machine/Step.lean ====
section
/-! DEFINITION. One step of the machine: the host's next access takes its whole effect (R52, R60). -/

namespace Sys2Proof.Machine

/-- One step (R52, R60, R91, R190). -/
def step (s : State) : Host.Outcome State Fault Refusal := takeAccess s

/-- `s` with the given command word as the host's next write to CMD, so that the next step executes it (DESIGN CHOICE, log 3). -/
def State.withFetchWord (s : State) (nbits w : Nat) : State := writeNext (tableWord nbits w) s

end Sys2Proof.Machine
end

