-- ==== Sys2Proof/Machine/Reference.lean ====
section
/-! DEFINITION. The source's whole-sequence functions, over integer levels and bits (R14): `encode` (R118), `b8zs`
(R131), `hdb3` (R135), `decode` (R159), and the source function F(m, d) of a mode over bytes (R102). -/

namespace Sys2Proof

/-- The NRZ-I fold of R118. -/
def encodeNrziFrom (cur : Int) : List Bool → List Int
  | [] => []
  | b :: bs =>
    let c := if b then -cur else cur
    c :: encodeNrziFrom c bs

/-- The DMAN fold of R118. -/
def encodeDmanFrom (cur : Int) : List Bool → List Int
  | [] => []
  | b :: bs =>
    let c := if b then cur else -cur
    c :: -c :: encodeDmanFrom (-c) bs

/-- The AMI fold of R118. -/
def encodeAmiFrom (last : Int) : List Bool → List Int
  | [] => []
  | b :: bs => if b then -last :: encodeAmiFrom (-last) bs else 0 :: encodeAmiFrom last bs

/-- `encode(s, bits)` of R118. -/
def encodeRef (s : Scheme) (bits : List Bool) : List Int :=
  match s with
  | .nrzl => bits.map (fun b => if b then 1 else -1)
  | .nrzi => encodeNrziFrom (-1) bits
  | .man => bits.flatMap (fun b => if b then [-1, 1] else [1, -1])
  | .dman => encodeDmanFrom 1 bits
  | .ami => encodeAmiFrom 1 bits

/-- The sign of the last non-zero element, or +1 if there is none (R131). -/
def lastPulseSign (xs : List Int) : Int :=
  match xs.reverse.find? (fun v => decide (v ≠ 0)) with
  | some v => v.sign
  | none => 1

/-- The levels a[i .. i+n) are all there and all 0 (R131, R135). -/
def zeroWindow (n : Nat) (a : List Int) (i : Nat) : Bool :=
  decide (i + n ≤ a.length) && ((a.drop i).take n).all (fun v => decide (v = 0))

/-- The while loop of R131 from index `i`; every turn advances `i`, so a fuel of len(a) is enough. -/
def b8zsLoop : Nat → List Int → Nat → List Int
  | 0, a, _ => a
  | fuel + 1, a, i =>
    if i < a.length then
      if zeroWindow 8 a i then
        let p := lastPulseSign (a.take i)
        b8zsLoop fuel (a.take i ++ [0, 0, 0, p, -p, 0, -p, p] ++ a.drop (i + 8)) (i + 8)
      else b8zsLoop fuel a (i + 1)
    else a

/-- `b8zs(a)` of R131. -/
def b8zsRef (a : List Int) : List Int := b8zsLoop a.length a 0

/-- The while loop of R135 from index `i` with `lp` and `pc`; fuel as for `b8zsLoop`. -/
def hdb3Loop : Nat → List Int → Nat → Int → Nat → List Int
  | 0, a, _, _, _ => a
  | fuel + 1, a, i, lp, pc =>
    if i < a.length then
      if zeroWindow 4 a i then
        if pc % 2 = 0 then hdb3Loop fuel ((a.set i lp).set (i + 3) lp) (i + 4) lp (pc + 1)
        else hdb3Loop fuel (a.set (i + 3) (-lp)) (i + 4) (-lp) (pc + 1)
      else if a.getD i 0 ≠ 0 then hdb3Loop fuel a (i + 1) (a.getD i 0) (pc + 1)
      else hdb3Loop fuel a (i + 1) lp pc
    else a

/-- `hdb3(a)` of R135. -/
def hdb3Ref (a : List Int) : List Int := hdb3Loop a.length a 0 1 0

/-- The NRZ-I fold of R159. -/
def decodeNrziFrom (prev : Int) : List Int → List Bool
  | [] => []
  | v :: vs => decide (v ≠ prev) :: decodeNrziFrom v vs

/-- The Manchester pairs of R159; a trailing unpaired level is ignored. -/
def decodeManPairs : List Int → List Bool
  | v :: w :: rest => decide (v = -1 ∧ w = 1) :: decodeManPairs rest
  | [_] => []
  | [] => []

/-- The DMAN fold of R159 over pairs; a trailing unpaired level is ignored. -/
def decodeDmanPairs (prevEnd : Int) : List Int → List Bool
  | v :: w :: rest => decide (v = prevEnd) :: decodeDmanPairs w rest
  | [_] => []
  | [] => []

/-- `decode(s, levels)` of R159. -/
def decodeRef (s : Scheme) (levels : List Int) : List Bool :=
  match s with
  | .nrzl => levels.map (fun v => decide (v > 0))
  | .nrzi => decodeNrziFrom (-1) levels
  | .man => decodeManPairs levels
  | .dman => decodeDmanPairs 1 levels
  | .ami => levels.map (fun v => decide (v ≠ 0))

/-- The scrambling of R102: none, `b8zs` or `hdb3`. -/
def scrambleRef (k : Scrambling) (a : List Int) : List Int :=
  match k with
  | .off => a
  | .b8zs => b8zsRef a
  | .hdb3 => hdb3Ref a

/-- The result of a frame (R103): the error InvalidSymbol, or the output bytes with the flags `trunc` and `empty`. -/
inductive FrameResult where
  | errInvalidSymbol
  | ok (out : List Byte) (trunc empty : Bool)
deriving DecidableEq, Repr

/-- The source function F(m, d) of R102. -/
def sourceResult (m : Mode) (d : List Byte) : FrameResult :=
  match m.dir with
  | .enc =>
    if d.all (fun x => (bit x).isSome) then
      .ok ((scrambleRef m.scr (encodeRef m.scheme (d.filterMap bit))).map code) false d.isEmpty
    else .errInvalidSymbol
  | .dec =>
    .ok ((decodeRef m.scheme (d.map lv)).map sym)
      (decide (d.length % Machine.samplesPerBit m.scheme ≠ 0)) d.isEmpty

end Sys2Proof
end

