-- ==== Sys2Proof/Machine/Frames.lean ====
section
/-! DEFINITION. Frames seen from outside (R90, R100 to R103) and the observation of a run (R203): what a reader of the
machine's steps can say about them. Nothing here is state of LCC (DESIGN CHOICE, log 15). -/

namespace Sys2Proof.Machine

/-- The item a command word carries, if it is a PUSH (R100). -/
def pushedByte (w : Word) : Option Byte :=
  match decode w with
  | .ok (.push x) => some x
  | _ => none

/-- `items(F)` for the words written between a frame's START and its END (R100). -/
def itemsOf (ws : List Word) : List Byte := ws.filterMap pushedByte

/-- The words written to CMD one after the other (R52, R91). -/
def runWords : List Word → State → Host.Outcome State Fault Refusal
  | [], s => .next s
  | w :: ws, s =>
    match executeWord w s with
    | .next t => runWords ws t
    | .fault r => .fault r
    | .refused r => .refused r

/-- The words of one frame: its START, the words written while it is open, and its END (R90). -/
def frameWords (m : Mode) (body : List Word) : List Word := encode m.start :: (body ++ [encode .endFrame])

/-- The result of a frame after its END, from the bytes it emitted (R103). -/
def frameResult (bytes : List Byte) (s : State) : FrameResult :=
  if s.inv then .errInvalidSymbol else .ok bytes s.trunc s.empty

/-- A reply of an OUT read with VALID = 1 gives its byte (R40, R55). -/
def Reply.outByte (r : Reply) : Option Byte :=
  if r.port = .out ∧ r.value.getLsbD 8 then some (r.value.extractLsb' 0 8) else none

/-- The bytes the host has read from OUT, in order (R203). -/
def readBytes (s : State) : List Byte := s.replies.filterMap Reply.outByte

/-- Every byte emitted and not lost to a reset, in emission order: those read, then those still queued (R31, R101). -/
def stream (s : State) : List Byte := readBytes s ++ s.out

/-- The command word an access writes, directly or through the window (R52, R56). -/
def HostAccess.commandWord : HostAccess → Option Word
  | .write .cmd w => some w
  | .write _ _ => none
  | .read _ => none
  | .bus ⟨.write w, 16, addr⟩ => if addr = Config.regBase then some w else none
  | .bus _ => none
  | .reset => none

/-- A frame that has ended: its mode, its items and its result. -/
structure FrameRecord where
  mode : Mode
  items : List Byte
  result : FrameResult
deriving DecidableEq, Repr

/-- What a reader of a run keeps: the open frame's items and bytes (R100, R101), and the frames that have ended. -/
structure FrameTrace where
  items : List Byte
  bytes : List Byte
  ended : List FrameRecord
deriving DecidableEq, Repr

/-- Nothing seen yet. -/
def FrameTrace.begin : FrameTrace := ⟨[], [], []⟩

/-- A command word took LCC from `s` to `t`. -/
def FrameTrace.command (tr : FrameTrace) (w : Word) (s t : State) : FrameTrace :=
  let emitted := t.out.drop s.out.length
  if s.act then
    match decode w with
    | .ok (.push x) => { tr with items := tr.items ++ [x], bytes := tr.bytes ++ emitted }
    | .ok .endFrame =>
      { tr with
        bytes := tr.bytes ++ emitted
        ended := tr.ended ++ [⟨s.mode, tr.items, frameResult (tr.bytes ++ emitted) t⟩] }
    | _ => { tr with bytes := tr.bytes ++ emitted }
  else if t.act then { tr with items := [], bytes := emitted }
  else tr

/-- An access took LCC from `s` to `t`. A reset abandons the open frame, which then has no result (R191). -/
def FrameTrace.access (tr : FrameTrace) (a : HostAccess) (s t : State) : FrameTrace :=
  match a.commandWord with
  | some w => tr.command w s t
  | none => if a = .reset then { tr with items := [], bytes := [] } else tr

/-- At most `n` steps, with what a reader keeps of them; it stops when the host has no access left. -/
def runTraced : Nat → State → FrameTrace → Host.Outcome (State × FrameTrace) Fault Refusal
  | 0, s, tr => .next (s, tr)
  | n + 1, s, tr =>
    match s.host with
    | [] => .next (s, tr)
    | a :: _ =>
      match step s with
      | .next t => runTraced n t (tr.access a s t)
      | .fault r => .fault r
      | .refused r => .refused r

/-- The observation of a run (R203): the frame results, the bytes read from OUT, the final STATUS. -/
structure Observation where
  results : List FrameResult
  outBytes : List Byte
  status : Word
deriving DecidableEq, Repr

/-- The observation of the run of all the host's accesses from `s` (R203). -/
def observe (s : State) : Host.Outcome Observation Fault Refusal :=
  match runTraced s.host.length s .begin with
  | .next (t, tr) => .next ⟨tr.ended.map FrameRecord.result, readBytes t, t.statusImage⟩
  | .fault r => .fault r
  | .refused r => .refused r

/-- A run is over: the host has no access left, its last OUT read returned VALID = 0, and nothing is queued at the end
(R203). R203 does not say that this read comes after the last command: one made before it counts too when what follows
leaves the queue empty, as in OUT read, START, END, or OUT read, START, PUSH, reset (DESIGN CHOICE, log 15). -/
def runOver (s : State) : Bool :=
  s.host.isEmpty && s.out.isEmpty &&
    decide ((s.replies.filter (fun r => r.port = .out)).getLast? = some ⟨.out, 0x0000⟩)

end Sys2Proof.Machine
end

