-- ==== Sys2Proof/Machine/Assembler.lean ====
section
/-! DEFINITION. The assembler syntax (R85) and the pseudo-instructions (R86): lines of text to command words. Text is a
list of characters. Points R85 does not settle are in log 12. -/

namespace Sys2Proof.Asm

/-- A parsed line. -/
inductive Line where
  | blank
  | nop
  | start (d : Dir) (s : Scheme) (k : Scrambling)
  | push (x : Byte)
  | endFrame
  | word (w : Word)
  | pushBits (cs : List Char)
  | pushLevels (vs : List Int)
  | encode (s : Scheme) (k : Scrambling) (cs : List Char)
  | decode (s : Scheme) (vs : List Int)
deriving DecidableEq, Repr

/-- The mode of a direction, a scheme and a scrambling, where one of the twelve has them (R75). -/
def modeOf (d : Dir) (s : Scheme) (k : Scrambling) : Option Mode := Mode.ofBits (d.bits ++ k.bits ++ s.bits)

/-- The byte of a character of PUSHBITS: its code (R86). -/
def charByte (c : Char) : Option Byte := if c.toNat < 256 then some (BitVec.ofNat 8 c.toNat) else none

/-- The byte of a signed operand, −128 to 127 (R85, R86). -/
def levelByte (v : Int) : Option Byte := if -128 ≤ v ∧ v ≤ 127 then some (BitVec.ofInt 8 v) else none

/-- One PUSH a byte (R86). -/
def pushWords (xs : List Byte) : List Word := xs.map (fun x => Sys2Proof.encode (.push x))

/-- START, the PUSHes, END (R86). -/
def frameOf (m : Mode) (xs : List Byte) : List Word := Machine.frameWords m (pushWords xs)

/-- The words of a line (R85, R86); none is an assembly error. -/
def assemble : Line → Option (List Word)
  | .blank => some []
  | .nop => some [Sys2Proof.encode .nop]
  | .start d s k => (modeOf d s k).map (fun m => [Sys2Proof.encode m.start])
  | .push x => some [Sys2Proof.encode (.push x)]
  | .endFrame => some [Sys2Proof.encode .endFrame]
  | .word w => some [w]
  | .pushBits cs => (cs.mapM charByte).map pushWords
  | .pushLevels vs => (vs.mapM levelByte).map pushWords
  | .encode s k cs =>
    match modeOf .enc s k, cs.mapM charByte with
    | some m, some xs => some (frameOf m xs)
    | _, _ => none
  | .decode s vs =>
    match modeOf .dec s .off, vs.mapM levelByte with
    | some m, some xs => some (frameOf m xs)
    | _, _ => none

/-- The mnemonics and keywords of R85 and R86. -/
inductive Keyword where
  | nop
  | start
  | push
  | endFrame
  | word
  | enc
  | dec
  | scheme (s : Scheme)
  | scr (k : Scrambling)
  | pushBits
  | pushLevels
  | encode
  | decode
deriving DecidableEq, Repr

/-- A keyword from its capital letters. -/
def keyword (cs : List Char) : Option Keyword :=
  if cs = ['N', 'O', 'P'] then some .nop
  else if cs = ['S', 'T', 'A', 'R', 'T'] then some .start
  else if cs = ['P', 'U', 'S', 'H'] then some .push
  else if cs = ['E', 'N', 'D'] then some .endFrame
  else if cs = ['.', 'W', 'O', 'R', 'D'] then some .word
  else if cs = ['E', 'N', 'C'] then some .enc
  else if cs = ['D', 'E', 'C'] then some .dec
  else if cs = ['N', 'R', 'Z', 'L'] then some (.scheme .nrzl)
  else if cs = ['N', 'R', 'Z', 'I'] then some (.scheme .nrzi)
  else if cs = ['M', 'A', 'N'] then some (.scheme .man)
  else if cs = ['D', 'M', 'A', 'N'] then some (.scheme .dman)
  else if cs = ['A', 'M', 'I'] then some (.scheme .ami)
  else if cs = ['B', '8', 'Z', 'S'] then some (.scr .b8zs)
  else if cs = ['H', 'D', 'B', '3'] then some (.scr .hdb3)
  else if cs = ['P', 'U', 'S', 'H', 'B', 'I', 'T', 'S'] then some .pushBits
  else if cs = ['P', 'U', 'S', 'H', 'L', 'E', 'V', 'E', 'L', 'S'] then some .pushLevels
  else if cs = ['E', 'N', 'C', 'O', 'D', 'E'] then some .encode
  else if cs = ['D', 'E', 'C', 'O', 'D', 'E'] then some .decode
  else none

/-- A token of a line. -/
inductive Token where
  | key (k : Keyword)
  | lit (cs : List Char)
  | chr (c : Char)
  | str (cs : List Char)
  | lbrack
  | rbrack
  | comma
deriving DecidableEq, Repr

/-- Where the lexer stands; the lists are read so far, newest first. -/
inductive LexMode where
  | gap
  | name (acc : List Char)
  | chr0
  | chr1 (c : Char)
  | str (acc : List Char)
  | comment
deriving DecidableEq, Repr

/-- Mnemonics and keywords are case-insensitive (R85). -/
def nameToken (acc : List Char) : Token :=
  let cs := acc.reverse.map Char.toUpper
  match keyword cs with
  | some k => .key k
  | none => .lit cs

/-- Space and the characters that begin another token. -/
def isDelimiter (c : Char) : Bool :=
  c = ' ' || c = '\t' || c = '\r' || c = ';' || c = ',' || c = '[' || c = ']' || c = '"' || c = '\''

/-- What a character begins outside a token; `;` starts a comment (R85). -/
def beginToken (c : Char) : List Token × LexMode :=
  if c = ' ' || c = '\t' || c = '\r' then ([], .gap)
  else if c = ';' then ([], .comment)
  else if c = ',' then ([.comma], .gap)
  else if c = '[' then ([.lbrack], .gap)
  else if c = ']' then ([.rbrack], .gap)
  else if c = '"' then ([], .str [])
  else if c = '\'' then ([], .chr0)
  else ([], .name [c])

/-- The tokens of a line. -/
def lex : LexMode → List Char → Option (List Token)
  | .gap, [] => some []
  | .name acc, [] => some [nameToken acc]
  | .comment, [] => some []
  | .chr0, [] => none
  | .chr1 _, [] => none
  | .str _, [] => none
  | .gap, c :: cs => (lex (beginToken c).2 cs).map ((beginToken c).1 ++ ·)
  | .name acc, c :: cs =>
    if isDelimiter c then (lex (beginToken c).2 cs).map (nameToken acc :: (beginToken c).1 ++ ·)
    else lex (.name (c :: acc)) cs
  | .chr0, c :: cs => lex (.chr1 c) cs
  | .chr1 d, c :: cs => if c = '\'' then (lex .gap cs).map (Token.chr d :: ·) else none
  | .str acc, c :: cs => if c = '"' then (lex .gap cs).map (Token.str acc.reverse :: ·) else lex (.str (c :: acc)) cs
  | .comment, _ :: cs => lex .comment cs

/-- A digit's value in a base up to sixteen. -/
def digit (base : Nat) (c : Char) : Option Nat :=
  let v := if '0' ≤ c ∧ c ≤ '9' then c.toNat - '0'.toNat else if 'A' ≤ c ∧ c ≤ 'F' then c.toNat - 'A'.toNat + 10 else base
  if v < base then some v else none

/-- The number a list of digits spells. -/
def number (base : Nat) (cs : List Char) : Option Nat :=
  (cs.mapM (digit base)).map (fun ds => ds.foldl (fun n d => n * base + d) 0)

/-- `0x` and two hexadecimal digits. -/
def hexByte : List Char → Option Byte
  | ['0', 'X', a, b] => (number 16 [a, b]).map (BitVec.ofNat 8)
  | _ => none

/-- `0x` and four hexadecimal digits: `<hex16>`. -/
def hexWord : List Char → Option Word
  | ['0', 'X', a, b, c, d] => (number 16 [a, b, c, d]).map (BitVec.ofNat 16)
  | _ => none

/-- A decimal integer with an optional sign. -/
def signedDec : List Char → Option Int
  | [] => none
  | '-' :: c :: cs => (number 10 (c :: cs)).map (fun n => -(n : Int))
  | '+' :: c :: cs => (number 10 (c :: cs)).map (fun n => (n : Int))
  | cs => (number 10 cs).map (fun n => (n : Int))

/-- `<imm8>` of R85: `'0'`, `'1'`, a hexadecimal byte, or a signed decimal −128 to 127. -/
def imm8 : Token → Option Byte
  | .chr c => if c = '0' then some Config.sym0 else if c = '1' then some Config.sym1 else none
  | .lit cs =>
    match hexByte cs with
    | some x => some x
    | none =>
      match signedDec cs with
      | some v => levelByte v
      | none => none
  | _ => none

/-- The rest of a list of levels after its first. -/
def levelsTail : List Token → Option (List Int)
  | [.rbrack] => some []
  | .comma :: .lit cs :: rest =>
    match signedDec cs, levelsTail rest with
    | some v, some vs => some (v :: vs)
    | _, _ => none
  | _ => none

/-- `[v0, v1, ..., vn-1]` (R86), possibly empty. R86 gives a level its range and no spelling: that a level here is a
signed decimal, and that a hexadecimal byte, which `<imm8>` of PUSH may be, is an assembly error, is a DESIGN CHOICE,
log 12. -/
def levels : List Token → Option (List Int)
  | [.lbrack, .rbrack] => some []
  | .lbrack :: .lit cs :: rest =>
    match signedDec cs, levelsTail rest with
    | some v, some vs => some (v :: vs)
    | _, _ => none
  | _ => none

/-- The line a list of tokens spells (R85, R86). -/
def parse : List Token → Option Line
  | [] => some .blank
  | [.key .nop] => some .nop
  | [.key .endFrame] => some .endFrame
  | [.key .start, .key .enc, .key (.scheme s)] => some (.start .enc s .off)
  | [.key .start, .key .enc, .key (.scheme s), .key (.scr k)] => some (.start .enc s k)
  | [.key .start, .key .dec, .key (.scheme s)] => some (.start .dec s .off)
  | [.key .push, t] => (imm8 t).map Line.push
  | [.key .word, .lit cs] => (hexWord cs).map Line.word
  | [.key .pushBits, .str cs] => some (.pushBits cs)
  | .key .pushLevels :: ts => (levels ts).map Line.pushLevels
  | [.key .encode, .key (.scheme s), .comma, .str cs] => some (.encode s .off cs)
  | [.key .encode, .key (.scheme s), .key (.scr k), .comma, .str cs] => some (.encode s k cs)
  | .key .decode :: .key (.scheme s) :: .comma :: ts => (levels ts).map (Line.decode s)
  | _ => none

/-- The words of one line of text. -/
def assembleLine (cs : List Char) : Option (List Word) := (lex .gap cs).bind (fun ts => (parse ts).bind assemble)

/-- The text cut at its line ends: one command a line (R85). -/
def splitLines : List Char → List Char → List (List Char)
  | acc, [] => [acc.reverse]
  | acc, c :: cs => if c = '\n' then acc.reverse :: splitLines [] cs else splitLines (c :: acc) cs

/-- The words of a program text, in order; none if some line is an assembly error. -/
def assembleText (cs : List Char) : Option (List Word) := ((splitLines [] cs).mapM assembleLine).map List.flatten

end Sys2Proof.Asm
end

