-- ==== Sys2Proof/Machine/Bounded.lean ====
section
/-! DEFINITION. An implementation with a queue of `depth` bytes (`OUT_DEPTH`, R8, R197): it does not accept a command
until the bytes the command will emit fit, and never drops one. The model itself is unbounded (R31; DEDUCED, log 7). -/

namespace Sys2Proof.Machine

/-- The head of the host's list writes a command whose outputs do not fit a queue of `depth` bytes. -/
def mustWait (depth : Nat) (s : State) : Bool :=
  match s.host with
  | [] => false
  | a :: _ =>
    match a.commandWord, step s with
    | some _, .next t => decide (depth < t.out.length)
    | _, _ => false

/-- One step of an implementation whose queue holds `depth` bytes: a command that does not fit is held, and with it
every later access of the host, so that a host that does not read OUT waits for ever (R197). A reset that stands later in
the host's list waits behind the held command too: R197, R60 and R190 do not say whether it reaches LCC first
(DESIGN CHOICE, log 16). A reset at the head of the list is never held. -/
def stepBounded (depth : Nat) (s : State) : Host.Outcome State Fault Refusal :=
  if mustWait depth s then .next s else step s

end Sys2Proof.Machine
end

