-- ==== Sys2Proof/Safety.lean ====
section
/-! DEFINITION. The terms in which claims about runs are made: the invariant between commands (R44), what a host must do
(R57, R65, R194), what is visible (R43), and what a reader's frame trace says (R104). -/

namespace Sys2Proof.Machine

/-- How many zeros a mode's scrambler may hold between commands (R44 b). -/
def heldLimit (m : Mode) : Nat :=
  match m.scr with
  | .off => 0
  | .b8zs => 7
  | .hdb3 => 3

/-- A mode whose decoder takes two levels a bit: DEC MAN or DEC DMAN (R44 c, R153). -/
def pairDecoder (m : Mode) : Bool := decide (m.dir = .dec ∧ samplesPerBit m.scheme = 2)

/-- What holds between commands (R44), with what R26, R29, R134 (e) and R177 add. -/
structure Inv (s : State) : Prop where
  /-- R44 (b). -/
  heldZeros : s.scrZc.val ≤ heldLimit s.mode
  /-- R44 (c). -/
  heldLevel : s.decHv = true → pairDecoder s.mode = true
  /-- R44 (d). -/
  invEncodeOnly : s.inv = true → s.mode.dir = .enc
  /-- R25: `TRUNC` belongs to a pair decoder's frame. -/
  truncPairOnly : s.trunc = true → pairDecoder s.mode = true
  /-- R25, R26: END reports, so an open frame has neither flag. -/
  openUnreported : s.act = true → s.trunc = false ∧ s.empty = false
  /-- R26: `EMPTY` only without an item. -/
  emptyNoItem : s.empty = true → s.any = false
  /-- R29, R177: without an item nothing is held, aborted or truncated. -/
  noItemNothing : s.any = false → s.inv = false ∧ s.trunc = false ∧ s.decHv = false ∧ s.scrZc = 0
  /-- R134 (e): in a B8ZS frame the scrambler's polarity is the AMI mapper's last pulse. -/
  b8zsPolarity : s.mode = .encAmiB8zs → s.scrPol = s.amiLast

/-- The byte of a pulse by R10's table: 0xFF for −1, 0x01 for +1. -/
def pulseByte : Polarity → Byte
  | .neg => 0xFF
  | .pos => 0x01

/-- The phase a command needs (R91): START only when idle, PUSH and END only in an open frame. -/
def allowedInPhase (i : Instr) (act : Bool) : Bool :=
  match i with
  | .nop => true
  | .push _ => act
  | .endFrame => act
  | _ => !act

/-- An access of the window inside LCC's contract: one 16-bit read or write at an even offset (R57). -/
def BusAccess.inContract (a : BusAccess) : Bool := decide (a.kind ≠ .fetch) && decide (a.width = 16) && a.evenOffset

/-- A host access that keeps the host's duties (R57, R65, R194): a command is legal and in its phase, and a bus access
that touches the window is in the contract. -/
def dutiful (s : State) (a : HostAccess) : Bool :=
  match a.commandWord with
  | some w =>
    match decode w with
    | .ok i => allowedInPhase i s.act
    | .error _ => false
  | none =>
    match a with
    | .bus b => !b.touchesWindow || b.inContract
    | _ => true

/-- Two states that no host can tell apart while both are idle: they differ at most in `ANY` and the running state of the
stages (R43, R44 a). -/
def sameVisible (s t : State) : Prop :=
  t = { s with
    any := t.any, encCur := t.encCur, amiLast := t.amiLast, scrPol := t.scrPol, scrPar := t.scrPar,
    scrZc := t.scrZc, decPrev := t.decPrev, decHv := t.decHv, decHd := t.decHd }

/-- Two states in the same place of the same frame: they differ at most in `ACT`, `ILL`, `PROTO`, the queue and the host's
side. -/
def sameFrame (s t : State) : Prop :=
  t = { s with act := t.act, ill := t.ill, proto := t.proto, out := t.out, host := t.host, replies := t.replies }

/-- The state of a frame of mode `m` that has consumed the items `d`, opened right after reset (R92, R94, R99). -/
def replay (m : Mode) (d : List Byte) : State := d.foldl (fun s x => push x s) (start m State.reset)

/-- What a reader's trace says of the state it has followed: an open frame stands where its own items alone take a fresh
one and has emitted what that one has (R99 to R101), and every ended frame's result is the source's function (R104). -/
structure TraceInv (s : State) (tr : FrameTrace) : Prop where
  openFrame : s.act = true → sameFrame (replay s.mode tr.items) s ∧ tr.bytes = (replay s.mode tr.items).out
  endedFrames : ∀ r ∈ tr.ended, r.result = sourceResult r.mode r.items

/-- The unscrambled encode mode of a scheme (R75). -/
def encMode : Scheme → Mode
  | .nrzl => .encNrzl
  | .nrzi => .encNrzi
  | .man => .encMan
  | .dman => .encDman
  | .ami => .encAmi

/-- The decode mode of a scheme (R75). -/
def decMode : Scheme → Mode
  | .nrzl => .decNrzl
  | .nrzi => .decNrzi
  | .man => .decMan
  | .dman => .decDman
  | .ami => .decAmi

/-- The PUSH words of a list of bytes, in order. -/
def pushes (xs : List Byte) : List Word := xs.map (fun x => encode (.push x))

end Sys2Proof.Machine

namespace Sys2Proof.Asm

/-- The lines of R85's syntax table that hold no number, in capital letters: the line, the word the table gives it (0x1000
or 0x1020 and the SCHEME of R74), and the command. -/
def commandLines : List (String × Word × Instr) :=
  [("NOP", 0x0000, .nop),
   ("START ENC NRZL", 0x1000, .startEncNrzl),
   ("START ENC NRZI", 0x1001, .startEncNrzi),
   ("START ENC MAN", 0x1002, .startEncMan),
   ("START ENC DMAN", 0x1003, .startEncDman),
   ("START ENC AMI", 0x1004, .startEncAmi),
   ("START ENC AMI B8ZS", 0x100C, .startEncAmiB8zs),
   ("START ENC AMI HDB3", 0x1014, .startEncAmiHdb3),
   ("START DEC NRZL", 0x1020, .startDecNrzl),
   ("START DEC NRZI", 0x1021, .startDecNrzi),
   ("START DEC MAN", 0x1022, .startDecMan),
   ("START DEC DMAN", 0x1023, .startDecDman),
   ("START DEC AMI", 0x1024, .startDecAmi),
   ("PUSH '0'", 0x2030, .push 0x30),
   ("PUSH '1'", 0x2031, .push 0x31),
   ("END", 0x3000, .endFrame)]

/-- A number as that many hexadecimal digits, in capital letters. -/
def hexText : Nat → Nat → List Char
  | 0, _ => []
  | k + 1, n => hexText k (n / 16) ++ [(Nat.digitChar (n % 16)).toUpper]

/-- A line of text that differs from a line in capital letters in the case of its letters only (R85). -/
def spells (cs line : List Char) : Prop := cs.map Char.toUpper = line

end Sys2Proof.Asm
end

