-- ==== Sys2Proof/Certificates/Slice0/Obligations.lean ====
section
/-! DEFINITION. The statements made about LCC. Each docstring names the rules of spec/ it formalises. -/

open Sys2Proof Sys2Proof.Machine

/-! ### Encoding -/

/-- R72, R73, R76, R77, R80: decoding the word of a well-formed command gives the command, and a word that decodes to a
command is that command's word. -/
def Obligations.DecodeAndEncodeAgree : Prop :=
  (∀ i : Instr, i.wf = true → decode (encode i) = .ok i) ∧
  (∀ (w : Word) (i : Instr), decode w = .ok i → encode i = w)

/-- R87: the worked encodings and the five illegal words. -/
def Obligations.WorkedEncodingsDecode : Prop :=
  decode 0x100C = .ok .startEncAmiB8zs ∧ Mode.encAmiB8zs.bits = 0b001100 ∧
  Mode.encAmiB8zs.dir = .enc ∧ Mode.encAmiB8zs.scr = .b8zs ∧ Mode.encAmiB8zs.scheme = .ami ∧
  decode 0x2031 = .ok (.push 0x31) ∧ decode 0x20FF = .ok (.push 0xFF) ∧ decode 0x1023 = .ok .startDecDman ∧
  ∀ w : Word, w ∈ [(0x1008 : Word), 0x102C, 0x1005, 0x2100, 0x4000] → ∃ e, decode w = .error e

/-- R72, R73, R77 (and R76): each command has its one word, and the twelve START words and 256 PUSH words are those of
the mode's bits and of the byte. -/
def Obligations.EachCommandHasItsOneWord : Prop :=
  (∀ w : Word, decode w = .ok .nop ↔ w = 0x0000) ∧
  (∀ (m : Mode) (w : Word), decode w = .ok m.start ↔ w = 0x1000 ||| m.bits.zeroExtend 16) ∧
  (∀ (x : Byte) (w : Word), decode w = .ok (.push x) ↔ w = 0x2000 ||| x.zeroExtend 16) ∧
  (∀ w : Word, decode w = .ok .endFrame ↔ w = 0x3000)

/-- R71, R75, R79: the decoder of R80 accepts exactly the words that pass the prose's checks of OP, fixed fields and
MODE. -/
def Obligations.DecoderAcceptsExactlyWellFormedWords : Prop :=
  ∀ w : Word, (∃ i, decode w = .ok i) ↔ wordWf w = true

/-- R80, R82: exactly 270 words are legal. -/
def Obligations.LegalWordsNumber270 : Prop :=
  ∃ l : List Word, l.Nodup ∧ l.length = 270 ∧ ∀ w : Word, w ∈ l ↔ ∃ i, decode w = .ok i

/-- R10, R11: `lv` reads every byte as a level from -128 to 127, `code` gives -1, 0 and +1 the bytes 0xFF, 0x00 and 0x01,
bits survive the trip through their symbol bytes, and only the two symbol bytes are bits. That `code` undoes `lv` on every
byte, and `lv` undoes `code` on -128 to 127 (the first two clauses), is the model's choice (DESIGN CHOICE, log 10): R10
defines `code` on -1, 0 and +1 only. -/
def Obligations.LevelAndSymbolBytes : Prop :=
  (∀ x : Byte, -128 ≤ lv x ∧ lv x ≤ 127 ∧ code (lv x) = x) ∧
  (∀ v : Int, -128 ≤ v → v ≤ 127 → lv (code v) = v) ∧
  (code (-1) = 0xFF ∧ code 0 = 0x00 ∧ code 1 = 0x01) ∧
  (∀ b : Bool, bit (sym b) = some b) ∧
  (∀ x : Byte, bit x = none ↔ x ≠ 0x30 ∧ x ≠ 0x31)

/-! ### One step -/

/-- R52, R80, R91: when the host's next access writes a word to CMD that decodes to a well-formed command, the step is
that command executed on the state with the access taken off the host's list. When the host does nothing the step changes
nothing (the model's choice, log 2, from R60, R180 and R202). -/
def Obligations.StepRunsTheDecodedCommand : Prop :=
  (∀ (s : State) (w : Word) (rest : List HostAccess) (i : Instr),
    s.host = .write .cmd w :: rest → decode w = .ok i → i.wf = true →
    step s = exec i { s with host := rest }) ∧
  (∀ s : State, s.host = [] → step s = .next s)

/-- R81: a word that spells no command sets ILL and does nothing else, in either phase. -/
def Obligations.IllegalWordOnlySetsIll : Prop :=
  ∀ (s : State) (w : Word) (rest : List HostAccess) (e : DecodeError),
    s.host = .write .cmd w :: rest → decode w = .error e →
    step s = .next { s with host := rest, ill := true }

/-- R191, R42: reset at any time gives every field of R22 its reset value; only the host's side stays. -/
def Obligations.ResetWritesEveryField : Prop :=
  ∀ (s : State) (rest : List HostAccess), s.host = .reset :: rest →
    step s = .next {
      act := false, inv := false, trunc := false, empty := false, ill := false, proto := false, any := false,
      mode := .encNrzl, out := [], encCur := .neg, amiLast := .pos, scrPol := .pos, scrPar := false, scrZc := 0,
      decPrev := 0xFF, decHv := false, decHd := 0x00, host := rest, replies := s.replies }

/-! ### Frame control -/

/-- R98: a NOP writes no field and emits nothing, in either phase, and it is no item of a frame. -/
def Obligations.NopChangesNothing : Prop :=
  (∀ s : State, exec .nop s = .next s) ∧ pushedByte (encode .nop) = none

/-- R92: an accepted START latches its mode, opens the frame, clears the flags, loads every seed and keeps OUT. -/
def Obligations.StartOpensFrameAndLoadsSeeds : Prop :=
  ∀ (m : Mode) (s : State), s.act = false →
    exec m.start s = .next { s with
      mode := m, act := true, inv := false, trunc := false, empty := false, ill := false, proto := false, any := false,
      encCur := (if m.scheme = .dman then .pos else .neg), amiLast := .pos, scrPol := .pos, scrPar := false, scrZc := 0,
      decPrev := (if m.scheme = .dman then 0x01 else 0xFF), decHv := false, decHd := 0x00 }

/-- R93, R95, R97, R176: a START in an open frame, and a PUSH or an END while idle, set PROTO and change nothing else. -/
def Obligations.CommandOutOfPhaseOnlySetsProto : Prop :=
  (∀ (m : Mode) (s : State), s.act = true → exec m.start s = .next { s with proto := true }) ∧
  (∀ (x : Byte) (s : State), s.act = false → exec (.push x) s = .next { s with proto := true }) ∧
  (∀ s : State, s.act = false → exec .endFrame s = .next { s with proto := true })

/-- R112: an invalid symbol aborts an encode frame; from then on a PUSH writes only ANY, END flushes nothing, and the
result is the error. -/
def Obligations.InvalidSymbolAbortsFrame : Prop :=
  (∀ (x : Byte) (s : State), s.act = true → s.inv = false → s.mode.dir = .enc → x ≠ 0x30 → x ≠ 0x31 →
    exec (.push x) s = .next { s with any := true, inv := true }) ∧
  (∀ (x : Byte) (s : State), s.act = true → s.inv = true → exec (.push x) s = .next { s with any := true }) ∧
  (∀ s : State, s.act = true → s.inv = true →
    exec .endFrame s = .next { s with empty := !s.any, act := false }) ∧
  (∀ (bytes : List Byte) (s : State), s.inv = true → frameResult bytes s = .errInvalidSymbol)

/-- R96: END flushes a scrambler's held zeros, drops an unpaired level with TRUNC, reports EMPTY and closes the frame; in
an aborted frame it flushes and drops nothing. -/
def Obligations.EndReleasesHeldItemsAndCloses : Prop :=
  (∀ s : State, s.act = true → s.inv = true →
    exec .endFrame s = .next { s with empty := !s.any, act := false }) ∧
  (∀ s : State, s.act = true → s.inv = false → s.mode.dir = .enc → s.mode.scr ≠ .off →
    exec .endFrame s = .next { s with
      out := s.out ++ List.replicate s.scrZc.val 0x00, scrZc := 0, empty := !s.any, act := false }) ∧
  (∀ s : State, s.act = true → s.inv = false → s.mode.dir = .enc → s.mode.scr = .off →
    exec .endFrame s = .next { s with empty := !s.any, act := false }) ∧
  (∀ s : State, s.act = true → s.inv = false → (s.mode = .decMan ∨ s.mode = .decDman) → s.decHv = true →
    exec .endFrame s = .next { s with trunc := true, decHv := false, empty := !s.any, act := false }) ∧
  (∀ s : State, s.act = true → s.inv = false → (s.mode = .decMan ∨ s.mode = .decDman) → s.decHv = false →
    exec .endFrame s = .next { s with empty := !s.any, act := false }) ∧
  (∀ s : State, s.act = true → s.inv = false → (s.mode = .decNrzl ∨ s.mode = .decNrzi ∨ s.mode = .decAmi) →
    exec .endFrame s = .next { s with empty := !s.any, act := false }) ∧
  (∀ s : State, s.act = true → s.any = false → Inv s →
    ∃ t, exec .endFrame s = .next t ∧ t.out = s.out ∧ t.empty = true ∧ t.trunc = false ∧ t.act = false)

/-! ### The encoder -/

/-- R113: NRZ-L emits +1 for a 1 and −1 for a 0, and nothing else changes but ANY. -/
def Obligations.NrzlEncodesLevelPerBit : Prop :=
  ∀ (b : Bool) (s : State), s.act = true → s.inv = false → s.mode = .encNrzl →
    exec (.push (if b then 0x31 else 0x30)) s =
      .next { s with any := true, out := s.out ++ [if b then 0x01 else 0xFF] }

/-- R114: NRZ-I keeps ENC_CUR on a 0 and inverts it on a 1, and emits it; the frame begins with −1. -/
def Obligations.NrziEncodesByInversion : Prop :=
  (∀ s : State, s.act = true → s.inv = false → s.mode = .encNrzi →
    exec (.push 0x30) s = .next { s with any := true, out := s.out ++ [pulseByte s.encCur] } ∧
    exec (.push 0x31) s =
      .next { s with any := true, encCur := s.encCur.flip, out := s.out ++ [pulseByte s.encCur.flip] }) ∧
  (∀ s : State, s.act = false → ∃ t, exec .startEncNrzi s = .next t ∧ t.mode = .encNrzi ∧ t.encCur = .neg)

/-- R115: Manchester emits −1, +1 for a 1 and +1, −1 for a 0. -/
def Obligations.ManchesterEncodesTwoLevels : Prop :=
  ∀ (b : Bool) (s : State), s.act = true → s.inv = false → s.mode = .encMan →
    exec (.push (if b then 0x31 else 0x30)) s =
      .next { s with any := true, out := s.out ++ (if b then [0xFF, 0x01] else [0x01, 0xFF]) }

/-- R116: Differential Manchester inverts ENC_CUR before a 0, emits it and its negation, and ends at the second; the
frame begins with +1. -/
def Obligations.DiffManchesterEncodesByTransition : Prop :=
  (∀ s : State, s.act = true → s.inv = false → s.mode = .encDman →
    exec (.push 0x30) s =
      .next { s with any := true, out := s.out ++ [pulseByte s.encCur.flip, pulseByte s.encCur] } ∧
    exec (.push 0x31) s = .next { s with
      any := true, encCur := s.encCur.flip, out := s.out ++ [pulseByte s.encCur, pulseByte s.encCur.flip] }) ∧
  (∀ s : State, s.act = false → ∃ t, exec .startEncDman s = .next t ∧ t.mode = .encDman ∧ t.encCur = .pos)

/-- R117, with R130's first case: AMI emits 0 for a 0 and the next, alternating, pulse for a 1; the frame begins with
lastPulse +1. With scrambling the same level and the same AMI_LAST go to the stage. -/
def Obligations.AmiEncodesAlternatingPulses : Prop :=
  (∀ s : State, s.act = true → s.inv = false → s.mode = .encAmi →
    exec (.push 0x30) s = .next { s with any := true, out := s.out ++ [0x00] } ∧
    exec (.push 0x31) s =
      .next { s with any := true, amiLast := s.amiLast.flip, out := s.out ++ [pulseByte s.amiLast.flip] }) ∧
  (∀ s : State, s.act = true → s.inv = false → s.mode.dir = .enc → s.mode.scheme = .ami →
    exec (.push 0x30) s = .next (stage .zero { s with any := true }) ∧
    exec (.push 0x31) s =
      .next (stage (.pulse s.amiLast.flip) { s with any := true, amiLast := s.amiLast.flip })) ∧
  (∀ (m : Mode) (s : State), s.act = false → m.dir = .enc → m.scheme = .ami →
    ∃ t, exec m.start s = .next t ∧ t.mode = m ∧ t.amiLast = .pos)

/-! ### The scrambler -/

/-- R132 (with R117): in a B8ZS frame the eighth held zero completes the block 0, 0, 0, p, −p, 0, −p, p, an earlier one is
held, and a pulse is emitted after the held zeros and becomes the polarity. -/
def Obligations.B8zsHoldsZerosAndSubstitutes : Prop :=
  ∀ s : State, s.act = true → s.inv = false → s.mode = .encAmiB8zs →
    (s.scrZc = 7 →
      exec (.push 0x30) s = .next { s with
        any := true, scrZc := 0,
        out := s.out ++ [0x00, 0x00, 0x00, pulseByte s.scrPol, pulseByte s.scrPol.flip, 0x00,
          pulseByte s.scrPol.flip, pulseByte s.scrPol] }) ∧
    (s.scrZc.val < 7 → exec (.push 0x30) s = .next { s with any := true, scrZc := s.scrZc + 1 }) ∧
    exec (.push 0x31) s = .next { s with
      any := true, amiLast := s.amiLast.flip, scrPol := s.amiLast.flip, scrZc := 0,
      out := s.out ++ List.replicate s.scrZc.val 0x00 ++ [pulseByte s.amiLast.flip] }

/-- R136 (with R117): in an HDB3 frame the fourth held zero completes p, 0, 0, p at an even pulse count and 0, 0, 0, −p at
an odd one, blocks and pulses flip the parity, and SCR_POL is the last value written or emitted. The premise on SCR_ZC is
R44 (b), which `InvariantKeptByEveryStep` covers. -/
def Obligations.Hdb3HoldsZerosAndSubstitutes : Prop :=
  ∀ s : State, s.act = true → s.inv = false → s.mode = .encAmiHdb3 → s.scrZc.val ≤ 3 →
    (s.scrZc = 3 → s.scrPar = false →
      exec (.push 0x30) s = .next { s with
        any := true, scrZc := 0, scrPar := true,
        out := s.out ++ [pulseByte s.scrPol, 0x00, 0x00, pulseByte s.scrPol] }) ∧
    (s.scrZc = 3 → s.scrPar = true →
      exec (.push 0x30) s = .next { s with
        any := true, scrZc := 0, scrPar := false, scrPol := s.scrPol.flip,
        out := s.out ++ [0x00, 0x00, 0x00, pulseByte s.scrPol.flip] }) ∧
    (s.scrZc.val < 3 → exec (.push 0x30) s = .next { s with any := true, scrZc := s.scrZc + 1 }) ∧
    exec (.push 0x31) s = .next { s with
      any := true, amiLast := s.amiLast.flip, scrPol := s.amiLast.flip, scrPar := !s.scrPar, scrZc := 0,
      out := s.out ++ List.replicate s.scrZc.val 0x00 ++ [pulseByte s.amiLast.flip] }

/-- R139: fed one level a call from the seeds and then flushed, the stage emits the bytes of the source's scan. -/
def Obligations.ScramblerStageComputesTheScan : Prop :=
  ∀ (a : List Level) (s : State), s.scrZc = 0 → s.scrPol = .pos → s.scrPar = false →
    (s.mode.scr = .b8zs →
      (flushZeros (a.foldl (fun u v => stage v u) s)).out = s.out ++ (b8zsRef (a.map Level.toInt)).map code) ∧
    (s.mode.scr = .hdb3 →
      (flushZeros (a.foldl (fun u v => stage v u) s)).out = s.out ++ (hdb3Ref (a.map Level.toInt)).map code)

/-- R134 (a), (b), R138 (a), (b): both scans keep the length and leave every pulse of their input where it is. -/
def Obligations.ScansKeepLengthAndPulses : Prop :=
  ∀ a : List Int, (b8zsRef a).length = a.length ∧ (hdb3Ref a).length = a.length ∧
    ∀ (i : Nat) (v : Int), a[i]? = some v → v ≠ 0 → (b8zsRef a)[i]? = some v ∧ (hdb3Ref a)[i]? = some v

/-- R140: scrambling does not round-trip: eight (B8ZS) or four (HDB3) zeros in a row anywhere make the AMI decoder give
other bits, and for eight zeros alone it gives the spec's. -/
def Obligations.ScrambledAmiDoesNotRoundTrip : Prop :=
  (∀ bits : List Bool, List.replicate 8 false <:+: bits →
    decodeRef .ami (b8zsRef (encodeRef .ami bits)) ≠ bits) ∧
  (∀ bits : List Bool, List.replicate 4 false <:+: bits →
    decodeRef .ami (hdb3Ref (encodeRef .ami bits)) ≠ bits) ∧
  decodeRef .ami (b8zsRef (encodeRef .ami (List.replicate 8 false))) =
    [false, false, false, true, true, false, true, true] ∧
  decodeRef .ami (hdb3Ref (encodeRef .ami (List.replicate 8 false))) =
    [true, false, false, true, false, false, false, true]

/-! ### The decoder -/

/-- R152: NRZ-L decodes a level above 0 as 1 and every other as 0, one bit a level, with no running state. -/
def Obligations.NrzlDecodesBySign : Prop :=
  ∀ (x : Byte) (s : State), s.act = true → s.inv = false → s.mode = .decNrzl →
    exec (.push x) s = .next { s with any := true, out := s.out ++ [if x.toInt > 0 then 0x31 else 0x30] }

/-- R154: NRZ-I decodes 1 for a level that differs from DEC_PREV and 0 for one that equals it, and remembers the level;
the frame begins with −1. -/
def Obligations.NrziDecodesByChange : Prop :=
  (∀ (x : Byte) (s : State), s.act = true → s.inv = false → s.mode = .decNrzi →
    exec (.push x) s = .next { s with
      any := true, decPrev := x, out := s.out ++ [if x.toInt = s.decPrev.toInt then 0x30 else 0x31] }) ∧
  (∀ s : State, s.act = false → ∃ t, exec .startDecNrzi s = .next t ∧ t.mode = .decNrzi ∧ t.decPrev.toInt = -1)

/-- R155: Manchester holds the first level of a pair and decodes the second: 1 for (−1, +1), 0 for every other pair; the
frame begins with no held level. -/
def Obligations.ManchesterDecodesPairs : Prop :=
  (∀ (x : Byte) (s : State), s.act = true → s.inv = false → s.mode = .decMan →
    (s.decHv = false → exec (.push x) s = .next { s with any := true, decHd := x, decHv := true }) ∧
    (s.decHv = true → exec (.push x) s = .next { s with
      any := true, decHv := false,
      out := s.out ++ [if s.decHd.toInt = -1 ∧ x.toInt = 1 then 0x31 else 0x30] })) ∧
  (∀ s : State, s.act = false → ∃ t, exec .startDecMan s = .next t ∧ t.mode = .decMan ∧ t.decHv = false)

/-- R156: Differential Manchester holds the first level of a group; at the second it decodes 0 if the first differs from
DEC_PREV, else 1, and remembers the second; the frame begins with +1 and no held level. -/
def Obligations.DiffManchesterDecodesGroups : Prop :=
  (∀ (x : Byte) (s : State), s.act = true → s.inv = false → s.mode = .decDman →
    (s.decHv = false → exec (.push x) s = .next { s with any := true, decHd := x, decHv := true }) ∧
    (s.decHv = true → exec (.push x) s = .next { s with
      any := true, decHv := false, decPrev := x,
      out := s.out ++ [if s.decHd.toInt = s.decPrev.toInt then 0x31 else 0x30] })) ∧
  (∀ s : State, s.act = false →
    ∃ t, exec .startDecDman s = .next t ∧ t.mode = .decDman ∧ t.decPrev.toInt = 1 ∧ t.decHv = false)

/-- R157: AMI decodes level 0 as 0 and every other as 1, one bit a level, with no running state. -/
def Obligations.AmiDecodesByNonZero : Prop :=
  ∀ (x : Byte) (s : State), s.act = true → s.inv = false → s.mode = .decAmi →
    exec (.push x) s = .next { s with any := true, out := s.out ++ [if x = 0x00 then 0x30 else 0x31] }

/-! ### Frames of the commands: what each leaves alone -/

/-- R92, R93, R96, R97 (and R31): what a START and an END leave alone, accepted or not. -/
def Obligations.StartAndEndFrameRule : Prop :=
  (∀ (m : Mode) (s t : State), exec m.start s = .next t →
    t.out = s.out ∧ t.host = s.host ∧ t.replies = s.replies ∧
    (s.act = true → t = { s with proto := true })) ∧
  (∀ s t : State, exec .endFrame s = .next t →
    (t.inv = s.inv ∧ t.ill = s.ill ∧ t.any = s.any ∧ t.mode = s.mode ∧ t.encCur = s.encCur ∧ t.amiLast = s.amiLast ∧
      t.scrPol = s.scrPol ∧ t.scrPar = s.scrPar ∧ t.decPrev = s.decPrev ∧ t.decHd = s.decHd ∧
      t.host = s.host ∧ t.replies = s.replies ∧ ∃ n, t.out = s.out ++ List.replicate n 0x00) ∧
    (s.act = true → t.proto = s.proto) ∧
    (s.act = false → t = { s with proto := true }) ∧
    ((s.inv = true ∨ s.mode.scr = .off) → t.out = s.out ∧ t.scrZc = s.scrZc) ∧
    (pairDecoder s.mode = false → t.trunc = s.trunc ∧ t.decHv = s.decHv))

/-- R94, R95, R110 to R117, R130, R150 to R157, R160: what a PUSH leaves alone. An encode frame's PUSH leaves the decoder's
state, a decode frame's PUSH leaves the encoder's and the scrambler's state and INV, and of a frame's own state only the
fields of its scheme and scrambling may change; the queue keeps every byte it holds. -/
def Obligations.PushFrameRule : Prop :=
  ∀ (x : Byte) (s t : State), exec (.push x) s = .next t →
    (t.act = s.act ∧ t.trunc = s.trunc ∧ t.empty = s.empty ∧ t.ill = s.ill ∧ t.mode = s.mode ∧
      t.host = s.host ∧ t.replies = s.replies ∧ ∃ ys, t.out = s.out ++ ys) ∧
    (s.act = false → t = { s with proto := true }) ∧
    (s.act = true → t.proto = s.proto ∧ t.any = true) ∧
    (s.mode.dir = .enc → t.decPrev = s.decPrev ∧ t.decHv = s.decHv ∧ t.decHd = s.decHd) ∧
    (s.mode.dir = .dec → t.inv = s.inv ∧ t.encCur = s.encCur ∧ t.amiLast = s.amiLast ∧ t.scrPol = s.scrPol ∧
      t.scrPar = s.scrPar ∧ t.scrZc = s.scrZc) ∧
    (s.mode.scheme ≠ .nrzi → s.mode.scheme ≠ .dman → t.encCur = s.encCur ∧ t.decPrev = s.decPrev) ∧
    (s.mode.scheme ≠ .ami → t.amiLast = s.amiLast) ∧
    (s.mode.scr = .off → t.scrPol = s.scrPol ∧ t.scrZc = s.scrZc) ∧
    (s.mode.scr ≠ .hdb3 → t.scrPar = s.scrPar) ∧
    (s.mode.scheme ≠ .man → s.mode.scheme ≠ .dman → t.decHv = s.decHv ∧ t.decHd = s.decHd)

/-! ### Ports -/

/-- R39, and R171's codes: every bit of the STATUS image, each condition's flag at its code; writes to STATUS are ignored
and a read clears nothing. -/
def Obligations.StatusImageBits : Prop :=
  (∀ s : State,
    s.statusImage.getLsbD 0 = s.act ∧ s.statusImage.getLsbD 1 = s.inv ∧ s.statusImage.getLsbD 2 = s.trunc ∧
    s.statusImage.getLsbD 3 = s.empty ∧ s.statusImage.getLsbD 4 = s.ill ∧ s.statusImage.getLsbD 5 = s.proto ∧
    s.statusImage.getLsbD 6 = decide (0 < s.out.length) ∧ s.statusImage.getLsbD 7 = false ∧
    s.statusImage.extractLsb' 8 6 = s.mode.bits ∧ s.statusImage.extractLsb' 14 2 = 0) ∧
  (∀ (s : State) (c : Condition), s.statusImage.getLsbD c.code = s.flag c) ∧
  (∀ (s : State) (w : Word), writePort .status w s = .next s) ∧
  (∀ s : State, readPort .status s = { s with replies := s.replies ++ [⟨.status, s.statusImage⟩] })

/-- R53, R54: a STATUS read returns the image of the state, a CMD read 0x0000, both without side effect; writes to STATUS
and OUT change no state. -/
def Obligations.PlainReadsAndIgnoredWrites : Prop :=
  (∀ (s : State) (rest : List HostAccess), s.host = .read .status :: rest →
    step s = .next { s with host := rest, replies := s.replies ++ [⟨.status, s.statusImage⟩] }) ∧
  (∀ (s : State) (rest : List HostAccess), s.host = .read .cmd :: rest →
    step s = .next { s with host := rest, replies := s.replies ++ [⟨.cmd, 0x0000⟩] }) ∧
  (∀ (s : State) (w : Word) (rest : List HostAccess),
    (s.host = .write .status w :: rest ∨ s.host = .write .out w :: rest) → step s = .next { s with host := rest })

/-- R55, R40: an OUT read returns and removes the head, or returns 0x0000 and changes nothing; it touches no other field,
in every phase. The image it returns has VALID in bit 8, the head byte or 0x00 in bits 7:0, and zeros in bits 15:9. -/
def Obligations.OutReadPopsTheHead : Prop :=
  (∀ (s : State) (rest : List HostAccess) (x : Byte) (xs : List Byte), s.host = .read .out :: rest → s.out = x :: xs →
    step s = .next { s with
      host := rest, out := xs, replies := s.replies ++ [⟨.out, 0x0100 ||| x.zeroExtend 16⟩] }) ∧
  (∀ (s : State) (rest : List HostAccess), s.host = .read .out :: rest → s.out = [] →
    step s = .next { s with host := rest, replies := s.replies ++ [⟨.out, 0x0000⟩] }) ∧
  (∀ s : State,
    s.outImage.getLsbD 8 = decide (s.out ≠ []) ∧ s.outImage.extractLsb' 9 7 = 0 ∧
    (∀ (x : Byte) (xs : List Byte), s.out = x :: xs → s.outImage.extractLsb' 0 8 = x) ∧
    (s.out = [] → s.outImage.extractLsb' 0 8 = 0x00))

/-- R56: the register window's four places, read and written 16 bits at a time. -/
def Obligations.RegisterWindowPorts : Prop :=
  ∀ (s : State) (w : Word) (rest : List HostAccess),
    (s.host = .bus ⟨.write w, 16, Config.regBase⟩ :: rest → step s = executeWord w { s with host := rest }) ∧
    (s.host = .bus ⟨.read, 16, Config.regBase⟩ :: rest →
      step s = .next { s with host := rest, replies := s.replies ++ [⟨.cmd, 0x0000⟩] }) ∧
    (s.host = .bus ⟨.read, 16, Config.regBase + 2⟩ :: rest →
      step s = .next { s with host := rest, replies := s.replies ++ [⟨.status, s.statusImage⟩] }) ∧
    (s.host = .bus ⟨.read, 16, Config.regBase + 4⟩ :: rest →
      step s = .next { s with host := rest, out := s.out.tail, replies := s.replies ++ [⟨.out, s.outImage⟩] }) ∧
    (s.host = .bus ⟨.read, 16, Config.regBase + 6⟩ :: rest →
      step s = .next { s with host := rest, replies := s.replies ++ [⟨.reserved, 0x0000⟩] }) ∧
    (∀ k ∈ [2, 4, 6], s.host = .bus ⟨.write w, 16, Config.regBase + k⟩ :: rest →
      step s = .next { s with host := rest })

/-- R57: an access that touches the window is refused, by name, when it is a fetch, has another width than 16 bits, or
begins at an odd offset. Which accesses touch the window (any byte of theirs in it), the names and their order are the
model's choice (logs 4 and 6). -/
def Obligations.WindowRefusesOtherAccesses : Prop :=
  ∀ (s : State) (b : BusAccess) (rest : List HostAccess), s.host = .bus b :: rest → b.touchesWindow = true →
    (b.kind = .fetch → step s = .refused .windowFetch) ∧
    (b.kind ≠ .fetch → b.width ≠ 16 → step s = .refused .windowWidth) ∧
    (b.kind ≠ .fetch → b.width = 16 → b.addr % 2 ≠ Config.regBase % 2 → step s = .refused .windowOddOffset)

/-- R61, R101: after an END, reading OUT once more often than there are bytes queued returns them all in order, the last
read returning VALID = 0, and changes nothing else. -/
def Obligations.DrainReadsTheWholeQueue : Prop :=
  ∀ (s : State) (rest : List HostAccess),
    s.host = List.replicate (s.out.length + 1) (.read .out) ++ rest →
    ∃ rs, Host.Core.run core (s.out.length + 1) s = .next { s with host := rest, out := [], replies := s.replies ++ rs } ∧
      rs.length = s.out.length + 1 ∧ rs.filterMap Reply.outByte = s.out ∧ rs.getLast? = some ⟨.out, 0x0000⟩

/-! ### The whole machine -/

/-- R170, R202: every command, and every word written to CMD, completes with a next state, in every state. -/
def Obligations.EveryCommandCompletes : Prop :=
  (∀ (i : Instr) (s : State), ∃ t, exec i s = .next t) ∧ (∀ (w : Word) (s : State), ∃ t, executeWord w s = .next t)

/-- R57, R170: a step has a next state unless the host's next access touches the register window outside the contract.
That an access elsewhere on the bus completes (log 4), and that a host with no access left has a step (log 2), is the
model's choice. -/
def Obligations.StepStopsOnlyOutsideTheContract : Prop :=
  ∀ s : State, (∃ t, step s = .next t) ∨
    ∃ b rest r, s.host = .bus b :: rest ∧ b.touchesWindow = true ∧ b.inContract = false ∧ step s = .refused r

/-- R44 (with R25, R26, R29, R134 (e), R177): every step keeps the invariant. -/
def Obligations.InvariantKeptByEveryStep : Prop :=
  ∀ s t : State, Inv s → step s = .next t → Inv t

/-- R42, R44: the invariant holds after reset. -/
def Obligations.InvariantHoldsAtReset : Prop := Inv State.reset

/-- R45: a flag that is 1 becomes 0 only by reset or an accepted START. -/
def Obligations.FlagsClearedOnlyByStartOrReset : Prop :=
  ∀ (s t : State) (c : Condition), Inv s → step s = .next t → s.flag c = true → t.flag c = false →
    ∃ a rest, s.host = a :: rest ∧
      (a = .reset ∨ ∃ w m, a.commandWord = some w ∧ decode w = .ok (Mode.start m) ∧ s.act = false)

/-- R23: ACT is set only by an accepted START and cleared only by an END or by reset. -/
def Obligations.ActSetByStartClearedByEnd : Prop :=
  ∀ s t : State, step s = .next t → s.act ≠ t.act →
    ∃ a rest, s.host = a :: rest ∧
      ((s.act = false ∧ ∃ w m, a.commandWord = some w ∧ decode w = .ok (Mode.start m) ∧ t.mode = m) ∨
       (s.act = true ∧ (a = .reset ∨ ∃ w, a.commandWord = some w ∧ decode w = .ok .endFrame)))

/-- R30, R63: the mode changes only by an accepted START, which makes it its own, or by reset; so it is constant in an open
frame that is not reset. -/
def Obligations.ModeLatchedByStart : Prop :=
  ∀ s t : State, step s = .next t → t.mode ≠ s.mode →
    ∃ a rest, s.host = a :: rest ∧
      ((a = .reset ∧ t.mode = .encNrzl) ∨
       (s.act = false ∧ ∃ w m, a.commandWord = some w ∧ decode w = .ok (Mode.start m) ∧ t.mode = m))

/-- R177: one word sets at most one flag that was 0, and which: ILL for a word that spells no command, else PROTO for a
command out of phase, else INV for an invalid symbol of a frame not yet aborted, else TRUNC or EMPTY at END; and after an
END at most one of INV, TRUNC and EMPTY is 1. -/
def Obligations.OneWordRaisesAtMostOneCondition : Prop :=
  (∀ (w : Word) (s t : State) (c d : Condition), Inv s → executeWord w s = .next t →
    s.flag c = false → t.flag c = true → s.flag d = false → t.flag d = true → c = d) ∧
  (∀ (w : Word) (s t : State) (c : Condition), executeWord w s = .next t → s.flag c = false → t.flag c = true →
    (∃ e, decode w = .error e ∧ c = .illegalCommand) ∨
    (∃ i, decode w = .ok i ∧ allowedInPhase i s.act = false ∧ c = .protocolError) ∨
    (∃ x, decode w = .ok (.push x) ∧ s.act = true ∧ s.inv = false ∧ s.mode.dir = .enc ∧ bit x = none ∧
      c = .invalidSymbol) ∨
    (decode w = .ok .endFrame ∧ s.act = true ∧ (c = .truncatedSequence ∨ c = .emptyInput))) ∧
  (∀ s t : State, Inv s → s.act = true → exec .endFrame s = .next t →
    ¬ (t.inv = true ∧ t.trunc = true) ∧ ¬ (t.inv = true ∧ t.empty = true) ∧ ¬ (t.trunc = true ∧ t.empty = true))

/-- R31, R101: the bytes read and then queued only grow at the end, except that a reset drops those queued; only a command
makes them grow. -/
def Obligations.OutputIsFirstInFirstOut : Prop :=
  ∀ s t : State, step s = .next t →
    (∃ rest, s.host = .reset :: rest ∧ stream t = readBytes s) ∨
    (∃ ys, stream t = stream s ++ ys ∧
      (ys ≠ [] → ∃ a rest w, s.host = a :: rest ∧ a.commandWord = some w))

/-- R94, R197: one command emits at most eight bytes, END at most seven, START and NOP none. -/
def Obligations.EmissionBounds : Prop :=
  ∀ (i : Instr) (s t : State), exec i s = .next t →
    ∃ ys, t.out = s.out ++ ys ∧ ys.length ≤ 8 ∧ (i = .endFrame → ys.length ≤ 7) ∧
      (i = .nop → ys = []) ∧ (∀ m : Mode, i = m.start → ys = [])

/-- R43, R99, R44 (a): while idle the running state and ANY cannot be seen: two idle states that agree on all else take the
same steps, and the same START makes them equal. With no access left both stay as they are (log 2). -/
def Obligations.IdleRunningStateIsUnobservable : Prop :=
  ∀ s t s' : State, s.act = false → sameVisible s t → step s = .next s' →
    ∃ t', step t = .next t' ∧ sameVisible s' t' ∧ (s'.act = true → s' = t')

/-- R57, R194: an access that keeps the host's duties is never refused, and sets neither ILL nor PROTO. That a bus access
outside the window is harmless is the model's choice (log 4). -/
def Obligations.DutifulHostRaisesNoInterfaceCondition : Prop :=
  ∀ (s : State) (a : HostAccess) (rest : List HostAccess), s.host = a :: rest → dutiful s a = true →
    ∃ t, step s = .next t ∧ (t.ill = true → s.ill = true) ∧ (t.proto = true → s.proto = true)

/-! ### Frames against the source's functions -/

/-- R104: a frame opened while idle, with any words but END written in it, ends with the result the source's function of
its mode gives on its items; the bytes of the result are those it appended to the queue. -/
def Obligations.FrameResultIsTheSourceFunction : Prop :=
  ∀ (m : Mode) (body : List Word) (s : State), s.act = false → (∀ w ∈ body, decode w ≠ .ok .endFrame) →
    ∃ t bytes, runWords (frameWords m body) s = .next t ∧ t.act = false ∧ t.mode = m ∧ t.out = s.out ++ bytes ∧
      frameResult bytes t = sourceResult m (itemsOf body)

/-- R99 to R104: whatever the host interleaves (NOPs, illegal words, commands out of phase, reads, window accesses, resets),
every step keeps a reader's trace sound: the open frame stands where its items alone would take a fresh one, and every
ended frame's result is the source's function of its mode and items. -/
def Obligations.FrameTraceStaysSound : Prop :=
  ∀ (s t : State) (a : HostAccess) (rest : List HostAccess) (tr : FrameTrace),
    s.host = a :: rest → TraceInv s tr → step s = .next t → TraceInv t (tr.access a s t)

/-- R100, R101: a trace begun while no frame is open is sound. -/
def Obligations.FrameTraceSoundAtBeginning : Prop :=
  ∀ s : State, s.act = false → TraceInv s .begin

/-- R161: each scheme's decode undoes its encode, on the reference functions and on LCC: the bytes of an ENC frame of
symbols, pushed in a DEC frame, emit the symbols again with TRUNC = 0. -/
def Obligations.RoundTripOfEveryScheme : Prop :=
  (∀ (k : Scheme) (bits : List Bool), decodeRef k (encodeRef k bits) = bits) ∧
  (∀ (k : Scheme) (bits : List Bool) (s u : State), s.act = false → u.act = false →
    ∃ t bytes v, runWords (frameWords (encMode k) (pushes (bits.map sym))) s = .next t ∧ t.out = s.out ++ bytes ∧
      runWords (frameWords (decMode k) (pushes bytes)) u = .next v ∧ v.out = u.out ++ bits.map sym ∧ v.trunc = false)

/-- R119: the length of the source's encode, one or two levels a bit, and its levels: −1, 0 or +1, and 0 only for AMI. -/
def Obligations.EncodeLengthAndLevels : Prop :=
  ∀ (k : Scheme) (bits : List Bool),
    (encodeRef k bits).length = (if k = .man ∨ k = .dman then 2 * bits.length else bits.length) ∧
    encodeRef k [] = [] ∧
    ∀ v ∈ encodeRef k bits, (v = -1 ∨ v = 0 ∨ v = 1) ∧ (v = 0 → k = .ami)

/-- R162, R158: a DEC frame of n levels emits n symbols, or floor(n / 2) for MAN and DMAN with TRUNC exactly at an odd n,
and EMPTY exactly at n = 0; they are the source's decode of the levels. -/
def Obligations.DecodeFrameOutput : Prop :=
  ∀ (k : Scheme) (d : List Byte) (s : State), s.act = false →
    ∃ t bits, runWords (frameWords (decMode k) (pushes d)) s = .next t ∧ t.out = s.out ++ bits.map sym ∧
      bits = decodeRef k (d.map lv) ∧ bits.length = d.length / samplesPerBit k ∧ t.inv = false ∧
      (t.trunc = true ↔ d.length % samplesPerBit k ≠ 0) ∧ (t.empty = true ↔ d = [])

/-- R52, R60: the host's writes to CMD run as the words one after the other, each step taking one. -/
def Obligations.HostWritesRunInOrder : Prop :=
  ∀ (ws : List Word) (rest : List HostAccess) (s : State), s.host = ws.map (HostAccess.write .cmd) ++ rest →
    ∃ t, Host.Core.run core ws.length s = .next t ∧ runWords ws { s with host := rest } = .next t ∧ t.host = rest

/-- R197 (the depth is the spec's open parameter; how a command is held is the model's reading, logs 7 and 16): an
implementation with a queue of `depth` bytes never exceeds it, takes each access as the model does or holds it unchanged,
takes a command whose bytes fit and holds one whose bytes do not, never holds another access, and from an empty queue of
at least eight bytes holds nothing. -/
def Obligations.FiniteQueueHoldsAndNeverDrops : Prop :=
  (∀ (depth : Nat) (s t : State), s.out.length ≤ depth → stepBounded depth s = .next t →
    t.out.length ≤ depth ∧ (t = s ∨ step s = .next t)) ∧
  (∀ (depth : Nat) (s t : State) (a : HostAccess) (rest : List HostAccess) (w : Word),
    s.host = a :: rest → a.commandWord = some w → step s = .next t →
    (t.out.length ≤ depth → stepBounded depth s = .next t) ∧
    (depth < t.out.length → stepBounded depth s = .next s)) ∧
  (∀ (depth : Nat) (s : State) (a : HostAccess) (rest : List HostAccess), s.host = a :: rest → a.commandWord = none →
    stepBounded depth s = step s) ∧
  (∀ (depth : Nat) (s : State), 8 ≤ depth → s.out = [] → stepBounded depth s = step s)

/-! ### Assembler -/

/-- R86: PUSHBITS and PUSHLEVELS are one PUSH per character or level; ENCODE and DECODE are the START of their mode, those
PUSHes, and END. -/
def Obligations.PseudoInstructionsExpand : Prop :=
  (∀ cs : List Char, (∀ c ∈ cs, c.toNat < 256) →
    Asm.assemble (.pushBits cs) = some (cs.map (fun c => 0x2000 ||| BitVec.ofNat 16 c.toNat))) ∧
  (∀ vs : List Int, (∀ v ∈ vs, -128 ≤ v ∧ v ≤ 127) →
    Asm.assemble (.pushLevels vs) = some (vs.map (fun v => 0x2000 ||| (BitVec.ofInt 8 v).zeroExtend 16))) ∧
  (∀ (m : Mode) (cs : List Char), m.dir = .enc →
    Asm.assemble (.encode m.scheme m.scr cs) =
      (Asm.assemble (.pushBits cs)).map (fun ws => encode m.start :: (ws ++ [encode .endFrame]))) ∧
  (∀ (m : Mode) (vs : List Int), m.dir = .dec →
    Asm.assemble (.decode m.scheme vs) =
      (Asm.assemble (.pushLevels vs)).map (fun ws => encode m.start :: (ws ++ [encode .endFrame])))

/-- R85: the line of each command assembles to its word, whatever the case of its letters: NOP, END and the twelve STARTs;
PUSH with '0' or '1', with a hexadecimal byte, and with a signed decimal from -128 to 127, the sign of a number that is not
negative being optional; every command is one of these. `.word` gives the word it names, legal or not. That a hexadecimal number may have its x
and its digits in either letter case is the model's choice (DESIGN CHOICE, log 12): R85 says so of mnemonics and keywords. -/
def Obligations.EveryCommandHasAssemblerText : Prop :=
  (∀ e ∈ Asm.commandLines, ∀ cs, Asm.spells cs e.1.toList →
    Asm.assembleLine cs = some [e.2.1] ∧ decode e.2.1 = .ok e.2.2) ∧
  (∀ i : Instr, (∃ x, i = .push x) ∨ ∃ e ∈ Asm.commandLines, e.2.2 = i) ∧
  (∀ (x : Byte) (cs : List Char), Asm.spells cs ("PUSH 0X".toList ++ Asm.hexText 2 x.toNat) →
    Asm.assembleLine cs = some [0x2000 ||| x.zeroExtend 16]) ∧
  (∀ (n : Nat) (cs : List Char), n ≤ 127 →
    (Asm.spells cs ("PUSH ".toList ++ Nat.toDigits 10 n) ∨ Asm.spells cs ("PUSH +".toList ++ Nat.toDigits 10 n)) →
    Asm.assembleLine cs = some [0x2000 ||| BitVec.ofNat 16 n]) ∧
  (∀ (n : Nat) (cs : List Char), n ≤ 128 → Asm.spells cs ("PUSH -".toList ++ Nat.toDigits 10 n) →
    Asm.assembleLine cs = some [0x2000 ||| (BitVec.ofInt 8 (-(n : Int))).zeroExtend 16]) ∧
  (∀ (w : Word) (cs : List Char), Asm.spells cs (".WORD 0X".toList ++ Asm.hexText 4 w.toNat) →
    Asm.assembleLine cs = some [w])

/-- R85: each line of a text gives its own words, in order; a comment after a line that assembles leaves
its words, and after a line without literals leaves whatever the line gives; a PUSH of another character than '0' and '1',
of a decimal outside -128 to 127, or without an operand is an assembly error (the line end and the missing operand:
DESIGN CHOICE, log 12). -/
def Obligations.AssemblerLinesCommentsAndErrors : Prop :=
  (∀ cs : List Char, '\n' ∉ cs → Asm.assembleText cs = Asm.assembleLine cs ∧
    ∀ text : List Char, Asm.assembleText (cs ++ '\n' :: text) =
      (Asm.assembleLine cs).bind (fun ws => (Asm.assembleText text).map (ws ++ ·))) ∧
  (∀ (cs rest : List Char) (ws : List Word), Asm.assembleLine cs = some ws →
    Asm.assembleLine (cs ++ ';' :: rest) = some ws) ∧
  (∀ cs rest : List Char, '\'' ∉ cs → '"' ∉ cs → Asm.assembleLine (cs ++ ';' :: rest) = Asm.assembleLine cs) ∧
  (∀ c : Char, c ≠ '0' → c ≠ '1' → Asm.assembleLine ("PUSH '".toList ++ [c, '\'']) = none) ∧
  (∀ n : Nat, 127 < n →
    Asm.assembleLine ("PUSH ".toList ++ Nat.toDigits 10 n) = none ∧
    Asm.assembleLine ("PUSH +".toList ++ Nat.toDigits 10 n) = none) ∧
  (∀ n : Nat, 128 < n → Asm.assembleLine ("PUSH -".toList ++ Nat.toDigits 10 n) = none) ∧
  Asm.assembleLine "PUSH".toList = none
end

