-- ==== Sys2Proof/Laws/Assembler.lean ====
section
/-! SUPPORT. What the lexer of assembler text can do: the case of letters, comments, lines (R85). -/

namespace Sys2Proof.Asm

/-- A token with its literal characters in capital letters; names are in capital letters already. -/
def Token.upper : Token → Token
  | .chr c => .chr c.toUpper
  | .str cs => .str (cs.map Char.toUpper)
  | t => t

/-- A place of the lexer, what it has read so far in capital letters. -/
def LexMode.upper : LexMode → LexMode
  | .name acc => .name (acc.map Char.toUpper)
  | .chr1 c => .chr1 c.toUpper
  | .str acc => .str (acc.map Char.toUpper)
  | m => m

/-- `Char.toUpper` moves nothing onto a character that is no letter, and leaves it where it is. -/
theorem toUpper_eq_iff {c d : Char} (h : d.isAlpha = false) : c.toUpper = d ↔ c = d := by
  constructor
  · intro e
    by_cases hc : 'a'.val ≤ c.val ∧ c.val ≤ 'z'.val
    · exfalso
      subst e
      have h2 : c.toUpper.val = c.val + ('A'.val - 'a'.val) := by
        unfold Char.toUpper; rw [dif_pos hc]
      have : c.toUpper.isUpper = true := by
        simp only [Char.isUpper, h2, decide_eq_true_eq, ge_iff_le]
        simp only [UInt32.le_iff_toNat_le, UInt32.toNat_add] at hc ⊢
        have a1 : 'a'.val.toNat = 97 := rfl
        have a2 : 'z'.val.toNat = 122 := rfl
        have a5 : ('A'.val - 'a'.val).toNat = 4294967264 := rfl
        rw [a1, a2] at hc
        rw [a5]
        change 65 ≤ _ ∧ _ ≤ 90
        constructor <;> omega
      simp [Char.isAlpha, this] at h
    · unfold Char.toUpper at e; rwa [dif_neg hc] at e
  · rintro rfl
    have : ¬ ('a'.val ≤ c.val ∧ c.val ≤ 'z'.val) := by
      intro hc
      have : c.isLower = true := by simpa [Char.isLower] using hc
      simp [Char.isAlpha, this] at h
    unfold Char.toUpper; rw [dif_neg this]

theorem nameToken_upper (acc : List Char) : nameToken (acc.map Char.toUpper) = nameToken acc := by
  simp [nameToken, Function.comp_def, List.map_reverse]

theorem nameToken_isUpper (acc : List Char) : (nameToken acc).upper = nameToken acc := by
  unfold nameToken; simp only; split <;> rfl

/-- The characters that begin another token are no letters. -/
theorem toUpper_delimiters (c : Char) :
    (c.toUpper = ' ' ↔ c = ' ') ∧ (c.toUpper = '\t' ↔ c = '\t') ∧ (c.toUpper = '\r' ↔ c = '\r') ∧
    (c.toUpper = ';' ↔ c = ';') ∧ (c.toUpper = ',' ↔ c = ',') ∧ (c.toUpper = '[' ↔ c = '[') ∧
    (c.toUpper = ']' ↔ c = ']') ∧ (c.toUpper = '"' ↔ c = '"') ∧ (c.toUpper = '\'' ↔ c = '\'') := by
  refine ⟨?_, ?_, ?_, ?_, ?_, ?_, ?_, ?_, ?_⟩ <;> exact toUpper_eq_iff (by decide)

theorem isDelimiter_upper (c : Char) : isDelimiter c.toUpper = isDelimiter c := by
  simp only [isDelimiter, toUpper_delimiters]

theorem beginToken_upper (c : Char) :
    (beginToken c.toUpper).1 = (beginToken c).1.map Token.upper ∧ (beginToken c.toUpper).2 = (beginToken c).2.upper := by
  simp only [beginToken, toUpper_delimiters]
  repeat' split
  all_goals exact ⟨rfl, rfl⟩

/-- R85: lexing commutes with writing the text in capital letters. -/
theorem lex_upper (m : LexMode) (cs : List Char) :
    lex m.upper (cs.map Char.toUpper) = (lex m cs).map (List.map Token.upper) := by
  induction m, cs using lex.induct with
  | case1 => rfl
  | case2 acc => simp [lex, LexMode.upper, nameToken_upper, nameToken_isUpper]
  | case3 => rfl
  | case4 => rfl
  | case5 c => rfl
  | case6 acc => rfl
  | case7 c cs ih =>
    obtain ⟨h1, h2⟩ := beginToken_upper c
    have e : lex LexMode.gap.upper ((c :: cs).map Char.toUpper) =
        (lex (beginToken c.toUpper).2 (cs.map Char.toUpper)).map ((beginToken c.toUpper).1 ++ ·) := rfl
    rw [e, h1, h2, ih]
    simp only [lex, Option.map_map]
    congr 1; funext ts; simp
  | case8 acc c cs hd ih =>
    obtain ⟨h1, h2⟩ := beginToken_upper c
    have e : lex (LexMode.name acc).upper ((c :: cs).map Char.toUpper) =
        (lex (beginToken c.toUpper).2 (cs.map Char.toUpper)).map
          (nameToken (acc.map Char.toUpper) :: (beginToken c.toUpper).1 ++ ·) := by
      simp only [LexMode.upper, List.map_cons, lex, isDelimiter_upper, hd, if_true]
    rw [e, h1, h2, ih]
    simp only [lex, hd, if_true, Option.map_map, nameToken_upper]
    congr 1; funext ts; simp [nameToken_isUpper]
  | case9 acc c cs hd ih =>
    simp only [List.map_cons, LexMode.upper, lex, isDelimiter_upper, hd] 
    simpa [LexMode.upper] using ih
  | case10 c cs ih => simpa [lex, LexMode.upper] using ih
  | case11 d cs ih =>
    have : ('\'' : Char).toUpper = '\'' := by decide
    simp only [List.map_cons, LexMode.upper, lex, this, if_true] 
    simp only [LexMode.upper] at ih
    rw [ih]; cases lex .gap cs <;> rfl
  | case12 d c cs h =>
    have : ¬ c.toUpper = '\'' := by rwa [toUpper_eq_iff (by decide)]
    simp [lex, LexMode.upper, h, this]
  | case13 acc cs ih =>
    have : ('"' : Char).toUpper = '"' := by decide
    simp only [List.map_cons, LexMode.upper, lex, this, if_true]
    simp only [LexMode.upper] at ih
    rw [ih]; cases lex .gap cs <;> simp [Token.upper]
  | case14 acc c cs h ih =>
    have : ¬ c.toUpper = '"' := by rwa [toUpper_eq_iff (by decide)]
    simpa [lex, LexMode.upper, h, this] using ih
  | case15 c cs ih => simpa [lex, LexMode.upper] using ih

/-- R85: a comment after tokens adds none. -/
theorem lex_comment {m : LexMode} {cs : List Char} {ts : List Token} (rest : List Char) (h : lex m cs = some ts) :
    lex m (cs ++ ';' :: rest) = some ts := by
  have hc : ∀ r, lex .comment r = some [] := by
    intro r; induction r with
    | nil => rfl
    | cons _ _ ih => simpa [lex] using ih
  have hb : beginToken ';' = ([], .comment) := rfl
  have hdl : isDelimiter ';' = true := rfl
  induction m, cs using lex.induct generalizing ts with
  | case1 => simp only [lex] at h; simpa [lex, hb, hc] using h
  | case2 acc => simp only [lex] at h; simp [lex, hb, hc, hdl]; simpa using h
  | case3 => simp only [lex] at h; simp [hc]; simpa using h
  | case4 => simp [lex] at h
  | case5 c => simp [lex] at h
  | case6 acc => simp [lex] at h
  | case7 c cs ih =>
    simp only [lex, Option.map_eq_some_iff, List.cons_append] at h ⊢
    obtain ⟨u, hu, e⟩ := h
    exact ⟨u, ih hu, e⟩
  | case8 acc c cs hd ih =>
    simp only [lex, hd, if_true, Option.map_eq_some_iff, List.cons_append] at h ⊢
    obtain ⟨u, hu, e⟩ := h
    exact ⟨u, ih hu, e⟩
  | case9 acc c cs hd ih =>
    simp only [lex, hd, List.cons_append] at h ⊢
    exact ih h
  | case10 c cs ih => simp only [lex, List.cons_append] at h ⊢; exact ih h
  | case11 d cs ih =>
    simp only [lex, if_true, Option.map_eq_some_iff, List.cons_append] at h ⊢
    obtain ⟨u, hu, e⟩ := h
    exact ⟨u, ih hu, e⟩
  | case12 d c cs hh => simp [lex, hh] at h
  | case13 acc cs ih =>
    simp only [lex, if_true, Option.map_eq_some_iff, List.cons_append] at h ⊢
    obtain ⟨u, hu, e⟩ := h
    exact ⟨u, ih hu, e⟩
  | case14 acc c cs hh ih =>
    simp only [lex, hh, List.cons_append, if_false] at h ⊢; exact ih h
  | case15 c cs ih => simp only [lex, List.cons_append] at h ⊢; exact ih h

/-- R85: a line that spells a line has its tokens but for the case of their letters. -/
theorem lex_spells {cs line : List Char} {ts : List Token} (hs : spells cs line) (h : lex .gap line = some ts) :
    ∃ us, lex .gap cs = some us ∧ us.map Token.upper = ts := by
  have := lex_upper .gap cs
  rw [hs] at this
  simp only [LexMode.upper] at this
  rw [h] at this
  simpa [eq_comm] using this

theorem upper_key {t : Token} {k} : t.upper = .key k ↔ t = .key k := by cases t <;> simp [Token.upper]
theorem upper_lit {t : Token} {k} : t.upper = .lit k ↔ t = .lit k := by cases t <;> simp [Token.upper]

theorem upper_chr {t : Token} {c : Char} (h : c.isAlpha = false) : t.upper = .chr c ↔ t = .chr c := by
  cases t <;> simp [Token.upper, toUpper_eq_iff h]

/-- A token that a change of case leaves alone. -/
def rigid : Token → Bool
  | .key _ => true
  | .lit _ => true
  | .chr c => !c.isAlpha
  | .str _ => false
  | _ => true

theorem upper_rigid {t u : Token} (h : rigid u = true) : t.upper = u ↔ t = u := by
  cases u with
  | key k => exact upper_key
  | lit k => exact upper_lit
  | chr c => exact upper_chr (by simpa [rigid] using h)
  | str c => simp [rigid] at h
  | lbrack => cases t <;> simp [Token.upper]
  | rbrack => cases t <;> simp [Token.upper]
  | comma => cases t <;> simp [Token.upper]

/-- R85: a line that spells a line of such tokens assembles to the same words. -/
theorem assembleLine_spells {cs line : List Char} {ts : List Token} (hs : spells cs line)
    (h : lex .gap line = some ts) (hr : ts.all rigid = true) : assembleLine cs = assembleLine line := by
  obtain ⟨us, h1, h2⟩ := lex_spells hs h
  have : us = ts := by
    clear h h1
    induction us generalizing ts with
    | nil => simpa using h2
    | cons u us ih =>
      cases ts with
      | nil => simp at h2
      | cons t ts =>
        simp only [List.map_cons, List.cons.injEq] at h2
        simp only [List.all_cons, Bool.and_eq_true] at hr
        rw [(upper_rigid hr.1).1 h2.1, ih hr.2 h2.2]
  rw [assembleLine, assembleLine, h1, h, this]
/-- R85: a line without a line end is one line, and ends at the next line end. -/
theorem splitLines_line_end (acc cs : List Char) (h : '\n' ∉ cs) :
    splitLines acc cs = [acc.reverse ++ cs] ∧
    ∀ text, splitLines acc (cs ++ '\n' :: text) = (acc.reverse ++ cs) :: splitLines [] text := by
  induction cs generalizing acc with
  | nil => simp [splitLines]
  | cons c cs ih =>
    simp only [List.mem_cons, not_or] at h
    have hc : ¬ c = '\n' := fun e => h.1 e.symm
    obtain ⟨a, b⟩ := ih (c :: acc) h.2
    constructor
    · simp [splitLines, hc, a]
    · intro text; simp [splitLines, hc, b]

/-- A text without quotes always has tokens. -/
theorem lex_total {m : LexMode} {cs : List Char} (h1 : '\'' ∉ cs) (h2 : '"' ∉ cs)
    (hm : m = .gap ∨ m = .comment ∨ ∃ acc, m = .name acc) : ∃ ts, lex m cs = some ts := by
  have hb : ∀ c : Char, c ≠ '\'' → c ≠ '"' →
      ((beginToken c).2 = .gap ∨ (beginToken c).2 = .comment ∨ ∃ acc, (beginToken c).2 = .name acc) := by
    intro c a b
    simp only [beginToken, a, b, if_false]
    repeat' split
    all_goals simp
  induction m, cs using lex.induct with
  | case1 => exact ⟨_, rfl⟩
  | case2 acc => exact ⟨_, rfl⟩
  | case3 => exact ⟨_, rfl⟩
  | case4 => simp at hm
  | case5 c => simp at hm
  | case6 acc => simp at hm
  | case7 c cs ih =>
    simp only [List.mem_cons, not_or] at h1 h2
    obtain ⟨u, hu⟩ := ih h1.2 h2.2 (hb c (fun e => h1.1 e.symm) (fun e => h2.1 e.symm))
    exact ⟨_, by simp only [lex, hu]; rfl⟩
  | case8 acc c cs hd ih =>
    simp only [List.mem_cons, not_or] at h1 h2
    obtain ⟨u, hu⟩ := ih h1.2 h2.2 (hb c (fun e => h1.1 e.symm) (fun e => h2.1 e.symm))
    exact ⟨_, by simp only [lex, hd, hu]; rfl⟩
  | case9 acc c cs hd ih =>
    simp only [List.mem_cons, not_or] at h1 h2
    obtain ⟨u, hu⟩ := ih h1.2 h2.2 (.inr (.inr ⟨_, rfl⟩))
    exact ⟨_, by simp only [lex, hd]; exact hu⟩
  | case10 c cs ih => simp at hm
  | case11 d cs ih => simp at hm
  | case12 d c cs hh => simp at hm
  | case13 acc cs ih => simp at hm
  | case14 acc c cs hh ih => simp at hm
  | case15 c cs ih =>
    simp only [List.mem_cons, not_or] at h1 h2
    exact ih h1.2 h2.2 (.inr (.inl rfl))

end Sys2Proof.Asm
end

