-- ==== Sys2Proof/Laws/Decoding.lean ====
section
/-! SUPPORT. The small lemmas of the mode bits and the decoder. -/

namespace Sys2Proof

/-- R75: the bits of each mode are its row's. -/
theorem ofBits_bits (m : Mode) : Mode.ofBits m.bits = some m := by
  cases m <;> decide

/-- R75: only a mode's own bits give it. -/
theorem bits_of_ofBits {b : BitVec 6} {m : Mode} (h : Mode.ofBits b = some m) : m.bits = b := by
  revert b m
  have key : ∀ b : BitVec 6, (Mode.ofBits b).all (fun m => decide (m.bits = b)) = true := by decide
  intro b m h
  simpa [h] using key b

/-- R75: `Mode.ofBits` accepts exactly what the prose's checks accept. -/
theorem ofBits_isSome_eq_modeWf (b : BitVec 6) : (Mode.ofBits b).isSome = modeWf b := by
  revert b
  decide

/-- A mode is determined by its three parts. -/
theorem mode_ext {m n : Mode} (h1 : m.dir = n.dir) (h2 : m.scr = n.scr) (h3 : m.scheme = n.scheme) : m = n := by
  have e : m.bits = n.bits := by simp [Mode.bits, h1, h2, h3]
  exact Option.some.inj (by rw [← ofBits_bits m, ← ofBits_bits n, e])

/-- A scrambling mode is an AMI encode mode (R3, R75). -/
theorem scr_only_with_enc_ami {m : Mode} (h : m.scr ≠ .off) : m.dir = .enc ∧ m.scheme = .ami := by
  cases m <;> simp_all [Mode.scr, Mode.dir, Mode.scheme]

/-- The START commands are the commands that carry a mode. -/
theorem start_injective {m n : Mode} (h : m.start = n.start) : m = n := by
  cases m <;> cases n <;> simp_all [Mode.start]

/-- What a word that decodes can be (R80). -/
theorem decode_cases {w : Word} {i : Instr} (h : decode w = .ok i) :
    i = .nop ∨ (∃ m : Mode, i = m.start) ∨ (∃ x, i = .push x) ∨ i = .endFrame := by
  unfold decode at h
  split at h
  · split at h <;> simp_all
  split at h
  · split at h
    · split at h
      · rename_i m _
        exact .inr (.inl ⟨m, by simpa using h.symm⟩)
      · simp at h
    · simp at h
  split at h
  · split at h
    · exact .inr (.inr (.inl ⟨dataFieldOf w, by simpa using h.symm⟩))
    · simp at h
  split at h
  · split at h <;> simp_all
  · simp at h

end Sys2Proof
end

