-- ==== Sys2Proof/Laws/Operands.lean ====
section
/-! SUPPORT. The small lemmas of polarities, level bytes and symbol bytes. -/

namespace Sys2Proof

@[simp] theorem flip_flip (p : Polarity) : p.flip.flip = p := by cases p <;> rfl

@[simp] theorem toInt_flip (p : Polarity) : p.flip.toInt = -p.toInt := by cases p <;> rfl

theorem toInt_ne_zero (p : Polarity) : p.toInt ≠ 0 := by cases p <;> decide

theorem toInt_injective {p q : Polarity} (h : p.toInt = q.toInt) : p = q := by
  cases p <;> cases q <;> simp_all [Polarity.toInt]

@[simp] theorem code_zero : code 0 = 0x00 := by decide

theorem code_toInt (p : Polarity) : code p.toInt = p.byte := rfl

/-- R10's table of codes. -/
theorem byte_eq_pulseByte (p : Polarity) : p.byte = Machine.pulseByte p := by cases p <;> decide

/-- R10: `lv` is the two's-complement reading. -/
theorem lv_eq_toInt (x : Byte) : lv x = x.toInt := by
  have key : ∀ x : Byte, lv x = x.toInt := by decide
  exact key x

theorem lv_injective {x y : Byte} (h : lv x = lv y) : x = y := by
  rw [lv_eq_toInt, lv_eq_toInt] at h
  exact BitVec.eq_of_toInt_eq h

@[simp] theorem bit_sym (b : Bool) : bit (sym b) = some b := by cases b <;> decide

/-- R11: a byte with a bit is that bit's symbol. -/
theorem sym_of_bit {x : Byte} {b : Bool} (h : bit x = some b) : x = sym b := by
  unfold bit at h
  split at h
  · simp_all [sym]
  · split at h <;> simp_all [sym]

/-- R110, R111: the bytes without a bit. -/
theorem bit_eq_none {x : Byte} : bit x = none ↔ x ≠ Config.sym0 ∧ x ≠ Config.sym1 := by
  unfold bit
  split
  · simp_all
  · split <;> simp_all

end Sys2Proof
end

