-- ==== Sys2Proof/Laws/State.lean ====
section
/-! SUPPORT. What each named update does to each field of the state: one lemma per field per update, true by rfl. -/

namespace Sys2Proof.Machine

@[simp] theorem emitAll_act (xs : List Byte) (s : State) : (emitAll xs s).act = s.act := rfl
@[simp] theorem emitAll_inv (xs : List Byte) (s : State) : (emitAll xs s).inv = s.inv := rfl
@[simp] theorem emitAll_trunc (xs : List Byte) (s : State) : (emitAll xs s).trunc = s.trunc := rfl
@[simp] theorem emitAll_empty (xs : List Byte) (s : State) : (emitAll xs s).empty = s.empty := rfl
@[simp] theorem emitAll_ill (xs : List Byte) (s : State) : (emitAll xs s).ill = s.ill := rfl
@[simp] theorem emitAll_proto (xs : List Byte) (s : State) : (emitAll xs s).proto = s.proto := rfl
@[simp] theorem emitAll_any (xs : List Byte) (s : State) : (emitAll xs s).any = s.any := rfl
@[simp] theorem emitAll_mode (xs : List Byte) (s : State) : (emitAll xs s).mode = s.mode := rfl
@[simp] theorem emitAll_out (xs : List Byte) (s : State) : (emitAll xs s).out = s.out ++ xs := rfl
@[simp] theorem emitAll_encCur (xs : List Byte) (s : State) : (emitAll xs s).encCur = s.encCur := rfl
@[simp] theorem emitAll_amiLast (xs : List Byte) (s : State) : (emitAll xs s).amiLast = s.amiLast := rfl
@[simp] theorem emitAll_scrPol (xs : List Byte) (s : State) : (emitAll xs s).scrPol = s.scrPol := rfl
@[simp] theorem emitAll_scrPar (xs : List Byte) (s : State) : (emitAll xs s).scrPar = s.scrPar := rfl
@[simp] theorem emitAll_scrZc (xs : List Byte) (s : State) : (emitAll xs s).scrZc = s.scrZc := rfl
@[simp] theorem emitAll_decPrev (xs : List Byte) (s : State) : (emitAll xs s).decPrev = s.decPrev := rfl
@[simp] theorem emitAll_decHv (xs : List Byte) (s : State) : (emitAll xs s).decHv = s.decHv := rfl
@[simp] theorem emitAll_decHd (xs : List Byte) (s : State) : (emitAll xs s).decHd = s.decHd := rfl
@[simp] theorem emitAll_host (xs : List Byte) (s : State) : (emitAll xs s).host = s.host := rfl
@[simp] theorem emitAll_replies (xs : List Byte) (s : State) : (emitAll xs s).replies = s.replies := rfl

@[simp] theorem emit_act (x : Byte) (s : State) : (emit x s).act = s.act := rfl
@[simp] theorem emit_inv (x : Byte) (s : State) : (emit x s).inv = s.inv := rfl
@[simp] theorem emit_trunc (x : Byte) (s : State) : (emit x s).trunc = s.trunc := rfl
@[simp] theorem emit_empty (x : Byte) (s : State) : (emit x s).empty = s.empty := rfl
@[simp] theorem emit_ill (x : Byte) (s : State) : (emit x s).ill = s.ill := rfl
@[simp] theorem emit_proto (x : Byte) (s : State) : (emit x s).proto = s.proto := rfl
@[simp] theorem emit_any (x : Byte) (s : State) : (emit x s).any = s.any := rfl
@[simp] theorem emit_mode (x : Byte) (s : State) : (emit x s).mode = s.mode := rfl
@[simp] theorem emit_out (x : Byte) (s : State) : (emit x s).out = s.out ++ [x] := rfl
@[simp] theorem emit_encCur (x : Byte) (s : State) : (emit x s).encCur = s.encCur := rfl
@[simp] theorem emit_amiLast (x : Byte) (s : State) : (emit x s).amiLast = s.amiLast := rfl
@[simp] theorem emit_scrPol (x : Byte) (s : State) : (emit x s).scrPol = s.scrPol := rfl
@[simp] theorem emit_scrPar (x : Byte) (s : State) : (emit x s).scrPar = s.scrPar := rfl
@[simp] theorem emit_scrZc (x : Byte) (s : State) : (emit x s).scrZc = s.scrZc := rfl
@[simp] theorem emit_decPrev (x : Byte) (s : State) : (emit x s).decPrev = s.decPrev := rfl
@[simp] theorem emit_decHv (x : Byte) (s : State) : (emit x s).decHv = s.decHv := rfl
@[simp] theorem emit_decHd (x : Byte) (s : State) : (emit x s).decHd = s.decHd := rfl
@[simp] theorem emit_host (x : Byte) (s : State) : (emit x s).host = s.host := rfl
@[simp] theorem emit_replies (x : Byte) (s : State) : (emit x s).replies = s.replies := rfl

@[simp] theorem emitZeros_act (n : Nat) (s : State) : (emitZeros n s).act = s.act := rfl
@[simp] theorem emitZeros_inv (n : Nat) (s : State) : (emitZeros n s).inv = s.inv := rfl
@[simp] theorem emitZeros_trunc (n : Nat) (s : State) : (emitZeros n s).trunc = s.trunc := rfl
@[simp] theorem emitZeros_empty (n : Nat) (s : State) : (emitZeros n s).empty = s.empty := rfl
@[simp] theorem emitZeros_ill (n : Nat) (s : State) : (emitZeros n s).ill = s.ill := rfl
@[simp] theorem emitZeros_proto (n : Nat) (s : State) : (emitZeros n s).proto = s.proto := rfl
@[simp] theorem emitZeros_any (n : Nat) (s : State) : (emitZeros n s).any = s.any := rfl
@[simp] theorem emitZeros_mode (n : Nat) (s : State) : (emitZeros n s).mode = s.mode := rfl
@[simp] theorem emitZeros_out (n : Nat) (s : State) : (emitZeros n s).out = s.out ++ List.replicate n 0x00 := rfl
@[simp] theorem emitZeros_encCur (n : Nat) (s : State) : (emitZeros n s).encCur = s.encCur := rfl
@[simp] theorem emitZeros_amiLast (n : Nat) (s : State) : (emitZeros n s).amiLast = s.amiLast := rfl
@[simp] theorem emitZeros_scrPol (n : Nat) (s : State) : (emitZeros n s).scrPol = s.scrPol := rfl
@[simp] theorem emitZeros_scrPar (n : Nat) (s : State) : (emitZeros n s).scrPar = s.scrPar := rfl
@[simp] theorem emitZeros_scrZc (n : Nat) (s : State) : (emitZeros n s).scrZc = s.scrZc := rfl
@[simp] theorem emitZeros_decPrev (n : Nat) (s : State) : (emitZeros n s).decPrev = s.decPrev := rfl
@[simp] theorem emitZeros_decHv (n : Nat) (s : State) : (emitZeros n s).decHv = s.decHv := rfl
@[simp] theorem emitZeros_decHd (n : Nat) (s : State) : (emitZeros n s).decHd = s.decHd := rfl
@[simp] theorem emitZeros_host (n : Nat) (s : State) : (emitZeros n s).host = s.host := rfl
@[simp] theorem emitZeros_replies (n : Nat) (s : State) : (emitZeros n s).replies = s.replies := rfl

@[simp] theorem illegal_act (s : State) : (illegal s).act = s.act := rfl
@[simp] theorem illegal_inv (s : State) : (illegal s).inv = s.inv := rfl
@[simp] theorem illegal_trunc (s : State) : (illegal s).trunc = s.trunc := rfl
@[simp] theorem illegal_empty (s : State) : (illegal s).empty = s.empty := rfl
@[simp] theorem illegal_ill (s : State) : (illegal s).ill = true := rfl
@[simp] theorem illegal_proto (s : State) : (illegal s).proto = s.proto := rfl
@[simp] theorem illegal_any (s : State) : (illegal s).any = s.any := rfl
@[simp] theorem illegal_mode (s : State) : (illegal s).mode = s.mode := rfl
@[simp] theorem illegal_out (s : State) : (illegal s).out = s.out := rfl
@[simp] theorem illegal_encCur (s : State) : (illegal s).encCur = s.encCur := rfl
@[simp] theorem illegal_amiLast (s : State) : (illegal s).amiLast = s.amiLast := rfl
@[simp] theorem illegal_scrPol (s : State) : (illegal s).scrPol = s.scrPol := rfl
@[simp] theorem illegal_scrPar (s : State) : (illegal s).scrPar = s.scrPar := rfl
@[simp] theorem illegal_scrZc (s : State) : (illegal s).scrZc = s.scrZc := rfl
@[simp] theorem illegal_decPrev (s : State) : (illegal s).decPrev = s.decPrev := rfl
@[simp] theorem illegal_decHv (s : State) : (illegal s).decHv = s.decHv := rfl
@[simp] theorem illegal_decHd (s : State) : (illegal s).decHd = s.decHd := rfl
@[simp] theorem illegal_host (s : State) : (illegal s).host = s.host := rfl
@[simp] theorem illegal_replies (s : State) : (illegal s).replies = s.replies := rfl

@[simp] theorem protocolError_act (s : State) : (protocolError s).act = s.act := rfl
@[simp] theorem protocolError_inv (s : State) : (protocolError s).inv = s.inv := rfl
@[simp] theorem protocolError_trunc (s : State) : (protocolError s).trunc = s.trunc := rfl
@[simp] theorem protocolError_empty (s : State) : (protocolError s).empty = s.empty := rfl
@[simp] theorem protocolError_ill (s : State) : (protocolError s).ill = s.ill := rfl
@[simp] theorem protocolError_proto (s : State) : (protocolError s).proto = true := rfl
@[simp] theorem protocolError_any (s : State) : (protocolError s).any = s.any := rfl
@[simp] theorem protocolError_mode (s : State) : (protocolError s).mode = s.mode := rfl
@[simp] theorem protocolError_out (s : State) : (protocolError s).out = s.out := rfl
@[simp] theorem protocolError_encCur (s : State) : (protocolError s).encCur = s.encCur := rfl
@[simp] theorem protocolError_amiLast (s : State) : (protocolError s).amiLast = s.amiLast := rfl
@[simp] theorem protocolError_scrPol (s : State) : (protocolError s).scrPol = s.scrPol := rfl
@[simp] theorem protocolError_scrPar (s : State) : (protocolError s).scrPar = s.scrPar := rfl
@[simp] theorem protocolError_scrZc (s : State) : (protocolError s).scrZc = s.scrZc := rfl
@[simp] theorem protocolError_decPrev (s : State) : (protocolError s).decPrev = s.decPrev := rfl
@[simp] theorem protocolError_decHv (s : State) : (protocolError s).decHv = s.decHv := rfl
@[simp] theorem protocolError_decHd (s : State) : (protocolError s).decHd = s.decHd := rfl
@[simp] theorem protocolError_host (s : State) : (protocolError s).host = s.host := rfl
@[simp] theorem protocolError_replies (s : State) : (protocolError s).replies = s.replies := rfl

@[simp] theorem setInv_act (s : State) : (setFlag .invalidSymbol s).act = s.act := rfl
@[simp] theorem setInv_inv (s : State) : (setFlag .invalidSymbol s).inv = true := rfl
@[simp] theorem setInv_trunc (s : State) : (setFlag .invalidSymbol s).trunc = s.trunc := rfl
@[simp] theorem setInv_empty (s : State) : (setFlag .invalidSymbol s).empty = s.empty := rfl
@[simp] theorem setInv_ill (s : State) : (setFlag .invalidSymbol s).ill = s.ill := rfl
@[simp] theorem setInv_proto (s : State) : (setFlag .invalidSymbol s).proto = s.proto := rfl
@[simp] theorem setInv_any (s : State) : (setFlag .invalidSymbol s).any = s.any := rfl
@[simp] theorem setInv_mode (s : State) : (setFlag .invalidSymbol s).mode = s.mode := rfl
@[simp] theorem setInv_out (s : State) : (setFlag .invalidSymbol s).out = s.out := rfl
@[simp] theorem setInv_encCur (s : State) : (setFlag .invalidSymbol s).encCur = s.encCur := rfl
@[simp] theorem setInv_amiLast (s : State) : (setFlag .invalidSymbol s).amiLast = s.amiLast := rfl
@[simp] theorem setInv_scrPol (s : State) : (setFlag .invalidSymbol s).scrPol = s.scrPol := rfl
@[simp] theorem setInv_scrPar (s : State) : (setFlag .invalidSymbol s).scrPar = s.scrPar := rfl
@[simp] theorem setInv_scrZc (s : State) : (setFlag .invalidSymbol s).scrZc = s.scrZc := rfl
@[simp] theorem setInv_decPrev (s : State) : (setFlag .invalidSymbol s).decPrev = s.decPrev := rfl
@[simp] theorem setInv_decHv (s : State) : (setFlag .invalidSymbol s).decHv = s.decHv := rfl
@[simp] theorem setInv_decHd (s : State) : (setFlag .invalidSymbol s).decHd = s.decHd := rfl
@[simp] theorem setInv_host (s : State) : (setFlag .invalidSymbol s).host = s.host := rfl
@[simp] theorem setInv_replies (s : State) : (setFlag .invalidSymbol s).replies = s.replies := rfl

@[simp] theorem dropUnpaired_act (s : State) : (dropUnpaired s).act = s.act := rfl
@[simp] theorem dropUnpaired_inv (s : State) : (dropUnpaired s).inv = s.inv := rfl
@[simp] theorem dropUnpaired_trunc (s : State) : (dropUnpaired s).trunc = true := rfl
@[simp] theorem dropUnpaired_empty (s : State) : (dropUnpaired s).empty = s.empty := rfl
@[simp] theorem dropUnpaired_ill (s : State) : (dropUnpaired s).ill = s.ill := rfl
@[simp] theorem dropUnpaired_proto (s : State) : (dropUnpaired s).proto = s.proto := rfl
@[simp] theorem dropUnpaired_any (s : State) : (dropUnpaired s).any = s.any := rfl
@[simp] theorem dropUnpaired_mode (s : State) : (dropUnpaired s).mode = s.mode := rfl
@[simp] theorem dropUnpaired_out (s : State) : (dropUnpaired s).out = s.out := rfl
@[simp] theorem dropUnpaired_encCur (s : State) : (dropUnpaired s).encCur = s.encCur := rfl
@[simp] theorem dropUnpaired_amiLast (s : State) : (dropUnpaired s).amiLast = s.amiLast := rfl
@[simp] theorem dropUnpaired_scrPol (s : State) : (dropUnpaired s).scrPol = s.scrPol := rfl
@[simp] theorem dropUnpaired_scrPar (s : State) : (dropUnpaired s).scrPar = s.scrPar := rfl
@[simp] theorem dropUnpaired_scrZc (s : State) : (dropUnpaired s).scrZc = s.scrZc := rfl
@[simp] theorem dropUnpaired_decPrev (s : State) : (dropUnpaired s).decPrev = s.decPrev := rfl
@[simp] theorem dropUnpaired_decHv (s : State) : (dropUnpaired s).decHv = false := rfl
@[simp] theorem dropUnpaired_decHd (s : State) : (dropUnpaired s).decHd = s.decHd := rfl
@[simp] theorem dropUnpaired_host (s : State) : (dropUnpaired s).host = s.host := rfl
@[simp] theorem dropUnpaired_replies (s : State) : (dropUnpaired s).replies = s.replies := rfl

@[simp] theorem flushZeros_act (s : State) : (flushZeros s).act = s.act := rfl
@[simp] theorem flushZeros_inv (s : State) : (flushZeros s).inv = s.inv := rfl
@[simp] theorem flushZeros_trunc (s : State) : (flushZeros s).trunc = s.trunc := rfl
@[simp] theorem flushZeros_empty (s : State) : (flushZeros s).empty = s.empty := rfl
@[simp] theorem flushZeros_ill (s : State) : (flushZeros s).ill = s.ill := rfl
@[simp] theorem flushZeros_proto (s : State) : (flushZeros s).proto = s.proto := rfl
@[simp] theorem flushZeros_any (s : State) : (flushZeros s).any = s.any := rfl
@[simp] theorem flushZeros_mode (s : State) : (flushZeros s).mode = s.mode := rfl
@[simp] theorem flushZeros_out (s : State) : (flushZeros s).out = s.out ++ List.replicate s.scrZc.val 0x00 := rfl
@[simp] theorem flushZeros_encCur (s : State) : (flushZeros s).encCur = s.encCur := rfl
@[simp] theorem flushZeros_amiLast (s : State) : (flushZeros s).amiLast = s.amiLast := rfl
@[simp] theorem flushZeros_scrPol (s : State) : (flushZeros s).scrPol = s.scrPol := rfl
@[simp] theorem flushZeros_scrPar (s : State) : (flushZeros s).scrPar = s.scrPar := rfl
@[simp] theorem flushZeros_scrZc (s : State) : (flushZeros s).scrZc = 0 := rfl
@[simp] theorem flushZeros_decPrev (s : State) : (flushZeros s).decPrev = s.decPrev := rfl
@[simp] theorem flushZeros_decHv (s : State) : (flushZeros s).decHv = s.decHv := rfl
@[simp] theorem flushZeros_decHd (s : State) : (flushZeros s).decHd = s.decHd := rfl
@[simp] theorem flushZeros_host (s : State) : (flushZeros s).host = s.host := rfl
@[simp] theorem flushZeros_replies (s : State) : (flushZeros s).replies = s.replies := rfl

@[simp] theorem clearFlags_act (s : State) : (clearFlags s).act = s.act := rfl
@[simp] theorem clearFlags_inv (s : State) : (clearFlags s).inv = false := rfl
@[simp] theorem clearFlags_trunc (s : State) : (clearFlags s).trunc = false := rfl
@[simp] theorem clearFlags_empty (s : State) : (clearFlags s).empty = false := rfl
@[simp] theorem clearFlags_ill (s : State) : (clearFlags s).ill = false := rfl
@[simp] theorem clearFlags_proto (s : State) : (clearFlags s).proto = false := rfl
@[simp] theorem clearFlags_any (s : State) : (clearFlags s).any = false := rfl
@[simp] theorem clearFlags_mode (s : State) : (clearFlags s).mode = s.mode := rfl
@[simp] theorem clearFlags_out (s : State) : (clearFlags s).out = s.out := rfl
@[simp] theorem clearFlags_encCur (s : State) : (clearFlags s).encCur = s.encCur := rfl
@[simp] theorem clearFlags_amiLast (s : State) : (clearFlags s).amiLast = s.amiLast := rfl
@[simp] theorem clearFlags_scrPol (s : State) : (clearFlags s).scrPol = s.scrPol := rfl
@[simp] theorem clearFlags_scrPar (s : State) : (clearFlags s).scrPar = s.scrPar := rfl
@[simp] theorem clearFlags_scrZc (s : State) : (clearFlags s).scrZc = s.scrZc := rfl
@[simp] theorem clearFlags_decPrev (s : State) : (clearFlags s).decPrev = s.decPrev := rfl
@[simp] theorem clearFlags_decHv (s : State) : (clearFlags s).decHv = s.decHv := rfl
@[simp] theorem clearFlags_decHd (s : State) : (clearFlags s).decHd = s.decHd := rfl
@[simp] theorem clearFlags_host (s : State) : (clearFlags s).host = s.host := rfl
@[simp] theorem clearFlags_replies (s : State) : (clearFlags s).replies = s.replies := rfl

@[simp] theorem loadSeeds_act (m : Mode) (s : State) : (loadSeeds m s).act = s.act := rfl
@[simp] theorem loadSeeds_inv (m : Mode) (s : State) : (loadSeeds m s).inv = s.inv := rfl
@[simp] theorem loadSeeds_trunc (m : Mode) (s : State) : (loadSeeds m s).trunc = s.trunc := rfl
@[simp] theorem loadSeeds_empty (m : Mode) (s : State) : (loadSeeds m s).empty = s.empty := rfl
@[simp] theorem loadSeeds_ill (m : Mode) (s : State) : (loadSeeds m s).ill = s.ill := rfl
@[simp] theorem loadSeeds_proto (m : Mode) (s : State) : (loadSeeds m s).proto = s.proto := rfl
@[simp] theorem loadSeeds_any (m : Mode) (s : State) : (loadSeeds m s).any = s.any := rfl
@[simp] theorem loadSeeds_mode (m : Mode) (s : State) : (loadSeeds m s).mode = s.mode := rfl
@[simp] theorem loadSeeds_out (m : Mode) (s : State) : (loadSeeds m s).out = s.out := rfl
@[simp] theorem loadSeeds_encCur (m : Mode) (s : State) : (loadSeeds m s).encCur = lineSeed m := rfl
@[simp] theorem loadSeeds_amiLast (m : Mode) (s : State) : (loadSeeds m s).amiLast = .pos := rfl
@[simp] theorem loadSeeds_scrPol (m : Mode) (s : State) : (loadSeeds m s).scrPol = .pos := rfl
@[simp] theorem loadSeeds_scrPar (m : Mode) (s : State) : (loadSeeds m s).scrPar = false := rfl
@[simp] theorem loadSeeds_scrZc (m : Mode) (s : State) : (loadSeeds m s).scrZc = 0 := rfl
@[simp] theorem loadSeeds_decPrev (m : Mode) (s : State) : (loadSeeds m s).decPrev = (lineSeed m).byte := rfl
@[simp] theorem loadSeeds_decHv (m : Mode) (s : State) : (loadSeeds m s).decHv = false := rfl
@[simp] theorem loadSeeds_decHd (m : Mode) (s : State) : (loadSeeds m s).decHd = 0x00 := rfl
@[simp] theorem loadSeeds_host (m : Mode) (s : State) : (loadSeeds m s).host = s.host := rfl
@[simp] theorem loadSeeds_replies (m : Mode) (s : State) : (loadSeeds m s).replies = s.replies := rfl

@[simp] theorem start_act (m : Mode) (s : State) : (start m s).act = true := rfl
@[simp] theorem start_inv (m : Mode) (s : State) : (start m s).inv = false := rfl
@[simp] theorem start_trunc (m : Mode) (s : State) : (start m s).trunc = false := rfl
@[simp] theorem start_empty (m : Mode) (s : State) : (start m s).empty = false := rfl
@[simp] theorem start_ill (m : Mode) (s : State) : (start m s).ill = false := rfl
@[simp] theorem start_proto (m : Mode) (s : State) : (start m s).proto = false := rfl
@[simp] theorem start_any (m : Mode) (s : State) : (start m s).any = false := rfl
@[simp] theorem start_mode (m : Mode) (s : State) : (start m s).mode = m := rfl
@[simp] theorem start_out (m : Mode) (s : State) : (start m s).out = s.out := rfl
@[simp] theorem start_encCur (m : Mode) (s : State) : (start m s).encCur = lineSeed m := rfl
@[simp] theorem start_amiLast (m : Mode) (s : State) : (start m s).amiLast = .pos := rfl
@[simp] theorem start_scrPol (m : Mode) (s : State) : (start m s).scrPol = .pos := rfl
@[simp] theorem start_scrPar (m : Mode) (s : State) : (start m s).scrPar = false := rfl
@[simp] theorem start_scrZc (m : Mode) (s : State) : (start m s).scrZc = 0 := rfl
@[simp] theorem start_decPrev (m : Mode) (s : State) : (start m s).decPrev = (lineSeed m).byte := rfl
@[simp] theorem start_decHv (m : Mode) (s : State) : (start m s).decHv = false := rfl
@[simp] theorem start_decHd (m : Mode) (s : State) : (start m s).decHd = 0x00 := rfl
@[simp] theorem start_host (m : Mode) (s : State) : (start m s).host = s.host := rfl
@[simp] theorem start_replies (m : Mode) (s : State) : (start m s).replies = s.replies := rfl

@[simp] theorem popOut_act (s : State) : (popOut s).act = s.act := rfl
@[simp] theorem popOut_inv (s : State) : (popOut s).inv = s.inv := rfl
@[simp] theorem popOut_trunc (s : State) : (popOut s).trunc = s.trunc := rfl
@[simp] theorem popOut_empty (s : State) : (popOut s).empty = s.empty := rfl
@[simp] theorem popOut_ill (s : State) : (popOut s).ill = s.ill := rfl
@[simp] theorem popOut_proto (s : State) : (popOut s).proto = s.proto := rfl
@[simp] theorem popOut_any (s : State) : (popOut s).any = s.any := rfl
@[simp] theorem popOut_mode (s : State) : (popOut s).mode = s.mode := rfl
@[simp] theorem popOut_out (s : State) : (popOut s).out = s.out.tail := rfl
@[simp] theorem popOut_encCur (s : State) : (popOut s).encCur = s.encCur := rfl
@[simp] theorem popOut_amiLast (s : State) : (popOut s).amiLast = s.amiLast := rfl
@[simp] theorem popOut_scrPol (s : State) : (popOut s).scrPol = s.scrPol := rfl
@[simp] theorem popOut_scrPar (s : State) : (popOut s).scrPar = s.scrPar := rfl
@[simp] theorem popOut_scrZc (s : State) : (popOut s).scrZc = s.scrZc := rfl
@[simp] theorem popOut_decPrev (s : State) : (popOut s).decPrev = s.decPrev := rfl
@[simp] theorem popOut_decHv (s : State) : (popOut s).decHv = s.decHv := rfl
@[simp] theorem popOut_decHd (s : State) : (popOut s).decHd = s.decHd := rfl
@[simp] theorem popOut_host (s : State) : (popOut s).host = s.host := rfl
@[simp] theorem popOut_replies (s : State) : (popOut s).replies = s.replies := rfl

@[simp] theorem reply_act (p : Port) (v : Word) (s : State) : (reply p v s).act = s.act := rfl
@[simp] theorem reply_inv (p : Port) (v : Word) (s : State) : (reply p v s).inv = s.inv := rfl
@[simp] theorem reply_trunc (p : Port) (v : Word) (s : State) : (reply p v s).trunc = s.trunc := rfl
@[simp] theorem reply_empty (p : Port) (v : Word) (s : State) : (reply p v s).empty = s.empty := rfl
@[simp] theorem reply_ill (p : Port) (v : Word) (s : State) : (reply p v s).ill = s.ill := rfl
@[simp] theorem reply_proto (p : Port) (v : Word) (s : State) : (reply p v s).proto = s.proto := rfl
@[simp] theorem reply_any (p : Port) (v : Word) (s : State) : (reply p v s).any = s.any := rfl
@[simp] theorem reply_mode (p : Port) (v : Word) (s : State) : (reply p v s).mode = s.mode := rfl
@[simp] theorem reply_out (p : Port) (v : Word) (s : State) : (reply p v s).out = s.out := rfl
@[simp] theorem reply_encCur (p : Port) (v : Word) (s : State) : (reply p v s).encCur = s.encCur := rfl
@[simp] theorem reply_amiLast (p : Port) (v : Word) (s : State) : (reply p v s).amiLast = s.amiLast := rfl
@[simp] theorem reply_scrPol (p : Port) (v : Word) (s : State) : (reply p v s).scrPol = s.scrPol := rfl
@[simp] theorem reply_scrPar (p : Port) (v : Word) (s : State) : (reply p v s).scrPar = s.scrPar := rfl
@[simp] theorem reply_scrZc (p : Port) (v : Word) (s : State) : (reply p v s).scrZc = s.scrZc := rfl
@[simp] theorem reply_decPrev (p : Port) (v : Word) (s : State) : (reply p v s).decPrev = s.decPrev := rfl
@[simp] theorem reply_decHv (p : Port) (v : Word) (s : State) : (reply p v s).decHv = s.decHv := rfl
@[simp] theorem reply_decHd (p : Port) (v : Word) (s : State) : (reply p v s).decHd = s.decHd := rfl
@[simp] theorem reply_host (p : Port) (v : Word) (s : State) : (reply p v s).host = s.host := rfl
@[simp] theorem reply_replies (p : Port) (v : Word) (s : State) : (reply p v s).replies = s.replies ++ [⟨p, v⟩] := rfl

@[simp] theorem resetLcc_act (s : State) : (resetLcc s).act = State.reset.act := rfl
@[simp] theorem resetLcc_inv (s : State) : (resetLcc s).inv = State.reset.inv := rfl
@[simp] theorem resetLcc_trunc (s : State) : (resetLcc s).trunc = State.reset.trunc := rfl
@[simp] theorem resetLcc_empty (s : State) : (resetLcc s).empty = State.reset.empty := rfl
@[simp] theorem resetLcc_ill (s : State) : (resetLcc s).ill = State.reset.ill := rfl
@[simp] theorem resetLcc_proto (s : State) : (resetLcc s).proto = State.reset.proto := rfl
@[simp] theorem resetLcc_any (s : State) : (resetLcc s).any = State.reset.any := rfl
@[simp] theorem resetLcc_mode (s : State) : (resetLcc s).mode = State.reset.mode := rfl
@[simp] theorem resetLcc_out (s : State) : (resetLcc s).out = State.reset.out := rfl
@[simp] theorem resetLcc_encCur (s : State) : (resetLcc s).encCur = State.reset.encCur := rfl
@[simp] theorem resetLcc_amiLast (s : State) : (resetLcc s).amiLast = State.reset.amiLast := rfl
@[simp] theorem resetLcc_scrPol (s : State) : (resetLcc s).scrPol = State.reset.scrPol := rfl
@[simp] theorem resetLcc_scrPar (s : State) : (resetLcc s).scrPar = State.reset.scrPar := rfl
@[simp] theorem resetLcc_scrZc (s : State) : (resetLcc s).scrZc = State.reset.scrZc := rfl
@[simp] theorem resetLcc_decPrev (s : State) : (resetLcc s).decPrev = State.reset.decPrev := rfl
@[simp] theorem resetLcc_decHv (s : State) : (resetLcc s).decHv = State.reset.decHv := rfl
@[simp] theorem resetLcc_decHd (s : State) : (resetLcc s).decHd = State.reset.decHd := rfl
@[simp] theorem resetLcc_host (s : State) : (resetLcc s).host = s.host := rfl
@[simp] theorem resetLcc_replies (s : State) : (resetLcc s).replies = s.replies := rfl

end Sys2Proof.Machine
end

