-- ==== Sys2Proof/Laws/Commands.lean ====
section
/-! SUPPORT. What each shared operation of the commands can do, said once: the scrambler stage, the mappers, the inverse
mappers, PUSH, END and the dispatch. -/

namespace Sys2Proof.Machine

/-! ### The scrambler -/

/-- R132: a zero is held or completes a block, a pulse flushes the held zeros. -/
theorem b8zsStep_cases (v : Level) (s : State) :
    (v = .zero ∧ s.scrZc = 7 ∧ b8zsStep v s = { emitAll (b8zsBlock s.scrPol) s with scrZc := 0 }) ∨
    (v = .zero ∧ s.scrZc ≠ 7 ∧ b8zsStep v s = { s with scrZc := s.scrZc + 1 }) ∨
    (∃ p, v = .pulse p ∧
      b8zsStep v s = { emit p.byte (emitZeros s.scrZc.val s) with scrZc := 0, scrPol := p }) := by
  cases v with
  | zero =>
    by_cases h : s.scrZc = 7
    · exact .inl ⟨rfl, h, by simp [b8zsStep, h, Config.b8zsRun]⟩
    · refine .inr (.inl ⟨rfl, h, ?_⟩)
      have h2 : ¬ (s.scrZc.val + 1 = Config.b8zsRun) := fun e => h (Fin.ext (Nat.succ.inj e))
      simp [b8zsStep, h2]
  | pulse p => exact .inr (.inr ⟨p, rfl, rfl⟩)

/-- R136: as for B8ZS, with the pulse count's parity choosing the block. -/
theorem hdb3Step_cases (v : Level) (s : State) :
    (v = .zero ∧ s.scrZc = 3 ∧ hdb3Step v s =
      { emitAll (hdb3Block s.scrPar s.scrPol) s with
        scrPol := hdb3BlockLast s.scrPar s.scrPol, scrPar := !s.scrPar, scrZc := 0 }) ∨
    (v = .zero ∧ s.scrZc ≠ 3 ∧ hdb3Step v s = { s with scrZc := s.scrZc + 1 }) ∨
    (∃ p, v = .pulse p ∧ hdb3Step v s =
      { emit p.byte (emitZeros s.scrZc.val s) with scrZc := 0, scrPol := p, scrPar := !s.scrPar }) := by
  cases v with
  | zero =>
    by_cases h : s.scrZc = 3
    · exact .inl ⟨rfl, h, by simp [hdb3Step, h, Config.hdb3Run]⟩
    · refine .inr (.inl ⟨rfl, h, ?_⟩)
      have h2 : ¬ (s.scrZc.val + 1 = Config.hdb3Run) := fun e => h (Fin.ext (Nat.succ.inj e))
      simp [hdb3Step, h2]
  | pulse p => exact .inr (.inr ⟨p, rfl, rfl⟩)

/-- R130: the stage of each scrambling. -/
theorem stage_off {s : State} (h : s.mode.scr = .off) (v : Level) : stage v s = emit (code v.toInt) s := by
  simp [stage, h]

theorem stage_b8zs {s : State} (h : s.mode.scr = .b8zs) (v : Level) : stage v s = b8zsStep v s := by
  simp [stage, h]

theorem stage_hdb3 {s : State} (h : s.mode.scr = .hdb3) (v : Level) : stage v s = hdb3Step v s := by
  simp [stage, h]

/-- What the stage writes: the queue's tail and its own three fields, which it leaves alone without scrambling. -/
theorem stage_writes (v : Level) (s : State) :
    ∃ ys pol par zc, stage v s = { s with out := s.out ++ ys, scrPol := pol, scrPar := par, scrZc := zc } ∧
      (s.mode.scr = .off → pol = s.scrPol ∧ par = s.scrPar ∧ zc = s.scrZc) ∧
      (s.mode.scr ≠ .hdb3 → par = s.scrPar) := by
  cases h : s.mode.scr with
  | off => exact ⟨[code v.toInt], s.scrPol, s.scrPar, s.scrZc, by simp [stage_off h, emit, emitAll], by simp, by simp⟩
  | b8zs =>
    rw [stage_b8zs h]
    rcases b8zsStep_cases v s with ⟨-, -, e⟩ | ⟨-, -, e⟩ | ⟨p, -, e⟩
    · exact ⟨b8zsBlock s.scrPol, s.scrPol, s.scrPar, 0, e, by simp, by simp⟩
    · exact ⟨[], s.scrPol, s.scrPar, s.scrZc + 1, by simp [e], by simp, by simp⟩
    · exact ⟨List.replicate s.scrZc.val 0x00 ++ [p.byte], p, s.scrPar, 0,
        by simp [e, emit, emitAll, emitZeros], by simp, by simp⟩
  | hdb3 =>
    rw [stage_hdb3 h]
    rcases hdb3Step_cases v s with ⟨-, -, e⟩ | ⟨-, -, e⟩ | ⟨p, -, e⟩
    · exact ⟨hdb3Block s.scrPar s.scrPol, _, !s.scrPar, 0, e, by simp, by simp⟩
    · exact ⟨[], s.scrPol, s.scrPar, s.scrZc + 1, by simp [e], by simp, by simp⟩
    · exact ⟨List.replicate s.scrZc.val 0x00 ++ [p.byte], p, !s.scrPar, 0,
        by simp [e, emit, emitAll, emitZeros], by simp, by simp⟩

/-! ### The mappers -/

/-- R113 to R117: the mapper of each scheme. -/
theorem mapBit_cases (b : Bool) (s : State) :
    (s.mode.scheme = .nrzl ∧ mapBit b s = nrzl b s) ∨ (s.mode.scheme = .nrzi ∧ mapBit b s = nrzi b s) ∨
    (s.mode.scheme = .man ∧ mapBit b s = man b s) ∨ (s.mode.scheme = .dman ∧ mapBit b s = dman b s) ∨
    (s.mode.scheme = .ami ∧ mapBit b s = ami b s) := by
  cases h : s.mode.scheme <;> simp [mapBit, h]

/-- R117: AMI feeds the stage a zero, or the next pulse. -/
theorem ami_cases (b : Bool) (s : State) :
    (b = false ∧ ami b s = stage .zero s) ∨
    (b = true ∧ ami b s = stage (.pulse s.amiLast.flip) { s with amiLast := s.amiLast.flip }) := by
  cases b <;> simp [ami]

/-- What a mapper writes: the queue's tail, and the encoder's running state. -/
theorem mapBit_writes (b : Bool) (s : State) :
    ∃ ys cur last pol par zc,
      mapBit b s = { s with
        out := s.out ++ ys, encCur := cur, amiLast := last, scrPol := pol, scrPar := par, scrZc := zc } ∧
      (s.mode.scheme ≠ .nrzi → s.mode.scheme ≠ .dman → cur = s.encCur) ∧
      (s.mode.scheme ≠ .ami → last = s.amiLast) ∧
      (s.mode.scr = .off → pol = s.scrPol ∧ par = s.scrPar ∧ zc = s.scrZc) ∧
      (s.mode.scr ≠ .hdb3 → par = s.scrPar) := by
  rcases mapBit_cases b s with ⟨h, e⟩ | ⟨h, e⟩ | ⟨h, e⟩ | ⟨h, e⟩ | ⟨h, e⟩
  · exact ⟨_, s.encCur, s.amiLast, s.scrPol, s.scrPar, s.scrZc, e, by simp, by simp, by simp, by simp⟩
  · exact ⟨_, _, s.amiLast, s.scrPol, s.scrPar, s.scrZc, e, by simp [h], by simp, by simp, by simp⟩
  · exact ⟨_, s.encCur, s.amiLast, s.scrPol, s.scrPar, s.scrZc, e, by simp, by simp, by simp, by simp⟩
  · exact ⟨_, _, s.amiLast, s.scrPol, s.scrPar, s.scrZc, e, by simp [h], by simp, by simp, by simp⟩
  · rcases ami_cases b s with ⟨-, e2⟩ | ⟨-, e2⟩
    · obtain ⟨ys, pol, par, zc, e3, h3, h4⟩ := stage_writes .zero s
      exact ⟨ys, s.encCur, s.amiLast, pol, par, zc, by rw [e, e2, e3], by simp, by simp, h3, h4⟩
    · obtain ⟨ys, pol, par, zc, e3, h3, h4⟩ :=
        stage_writes (.pulse s.amiLast.flip) { s with amiLast := s.amiLast.flip }
      exact ⟨ys, s.encCur, s.amiLast.flip, pol, par, zc, by rw [e, e2, e3], by simp, by simp [h], h3, h4⟩

/-- R110: a symbol goes to the mapper, any other byte aborts the frame. -/
theorem encPush_cases (x : Byte) (s : State) :
    (bit x = none ∧ encPush x s = { s with inv := true }) ∨ (∃ b, bit x = some b ∧ encPush x s = mapBit b s) := by
  cases h : bit x with
  | none => exact .inl ⟨rfl, by simp [encPush, h, setFlag]⟩
  | some b => exact .inr ⟨b, rfl, by simp [encPush, h]⟩

/-! ### The inverse mappers -/

/-- What a decode PUSH writes: at most one symbol at the queue's tail, and the decoder's running state. -/
theorem decPush_writes (x : Byte) (s : State) :
    ∃ ys prev hv hd, decPush x s = { s with out := s.out ++ ys, decPrev := prev, decHv := hv, decHd := hd } ∧
      (ys = [] ∨ ∃ b, ys = [sym b]) ∧
      (s.mode.scheme ≠ .nrzi → s.mode.scheme ≠ .dman → prev = s.decPrev) ∧
      (samplesPerBit s.mode.scheme ≠ 2 → hv = s.decHv ∧ hd = s.decHd) := by
  cases h : s.mode.scheme with
  | nrzl =>
    exact ⟨_, s.decPrev, s.decHv, s.decHd, by simp only [decPush, h]; rfl, .inr ⟨_, rfl⟩, by simp, by simp⟩
  | nrzi =>
    exact ⟨_, x, s.decHv, s.decHd, by simp only [decPush, h]; rfl, .inr ⟨_, rfl⟩, by simp, by simp⟩
  | man =>
    cases hv : s.decHv with
    | false =>
      exact ⟨[], s.decPrev, true, x, by simp [decPush, h, dmanPair, hv], .inl rfl, by simp, by simp [samplesPerBit]⟩
    | true =>
      exact ⟨_, s.decPrev, false, s.decHd, by simp only [decPush, h, dmanPair, hv]; rfl, .inr ⟨_, rfl⟩, by simp,
        by simp [samplesPerBit]⟩
  | dman =>
    cases hv : s.decHv with
    | false =>
      exact ⟨[], s.decPrev, true, x, by simp [decPush, h, ddmanPair, hv], .inl rfl, by simp, by simp [samplesPerBit]⟩
    | true =>
      exact ⟨_, x, false, s.decHd, by simp only [decPush, h, ddmanPair, hv]; rfl, .inr ⟨_, rfl⟩, by simp,
        by simp [samplesPerBit]⟩
  | ami =>
    exact ⟨_, s.decPrev, s.decHv, s.decHd, by simp only [decPush, h]; rfl, .inr ⟨_, rfl⟩, by simp, by simp⟩

/-! ### PUSH, END and the dispatch -/

/-- R94: what an accepted PUSH is. -/
theorem push_cases (x : Byte) (s : State) :
    (s.inv = true ∧ push x s = { s with any := true }) ∨
    (s.inv = false ∧ s.mode.dir = .enc ∧ push x s = encPush x { s with any := true }) ∨
    (s.inv = false ∧ s.mode.dir = .dec ∧ push x s = decPush x { s with any := true }) := by
  cases hi : s.inv <;> cases hd : s.mode.dir <;> simp [push, hi, hd]

/-- R96: what END does with held items. -/
theorem releaseHeld_cases (s : State) :
    (s.mode.dir = .enc ∧ s.mode.scr ≠ .off ∧ releaseHeld s = flushZeros s) ∨
    (pairDecoder s.mode = true ∧ s.decHv = true ∧ releaseHeld s = dropUnpaired s) ∨
    (releaseHeld s = s ∧ ¬ (s.mode.dir = .enc ∧ s.mode.scr ≠ .off) ∧
      ¬ (pairDecoder s.mode = true ∧ s.decHv = true)) := by
  by_cases h1 : s.mode.dir = .enc ∧ s.mode.scr ≠ .off
  · exact .inl ⟨h1.1, h1.2, by simp [releaseHeld, h1]⟩
  · by_cases h2 : s.mode.dir = .dec ∧ samplesPerBit s.mode.scheme = 2 ∧ s.decHv = true
    · exact .inr (.inl ⟨by simp [pairDecoder, h2.1, h2.2.1], h2.2.2, by simp [releaseHeld, h2]⟩)
    · refine .inr (.inr ⟨by simp only [releaseHeld, h1, h2, if_false], h1, ?_⟩)
      rintro ⟨a, b⟩
      simp only [pairDecoder, decide_eq_true_eq] at a
      exact h2 ⟨a.1, a.2, b⟩

/-- R96: END of an aborted frame flushes nothing; of any other it releases what is held. -/
theorem closeFrame_eq (s : State) :
    (s.inv = true ∧ closeFrame s = { s with empty := !s.any, act := false }) ∨
    (s.inv = false ∧ closeFrame s = { releaseHeld s with empty := !(releaseHeld s).any, act := false }) := by
  cases h : s.inv <;> simp [closeFrame, h]

/-- R91, R92, R93: each START is `startCommand` of its mode. -/
theorem exec_start (m : Mode) (s : State) : exec m.start s = startCommand m s := by
  cases m <;> rfl

/-- R91: what a command that completes has done. -/
theorem exec_cases {i : Instr} {s t : State} (h : exec i s = .next t) :
    (i = .nop ∧ t = s) ∨
    (∃ m : Mode, i = m.start ∧ s.act = false ∧ t = start m s) ∨
    (∃ x, i = .push x ∧ s.act = true ∧ t = push x s) ∨
    (i = .endFrame ∧ s.act = true ∧ t = closeFrame s) ∨
    (allowedInPhase i s.act = false ∧ t = protocolError s) := by
  have hs : ∀ m : Mode, exec m.start s = .next t → allowedInPhase m.start true = false →
      (s.act = false ∧ t = start m s) ∨ (allowedInPhase m.start s.act = false ∧ t = protocolError s) := by
    intro m hm hp
    rw [exec_start] at hm
    cases ha : s.act <;> simp_all [startCommand]
  have hstart : ∀ m : Mode, i = m.start → (allowedInPhase m.start true = false) →
      (∃ m : Mode, i = m.start ∧ s.act = false ∧ t = start m s) ∨
      (allowedInPhase i s.act = false ∧ t = protocolError s) := by
    intro m e hp
    subst e
    rcases hs m h hp with ⟨a, b⟩ | ⟨a, b⟩
    · exact .inl ⟨m, rfl, a, b⟩
    · exact .inr ⟨a, b⟩
  have key : (∃ m : Mode, i = m.start ∧ allowedInPhase m.start true = false) ∨ i = .nop ∨ (∃ x, i = .push x) ∨
      i = .endFrame := by
    cases i
    case nop => exact .inr (.inl rfl)
    case push x => exact .inr (.inr (.inl ⟨x, rfl⟩))
    case endFrame => exact .inr (.inr (.inr rfl))
    case startEncNrzl => exact .inl ⟨.encNrzl, rfl, rfl⟩
    case startEncNrzi => exact .inl ⟨.encNrzi, rfl, rfl⟩
    case startEncMan => exact .inl ⟨.encMan, rfl, rfl⟩
    case startEncDman => exact .inl ⟨.encDman, rfl, rfl⟩
    case startEncAmi => exact .inl ⟨.encAmi, rfl, rfl⟩
    case startEncAmiB8zs => exact .inl ⟨.encAmiB8zs, rfl, rfl⟩
    case startEncAmiHdb3 => exact .inl ⟨.encAmiHdb3, rfl, rfl⟩
    case startDecNrzl => exact .inl ⟨.decNrzl, rfl, rfl⟩
    case startDecNrzi => exact .inl ⟨.decNrzi, rfl, rfl⟩
    case startDecMan => exact .inl ⟨.decMan, rfl, rfl⟩
    case startDecDman => exact .inl ⟨.decDman, rfl, rfl⟩
    case startDecAmi => exact .inl ⟨.decAmi, rfl, rfl⟩
  rcases key with ⟨m, e, hp⟩ | e | ⟨x, e⟩ | e
  · rcases hstart m e hp with a | a
    · exact .inr (.inl a)
    · exact .inr (.inr (.inr (.inr a)))
  · subst e
    exact .inl ⟨rfl, by simpa [exec, execNop] using h.symm⟩
  · subst e
    cases ha : s.act <;> simp_all [exec, execPush, allowedInPhase]
  · subst e
    cases ha : s.act <;> simp_all [exec, execEnd, allowedInPhase]

/-- R94: a PUSH in an open frame. -/
theorem exec_push_open {s : State} (h : s.act = true) (x : Byte) : exec (.push x) s = .next (push x s) := by
  simp [exec, execPush, h]

/-- R96: an END in an open frame. -/
theorem exec_end_open {s : State} (h : s.act = true) : exec .endFrame s = .next (closeFrame s) := by
  simp [exec, execEnd, h]

/-- R110, R111: a symbol pushed in an encode frame goes to the mapper. -/
theorem exec_push_symbol {s : State} (ha : s.act = true) (hi : s.inv = false) (hd : s.mode.dir = .enc) (b : Bool) :
    exec (.push (sym b)) s = .next (mapBit b { s with any := true }) := by
  simp [exec_push_open ha, push, hi, hd, encPush]

/-- R150: a byte pushed in a decode frame goes to the inverse mapper. -/
theorem exec_push_level {s : State} (ha : s.act = true) (hi : s.inv = false) (hd : s.mode.dir = .dec) (x : Byte) :
    exec (.push x) s = .next (decPush x { s with any := true }) := by
  simp [exec_push_open ha, push, hi, hd]

end Sys2Proof.Machine
end

