-- ==== Sys2Proof/Laws/PerInstr.lean ====
section
/-! SUPPORT. What holds of every command as syntax, one lemma per constructor: its word is in its own row of the opcode
map (R84), and it is well-formed. -/

namespace Sys2Proof.Laws

/-- The `mask` of a command's row of R84. -/
def rowMask : Instr → Word
  | .push _ => 0xFF00
  | _ => 0xFFFF

/-- The `match` of a command's row of R84. -/
def rowMatch : Instr → Word
  | .nop => 0x0000
  | .startEncNrzl => 0x1000
  | .startEncNrzi => 0x1001
  | .startEncMan => 0x1002
  | .startEncDman => 0x1003
  | .startEncAmi => 0x1004
  | .startEncAmiB8zs => 0x100C
  | .startEncAmiHdb3 => 0x1014
  | .startDecNrzl => 0x1020
  | .startDecNrzi => 0x1021
  | .startDecMan => 0x1022
  | .startDecDman => 0x1023
  | .startDecAmi => 0x1024
  | .push _ => 0x2000
  | .endFrame => 0x3000

/-- The command's word matches its row of R84, and the command is well-formed. -/
def OpcodeRow.Statement (i : Instr) : Prop := encode i &&& rowMask i = rowMatch i ∧ i.wf = true

theorem OpcodeRow.nop : OpcodeRow.Statement .nop := ⟨by decide, by decide⟩
theorem OpcodeRow.startEncNrzl : OpcodeRow.Statement .startEncNrzl := ⟨by decide, by decide⟩
theorem OpcodeRow.startEncNrzi : OpcodeRow.Statement .startEncNrzi := ⟨by decide, by decide⟩
theorem OpcodeRow.startEncMan : OpcodeRow.Statement .startEncMan := ⟨by decide, by decide⟩
theorem OpcodeRow.startEncDman : OpcodeRow.Statement .startEncDman := ⟨by decide, by decide⟩
theorem OpcodeRow.startEncAmi : OpcodeRow.Statement .startEncAmi := ⟨by decide, by decide⟩
theorem OpcodeRow.startEncAmiB8zs : OpcodeRow.Statement .startEncAmiB8zs := ⟨by decide, by decide⟩
theorem OpcodeRow.startEncAmiHdb3 : OpcodeRow.Statement .startEncAmiHdb3 := ⟨by decide, by decide⟩
theorem OpcodeRow.startDecNrzl : OpcodeRow.Statement .startDecNrzl := ⟨by decide, by decide⟩
theorem OpcodeRow.startDecNrzi : OpcodeRow.Statement .startDecNrzi := ⟨by decide, by decide⟩
theorem OpcodeRow.startDecMan : OpcodeRow.Statement .startDecMan := ⟨by decide, by decide⟩
theorem OpcodeRow.startDecDman : OpcodeRow.Statement .startDecDman := ⟨by decide, by decide⟩
theorem OpcodeRow.startDecAmi : OpcodeRow.Statement .startDecAmi := ⟨by decide, by decide⟩

theorem OpcodeRow.push (x : Byte) : OpcodeRow.Statement (.push x) := by
  refine ⟨?_, rfl⟩
  show (0x2000#16 ||| x.zeroExtend 16) &&& 0xFF00#16 = 0x2000#16
  revert x
  decide

theorem OpcodeRow.endFrame : OpcodeRow.Statement .endFrame := ⟨by decide, by decide⟩

/-- Every term of `Instr` is well-formed: its operand types leave nothing ill-formed. -/
theorem instr_wf (i : Instr) : i.wf = true := by
  cases i <;> rfl

end Sys2Proof.Laws
end

