-- ==== Sys2Proof/Laws/Ports.lean ====
section
/-! SUPPORT. What an access and a step can do, said once. -/

namespace Sys2Proof.Machine

/-- R91: a word written to CMD is its command, or illegal. -/
theorem executeWord_cases {w : Word} {s t : State} (h : executeWord w s = .next t) :
    (∃ i, decode w = .ok i ∧ exec i s = .next t) ∨ (∃ e, decode w = .error e ∧ t = illegal s) := by
  unfold executeWord at h
  split at h
  · exact .inl ⟨_, by assumption, h⟩
  · exact .inr ⟨_, by assumption, by simpa using h.symm⟩

/-- R52, R54, R56: a write is a command on CMD, and ignored elsewhere. -/
theorem writePort_cases {p : Port} {w : Word} {s t : State} (h : writePort p w s = .next t) :
    (p = .cmd ∧ executeWord w s = .next t) ∨ (p ≠ .cmd ∧ t = s) := by
  cases p
  · exact .inl ⟨rfl, h⟩
  all_goals exact .inr ⟨by simp, by simpa [writePort] using h.symm⟩

/-- R57: where a window access is accepted, it is in the contract. -/
theorem busAccess_cases {b : BusAccess} {s t : State} (h : busAccess b s = .next t) :
    (b.touchesWindow = false ∧ t = s) ∨
    (b.touchesWindow = true ∧ b.inContract = true ∧ b.kind = .read ∧ t = readPort b.port s) ∨
    (∃ w, b.touchesWindow = true ∧ b.inContract = true ∧ b.kind = .write w ∧ writePort b.port w s = .next t) := by
  unfold busAccess at h
  split at h
  · rename_i ht
    split at h
    · simp at h
    split at h
    · simp at h
    split at h
    · rename_i hk hw he
      have hc : b.inContract = true := by simp_all [BusAccess.inContract]
      split at h
      · exact .inr (.inl ⟨ht, hc, by assumption, by simpa using h.symm⟩)
      · exact .inr (.inr ⟨_, ht, hc, by assumption, h⟩)
      · simp at h
    · simp at h
  · rename_i ht
    exact .inl ⟨by simpa using ht, by simpa using h.symm⟩

/-- R56: a 16-bit access at an even offset below 8 touches the window and is at an even offset. -/
theorem window_contract (k : BusKind) {o : Nat} (h1 : o < 8) (h2 : o % 2 = 0) :
    BusAccess.touchesWindow ⟨k, 16, Config.regBase + o⟩ = true ∧
    BusAccess.evenOffset ⟨k, 16, Config.regBase + o⟩ = true := by
  constructor
  · simp [BusAccess.touchesWindow, BusAccess.bytes, Config.windowBytes]
    omega
  · simp [BusAccess.evenOffset]
    omega

/-- R56: such a read and such a write act on the port of their place. -/
theorem busAccess_read {o : Nat} (h1 : o < 8) (h2 : o % 2 = 0) (s : State) :
    busAccess ⟨.read, 16, Config.regBase + o⟩ s =
      .next (readPort (BusAccess.port ⟨.read, 16, Config.regBase + o⟩) s) := by
  simp [busAccess, window_contract _ h1 h2]

theorem busAccess_write {o : Nat} (h1 : o < 8) (h2 : o % 2 = 0) (w : Word) (s : State) :
    busAccess ⟨.write w, 16, Config.regBase + o⟩ s =
      writePort (BusAccess.port ⟨.write w, 16, Config.regBase + o⟩) w s := by
  simp [busAccess, window_contract _ h1 h2]

/-- R60: a step takes the head of the host's list. -/
theorem step_of_host {s : State} {a : HostAccess} {rest : List HostAccess} (h : s.host = a :: rest) :
    step s = hostAccess a { s with host := rest } := by
  simp [step, takeAccess, h]

/-- R60, R65: what a step can be. -/
theorem step_cases {s t : State} (h : step s = .next t) :
    (s.host = [] ∧ t = s) ∨ (∃ a rest, s.host = a :: rest ∧ hostAccess a { s with host := rest } = .next t) := by
  unfold step takeAccess at h
  split at h
  · exact .inl ⟨by assumption, by simpa using h.symm⟩
  · exact .inr ⟨_, _, by assumption, h⟩

/-- The command word of a window access in the contract (R56). -/
theorem commandWord_bus {b : BusAccess} {w : Word} (h1 : b.touchesWindow = true) (h2 : b.inContract = true)
    (h3 : b.kind = .write w) :
    (b.port = .cmd → (HostAccess.bus b).commandWord = some w) ∧
    (b.port ≠ .cmd → (HostAccess.bus b).commandWord = none) := by
  obtain ⟨k, wd, ad⟩ := b
  simp only [BusAccess.inContract, Bool.and_eq_true, decide_eq_true_eq] at h2
  obtain ⟨⟨-, hw⟩, -⟩ := h2
  simp only at h3 hw
  subst h3 hw
  by_cases e : ad = Config.regBase
  · simp [BusAccess.port, HostAccess.commandWord, e]
  · have : BusAccess.port ⟨.write w, 16, ad⟩ ≠ .cmd := by
      unfold BusAccess.port
      simp only [e, if_false]
      split <;> [skip; split] <;> simp
    simp [HostAccess.commandWord, e, this]

/-- R65: what an access that is taken does. -/
theorem hostAccess_cases {a : HostAccess} {s t : State} (h : hostAccess a s = .next t) :
    (∃ w, a.commandWord = some w ∧ executeWord w s = .next t) ∨
    (a.commandWord = none ∧ a ≠ .reset ∧ ∃ p, t = readPort p s) ∨
    (a.commandWord = none ∧ a ≠ .reset ∧ t = s) ∨
    (a = .reset ∧ t = resetLcc s) := by
  cases a with
  | read p => exact .inr (.inl ⟨rfl, by simp, p, by simpa [hostAccess] using h.symm⟩)
  | write p w =>
    rcases writePort_cases (show writePort p w s = .next t from h) with ⟨e, h2⟩ | ⟨e, h2⟩
    · subst e; exact .inl ⟨w, rfl, h2⟩
    · exact .inr (.inr (.inl ⟨by cases p <;> simp_all [HostAccess.commandWord], by simp, h2⟩))
  | reset => exact .inr (.inr (.inr ⟨rfl, by simpa [hostAccess] using h.symm⟩))
  | bus b =>
    rcases busAccess_cases (show busAccess b s = .next t from h) with ⟨ht, e⟩ | ⟨ht, hc, hk, e⟩ | ⟨w, ht, hc, hk, e⟩
    · refine .inr (.inr (.inl ⟨?_, by simp, e⟩))
      obtain ⟨k, wd, ad⟩ := b
      unfold HostAccess.commandWord
      split <;> simp_all
      rename_i heq
      obtain ⟨rfl, rfl, rfl⟩ := heq
      intro e2
      subst e2
      simp [BusAccess.touchesWindow, BusAccess.bytes, Config.windowBytes] at ht
    · refine .inr (.inl ⟨?_, by simp, _, e⟩)
      obtain ⟨k, wd, ad⟩ := b
      simp only at hk
      subst hk
      rfl
    · rcases writePort_cases e with ⟨e1, e2⟩ | ⟨e1, e2⟩
      · exact .inl ⟨w, (commandWord_bus ht hc hk).1 e1, e2⟩
      · exact .inr (.inr (.inl ⟨(commandWord_bus ht hc hk).2 e1, by simp, e2⟩))

end Sys2Proof.Machine
end

