-- ==== Sys2Proof/Tests/Slice0.lean ====
section
/-! SUPPORT. The model's own tests, each with its source in spec/, and for every statement with hypotheses the states and
operands that meet them. -/

namespace Sys2Proof.Tests

open Sys2Proof.Machine

/-- The state an outcome leads to. -/
def look (o : Host.Outcome State Fault Refusal) : Option State :=
  match o with
  | .next t => some t
  | .fault _ => none
  | .refused _ => none

/-- What spec/95 tabulates of an outcome: the STATUS image and the queue. -/
def shown (o : Host.Outcome State Fault Refusal) : Option (Word × List Byte) :=
  (look o).map (fun t => (t.statusImage, t.out))

/-- An open frame that has consumed items and stands at the seeds of a scheme other than DMAN. -/
def inFrame (m : Mode) : State := { State.reset with act := true, mode := m, any := true }

/-- An idle state whose host does the given things next. -/
def withHost (h : List HostAccess) (s : State) : State := { s with host := h }

/-! ### Well-formedness: each check refuses a term -/

/-- R74: SCHEME 5 is reserved. -/
theorem test_wf_scheme : schemeDefined 0x05 = false ∧ modeWf 0x05 = false := by decide

/-- R74: SCR 3 is reserved, with AMI too. -/
theorem test_wf_scr : scrDefined 0x1C = false ∧ scrOnlyWithAmi 0x1C = true ∧ modeWf 0x1C = false := by decide

/-- R75: SCR 1 with NRZ-L. -/
theorem test_wf_scr_needs_ami : scrOnlyWithAmi 0x08 = false ∧ modeWf 0x08 = false := by decide

/-- R75: SCR 1 with DIR 1. -/
theorem test_wf_scr_needs_encode : scrOnlyWithEncode 0x2C = false ∧ modeWf 0x2C = false := by decide

/-- R79: OP 0x4. -/
theorem test_wf_op : opDefined 0x4000 = false ∧ wordWf 0x4000 = false := by decide

/-- R71: a fixed field of NOP, START, PUSH and END that is not zero. -/
theorem test_wf_fixed_fields :
    fixedFieldsZero 0x0001 = false ∧ fixedFieldsZero 0x1040 = false ∧ fixedFieldsZero 0x2100 = false ∧
    fixedFieldsZero 0x3800 = false ∧ wordWf 0x3800 = false := by decide

/-- R73: a START word with a reserved MODE. -/
theorem test_wf_mode_field : modeFieldLegal 0x1005 = false ∧ wordWf 0x1005 = false := by decide

/-- R57: a window access of 8 bits, and a fetch, are outside the contract. -/
theorem test_wf_bus_access :
    BusAccess.inContract ⟨.read, 8, Config.regBase⟩ = false ∧
    BusAccess.inContract ⟨.fetch, 16, Config.regBase⟩ = false := by
  simp [BusAccess.inContract]

/-- R57: so is a 16-bit access at an odd offset. -/
theorem test_wf_bus_access_odd : BusAccess.inContract ⟨.read, 16, Config.regBase + 1⟩ = false := by
  simp [BusAccess.inContract, BusAccess.evenOffset]
  omega

/-! ### Decoding: words written out bit by bit from R70 to R77 (OP 4 bits, then the fixed field and MODE, or DATA) -/

theorem test_decode_nop : decode 0b0000_000000000000 = .ok .nop := by decide
theorem test_decode_startEncNrzl : decode 0b0001_000000_0_00_000 = .ok .startEncNrzl := by decide
theorem test_decode_startEncNrzi : decode 0b0001_000000_0_00_001 = .ok .startEncNrzi := by decide
theorem test_decode_startEncMan : decode 0b0001_000000_0_00_010 = .ok .startEncMan := by decide
theorem test_decode_startEncDman : decode 0b0001_000000_0_00_011 = .ok .startEncDman := by decide
theorem test_decode_startEncAmi : decode 0b0001_000000_0_00_100 = .ok .startEncAmi := by decide
theorem test_decode_startEncAmiB8zs : decode 0b0001_000000_0_01_100 = .ok .startEncAmiB8zs := by decide
theorem test_decode_startEncAmiHdb3 : decode 0b0001_000000_0_10_100 = .ok .startEncAmiHdb3 := by decide
theorem test_decode_startDecNrzl : decode 0b0001_000000_1_00_000 = .ok .startDecNrzl := by decide
theorem test_decode_startDecNrzi : decode 0b0001_000000_1_00_001 = .ok .startDecNrzi := by decide
theorem test_decode_startDecMan : decode 0b0001_000000_1_00_010 = .ok .startDecMan := by decide
theorem test_decode_startDecDman : decode 0b0001_000000_1_00_011 = .ok .startDecDman := by decide
theorem test_decode_startDecAmi : decode 0b0001_000000_1_00_100 = .ok .startDecAmi := by decide
theorem test_decode_push : decode 0b0010_0000_10000001 = .ok (.push 0x81) := by decide
theorem test_decode_endFrame : decode 0b0011_000000000000 = .ok .endFrame := by decide

/-- spec/95 §2.1: illegal words and the check each fails. -/
theorem test_decode_illegal :
    decode 0x0800 = .error .fixedField ∧ decode 0x1018 = .error .reservedMode ∧
    decode 0x1034 = .error .reservedMode ∧ decode 0x1FFF = .error .fixedField ∧
    decode 0x2F31 = .error .fixedField ∧ decode 0x3001 = .error .fixedField ∧
    decode 0xFFFF = .error .reservedOp := by decide

/-- R84: the matches of the opcode map are the encoder's words. -/
theorem test_encode :
    encode .startEncAmiHdb3 = 0x1014 ∧ encode .startDecAmi = 0x1024 ∧ encode (.push 0xFF) = 0x20FF ∧
    encode .endFrame = 0x3000 := by decide

/-- The table's 16 bits of START ENC AMI B8ZS. -/
theorem test_decodeTableWord : decodeTableWord 16 0x100C = some .startEncAmiB8zs := by decide

/-- spec/95 §2.2: after START ENC AMI HDB3 from reset STATUS is 0x1401. -/
theorem test_withFetchWord : shown (step (State.reset.withFetchWord 16 0x1014)) = some (0x1401, []) := by decide

/-! ### One step, against the tables of spec/95 -/

/-- spec/95 §2.2: the images after reset. -/
theorem test_reset_images : State.reset.statusImage = 0x0000 ∧ State.reset.outImage = 0x0000 := by decide

/-- PR7, row 0x0000: STATUS stays 0x0171. -/
theorem test_nop :
    shown (executeWord 0x0000 { inFrame .encNrzi with encCur := .pos, proto := true, ill := true, out := [0x01] }) =
      some (0x0171, [0x01]) := by decide

/-- PR5, row 0x1000. -/
theorem test_startEncNrzl : shown (executeWord 0x1000 State.reset) = some (0x0001, []) := by decide

/-- PR7, row 0x1001: the START clears PROTO. -/
theorem test_startEncNrzi : shown (executeWord 0x1001 { State.reset with proto := true }) = some (0x0101, []) := by decide

/-- PR7, row 0x1002: PROTO, mode unchanged. -/
theorem test_startEncMan :
    shown (executeWord 0x1002 { inFrame .encNrzi with encCur := .pos, out := [0x01] }) = some (0x0161, [0x01]) := by decide

/-- R92's table: the seeds of a DMAN mode are +1. -/
theorem test_startEncDman :
    (look (executeWord 0x1003 State.reset)).map (fun t => (t.encCur, t.decPrev)) = some (.pos, 0x01) := by decide

/-- PR1, row 0x1004. -/
theorem test_startEncAmi : shown (executeWord 0x1004 State.reset) = some (0x0401, []) := by decide

/-- PR2, row 0x100C: and held zeros of an earlier frame are gone. -/
theorem test_startEncAmiB8zs :
    (look (executeWord 0x100C { State.reset with scrZc := 5, scrPol := .neg })).map
      (fun t => (t.statusImage, t.scrZc, t.scrPol)) = some (0x0C01, 0, .pos) := by decide

/-- PR3a, row 0x1014: `SCR_PAR` starts at 0. -/
theorem test_startEncAmiHdb3 :
    (look (executeWord 0x1014 { State.reset with scrPar := true })).map (fun t => (t.statusImage, t.scrPar)) =
      some (0x1401, false) := by decide

/-- R92 and R39: MODE 0x20, ACT. -/
theorem test_startDecNrzl : shown (executeWord 0x1020 State.reset) = some (0x2001, []) := by decide

/-- R92 and R39: MODE 0x21, ACT, and the seed −1. -/
theorem test_startDecNrzi :
    (look (executeWord 0x1021 { State.reset with decPrev := 0x7F })).map (fun t => (t.statusImage, t.decPrev)) =
      some (0x2101, 0xFF) := by decide

/-- PR4, row 0x1022. -/
theorem test_startDecMan :
    (look (executeWord 0x1022 { State.reset with decHv := true })).map (fun t => (t.statusImage, t.decHv)) =
      some (0x2201, false) := by decide

/-- R92 and R39: MODE 0x23, ACT, and the seed +1. -/
theorem test_startDecDman :
    (look (executeWord 0x1023 State.reset)).map (fun t => (t.statusImage, t.decPrev)) = some (0x2301, 0x01) := by decide

/-- R92, R196: MODE 0x24, ACT, and the queue of an earlier frame stays. -/
theorem test_startDecAmi : shown (executeWord 0x1024 { State.reset with out := [0x01] }) = some (0x2441, [0x01]) := by
  decide

/-- A PUSH in each encode mode: PR5, PR7 (second '1'), SX3, PR6 (first "0" after START), PR1 (second '1'), PR2 (no. 8),
PR3a (no. 4), and PR5's invalid symbol. -/
theorem test_push_encode :
    shown (executeWord 0x2031 (inFrame .encNrzl)) = some (0x0041, [0x01]) ∧
    shown (executeWord 0x2031 { inFrame .encNrzi with encCur := .pos, out := [0x01] }) = some (0x0141, [0x01, 0xFF]) ∧
    shown (executeWord 0x2030 (inFrame .encMan)) = some (0x0241, [0x01, 0xFF]) ∧
    shown (executeWord 0x2030 { inFrame .encDman with encCur := .pos }) = some (0x0341, [0xFF, 0x01]) ∧
    shown (executeWord 0x2031 { inFrame .encAmi with amiLast := .neg, out := [0xFF, 0x00] }) =
      some (0x0441, [0xFF, 0x00, 0x01]) ∧
    shown (executeWord 0x2030 { inFrame .encAmiB8zs with scrZc := 7, out := [0xFF, 0x01] }) =
      some (0x0C41, [0xFF, 0x01, 0x00, 0x00, 0x00, 0x01, 0xFF, 0x00, 0xFF, 0x01]) ∧
    shown (executeWord 0x2030
        { inFrame .encAmiHdb3 with amiLast := .neg, scrPol := .neg, scrPar := true, scrZc := 3, out := [0xFF] }) =
      some (0x1441, [0xFF, 0x00, 0x00, 0x00, 0x01]) ∧
    shown (executeWord 0x2078 { inFrame .encNrzl with out := [0x01] }) = some (0x0043, [0x01]) := by decide

/-- A PUSH in each decode mode, from spec/95 §2.6: NRZ-L of −128, NRZ-I of 0 after −1, MAN of (−1, +2) and (−1, +1), DMAN
of (+1, +1) after +1, AMI of −128; and PR7's PUSH while idle. -/
theorem test_push_decode :
    shown (executeWord 0x2080 (inFrame .decNrzl)) = some (0x2041, [0x30]) ∧
    shown (executeWord 0x2000 (inFrame .decNrzi)) = some (0x2141, [0x31]) ∧
    shown (executeWord 0x2002 { inFrame .decMan with decHv := true, decHd := 0xFF }) = some (0x2241, [0x30]) ∧
    shown (executeWord 0x2001 { inFrame .decMan with decHv := true, decHd := 0xFF }) = some (0x2241, [0x31]) ∧
    shown (executeWord 0x2001 { inFrame .decDman with decPrev := 0x01, decHv := true, decHd := 0x01 }) =
      some (0x2341, [0x31]) ∧
    shown (executeWord 0x2080 (inFrame .decAmi)) = some (0x2441, [0x31]) ∧
    shown (executeWord 0x2031 State.reset) = some (0x0020, []) := by decide

/-- PR8: END emits seven held zeros; PR3a: three. -/
theorem test_end_flush :
    shown (executeWord 0x3000 { inFrame .encAmiB8zs with scrZc := 7, scrPol := .neg, amiLast := .neg, out := [0xFF] }) =
      some (0x0C40, [0xFF, 0x00, 0x00, 0x00, 0x00, 0x00, 0x00, 0x00]) ∧
    shown (executeWord 0x3000 { inFrame .encAmiHdb3 with amiLast := .neg, scrZc := 3, out := [0xFF, 0x00, 0x00, 0x00, 0x01] }) =
      some (0x1440, [0xFF, 0x00, 0x00, 0x00, 0x01, 0x00, 0x00, 0x00]) := by decide

/-- PR4: TRUNC; PR10: EMPTY; PR5: an aborted frame; spec/95 §2.4, last row: its held zeros are not emitted. -/
theorem test_end_reports :
    shown (executeWord 0x3000 { inFrame .decMan with decHv := true, decHd := 0x01, out := [0x31] }) =
      some (0x2244, [0x31]) ∧
    shown (executeWord 0x3000 { State.reset with act := true, mode := .decAmi }) = some (0x2408, []) ∧
    shown (executeWord 0x3000 { inFrame .encNrzl with inv := true, out := [0x01] }) = some (0x0042, [0x01]) ∧
    (look (executeWord 0x3000 { inFrame .encAmiB8zs with inv := true, scrZc := 2, out := [0xFF] })).map State.out =
      some [0xFF] := by decide

/-- PR7, row 0x2131: ILL, no item. -/
theorem test_illegal_word :
    shown (executeWord 0x2131 { inFrame .encNrzi with proto := true, out := [0x01] }) = some (0x0171, [0x01]) := by decide

/-- spec/95 §2.2, row 3: an OUT read of a queue of one byte 0xFF returns 0x01FF. -/
theorem test_out_read :
    (look (step (withHost [.read .out] { inFrame .encAmi with out := [0xFF] }))).map (fun t => (t.replies, t.out)) =
      some ([⟨.out, 0x01FF⟩], []) := by decide

/-- spec/95 §2.4, third row, of the reference scan (SX11); §2.5, fifth row of the HDB3 scan. -/
theorem test_reference_scans :
    b8zsRef [-1, 0, 0, 0, 0, 0, 0, 0, 0] = [-1, 0, 0, 0, -1, 1, 0, 1, -1] ∧
    hdb3Ref [-1, 0, 0, 0, 0, 1] = [-1, 0, 0, 0, 1, 1] := by decide

/-- R85: a line of PR4 with a comment. -/
theorem test_assembler_line :
    Asm.assembleLine ['p', 'u', 's', 'h', ' ', ' ', '-', '1', ' ', ';', ' ', 'x'] = some [0x20FF] := by decide

/-- R86: `ENCODE AMI B8ZS, "10"`. -/
theorem test_assembler_encode :
    Asm.assembleLine
      ['E', 'N', 'C', 'O', 'D', 'E', ' ', 'A', 'M', 'I', ' ', 'B', '8', 'Z', 'S', ',', ' ', '"', '1', '0', '"'] =
      some [0x100C, 0x2031, 0x2030, 0x3000] := by decide

/-! ### Witnesses: for every statement with hypotheses, the states and operands that meet them, one a clause, at the
clauses' boundaries. Each is named after its statement. -/

theorem witness_DecodeAndEncodeAgree :
    (Instr.push 0xFF).wf = true ∧ Instr.startEncAmiHdb3.wf = true ∧ decode 0x1024 = .ok .startDecAmi := by decide

theorem witness_WorkedEncodingsDecode : (0x4000 : Word) ∈ [(0x1008 : Word), 0x102C, 0x1005, 0x2100, 0x4000] := by decide

theorem witness_LevelAndSymbolBytes :
    ((-128 : Int) ≤ -128 ∧ (-128 : Int) ≤ 127) ∧ ((-128 : Int) ≤ 127 ∧ (127 : Int) ≤ 127) := by decide

/-- A START, a PUSH and an END word next, and a host that does nothing. -/
theorem witness_StepRunsTheDecodedCommand :
    (withHost [.write .cmd 0x1014, .read .out] State.reset).host = .write .cmd 0x1014 :: [.read .out] ∧
    decode 0x1014 = .ok .startEncAmiHdb3 ∧ Instr.startEncAmiHdb3.wf = true ∧ decode 0x20FF = .ok (.push 0xFF) ∧
    decode 0x3000 = .ok .endFrame ∧ State.reset.host = [] := by decide

/-- An illegal word while idle and in an open frame. -/
theorem witness_IllegalWordOnlySetsIll :
    (withHost [.write .cmd 0x2131] State.reset).host = .write .cmd 0x2131 :: [] ∧
    (withHost [.write .cmd 0x2131] (inFrame .encNrzi)).host = .write .cmd 0x2131 :: [] ∧
    decode 0x2131 = .error .fixedField := by decide

theorem witness_ResetWritesEveryField :
    (withHost [.reset, .read .status] { inFrame .encAmiB8zs with scrZc := 7, out := [0xFF] }).host =
      .reset :: [.read .status] := by decide

theorem witness_StartOpensFrameAndLoadsSeeds :
    State.reset.act = false ∧ Mode.encDman.scheme = .dman ∧ Mode.encAmi.scheme ≠ .dman := by decide

theorem witness_CommandOutOfPhaseOnlySetsProto : (inFrame .encNrzl).act = true ∧ State.reset.act = false := by decide

/-- An open frame, an invalid byte on each side of the two symbols, and an aborted frame. -/
theorem witness_InvalidSymbolAbortsFrame :
    ((inFrame .encAmi).act = true ∧ (inFrame .encAmi).inv = false ∧ (inFrame .encAmi).mode.dir = .enc ∧
      (0x2F : Byte) ≠ 0x30 ∧ (0x2F : Byte) ≠ 0x31 ∧ (0x32 : Byte) ≠ 0x30 ∧ (0x32 : Byte) ≠ 0x31) ∧
    ({ inFrame .encAmi with inv := true }.act = true ∧ { inFrame .encAmi with inv := true }.inv = true) := by decide

/-- One open frame a clause; `test_end_flush` and `test_end_reports` run END on the boundary cases. -/
theorem witness_EndReleasesHeldItemsAndCloses :
    ({ inFrame .encAmi with inv := true }.act = true ∧ { inFrame .encAmi with inv := true }.inv = true) ∧
    ((inFrame .encAmiB8zs).act = true ∧ (inFrame .encAmiB8zs).inv = false ∧ (inFrame .encAmiB8zs).mode.dir = .enc ∧
      (inFrame .encAmiB8zs).mode.scr ≠ .off) ∧
    ((inFrame .encAmi).mode.dir = .enc ∧ (inFrame .encAmi).mode.scr = .off) ∧
    ((inFrame .decMan).mode = .decMan ∧ { inFrame .decMan with decHv := true }.decHv = true ∧
      (inFrame .decMan).decHv = false ∧ (inFrame .decDman).mode = .decDman) ∧
    ((inFrame .decAmi).act = true ∧ (inFrame .decAmi).inv = false ∧ (inFrame .decAmi).mode = .decAmi) := by decide

/-- The last clause: a frame without an item. -/
theorem witness_EndReleasesHeldItemsAndCloses_empty :
    { inFrame .encAmiB8zs with any := false }.act = true ∧ { inFrame .encAmiB8zs with any := false }.any = false ∧
    Inv { inFrame .encAmiB8zs with any := false } := by
  refine ⟨rfl, rfl, ?_⟩
  constructor <;> decide

theorem witness_NrzlEncodesLevelPerBit :
    (inFrame .encNrzl).act = true ∧ (inFrame .encNrzl).inv = false ∧ (inFrame .encNrzl).mode = .encNrzl := by decide

/-- Both values of `ENC_CUR`; and an idle state for the START. -/
theorem witness_NrziEncodesByInversion :
    ((inFrame .encNrzi).act = true ∧ (inFrame .encNrzi).inv = false ∧ (inFrame .encNrzi).mode = .encNrzi ∧
      (inFrame .encNrzi).encCur = .neg ∧ { inFrame .encNrzi with encCur := .pos }.encCur = .pos) ∧
    State.reset.act = false := by decide

theorem witness_ManchesterEncodesTwoLevels :
    (inFrame .encMan).act = true ∧ (inFrame .encMan).inv = false ∧ (inFrame .encMan).mode = .encMan := by decide

theorem witness_DiffManchesterEncodesByTransition :
    ((inFrame .encDman).act = true ∧ (inFrame .encDman).inv = false ∧ (inFrame .encDman).mode = .encDman) ∧
    State.reset.act = false := by decide

theorem witness_AmiEncodesAlternatingPulses :
    ((inFrame .encAmi).act = true ∧ (inFrame .encAmi).inv = false ∧ (inFrame .encAmi).mode = .encAmi) ∧
    ((inFrame .encAmiHdb3).act = true ∧ (inFrame .encAmiHdb3).inv = false ∧ (inFrame .encAmiHdb3).mode.dir = .enc ∧
      (inFrame .encAmiHdb3).mode.scheme = .ami) ∧
    (State.reset.act = false ∧ Mode.encAmiB8zs.dir = .enc ∧ Mode.encAmiB8zs.scheme = .ami) := by decide

/-- Seven, six and no held zeros. -/
theorem witness_B8zsHoldsZerosAndSubstitutes :
    (inFrame .encAmiB8zs).act = true ∧ (inFrame .encAmiB8zs).inv = false ∧ (inFrame .encAmiB8zs).mode = .encAmiB8zs ∧
    { inFrame .encAmiB8zs with scrZc := 7 }.scrZc = 7 ∧ { inFrame .encAmiB8zs with scrZc := 6 }.scrZc.val < 7 ∧
    (inFrame .encAmiB8zs).scrZc.val < 7 := by decide

/-- Three held zeros at each parity, two, and none. -/
theorem witness_Hdb3HoldsZerosAndSubstitutes :
    (inFrame .encAmiHdb3).act = true ∧ (inFrame .encAmiHdb3).inv = false ∧ (inFrame .encAmiHdb3).mode = .encAmiHdb3 ∧
    ({ inFrame .encAmiHdb3 with scrZc := 3 }.scrZc.val ≤ 3 ∧ { inFrame .encAmiHdb3 with scrZc := 3 }.scrPar = false) ∧
    ({ inFrame .encAmiHdb3 with scrZc := 3, scrPar := true }.scrZc = 3 ∧
      { inFrame .encAmiHdb3 with scrZc := 3, scrPar := true }.scrPar = true) ∧
    { inFrame .encAmiHdb3 with scrZc := 2 }.scrZc.val < 3 ∧ (inFrame .encAmiHdb3).scrZc.val < 3 := by decide

theorem witness_ScramblerStageComputesTheScan :
    ((inFrame .encAmiB8zs).scrZc = 0 ∧ (inFrame .encAmiB8zs).scrPol = .pos ∧ (inFrame .encAmiB8zs).scrPar = false ∧
      (inFrame .encAmiB8zs).mode.scr = .b8zs) ∧
    ((inFrame .encAmiHdb3).scrZc = 0 ∧ (inFrame .encAmiHdb3).scrPol = .pos ∧ (inFrame .encAmiHdb3).scrPar = false ∧
      (inFrame .encAmiHdb3).mode.scr = .hdb3) := by decide

/-- The first and the last level of a sequence. -/
theorem witness_ScansKeepLengthAndPulses :
    ([-1, 0, 0, 0, 0, 1] : List Int)[0]? = some (-1) ∧ (-1 : Int) ≠ 0 ∧ ([-1, 0, 0, 0, 0, 1] : List Int)[5]? = some 1 ∧
    (1 : Int) ≠ 0 := by decide

theorem witness_ScrambledAmiDoesNotRoundTrip :
    List.replicate 8 false <:+: (true :: List.replicate 9 false) ∧
    List.replicate 4 false <:+: [true, false, false, false, false, true] :=
  ⟨⟨[true], [false], by decide⟩, ⟨[true], [true], by decide⟩⟩

theorem witness_NrzlDecodesBySign :
    (inFrame .decNrzl).act = true ∧ (inFrame .decNrzl).inv = false ∧ (inFrame .decNrzl).mode = .decNrzl ∧
    (0x7F : Byte).toInt > 0 ∧ ¬ (0x00 : Byte).toInt > 0 ∧ ¬ (0x80 : Byte).toInt > 0 := by decide

theorem witness_NrziDecodesByChange :
    (inFrame .decNrzi).act = true ∧ (inFrame .decNrzi).inv = false ∧ (inFrame .decNrzi).mode = .decNrzi ∧
    (0xFF : Byte).toInt = (inFrame .decNrzi).decPrev.toInt ∧ (0x00 : Byte).toInt ≠ (inFrame .decNrzi).decPrev.toInt ∧
    State.reset.act = false := by decide

theorem witness_ManchesterDecodesPairs :
    (inFrame .decMan).act = true ∧ (inFrame .decMan).inv = false ∧ (inFrame .decMan).mode = .decMan ∧
    (inFrame .decMan).decHv = false ∧ { inFrame .decMan with decHv := true, decHd := 0xFF }.decHv = true ∧
    State.reset.act = false := by decide

theorem witness_DiffManchesterDecodesGroups :
    (inFrame .decDman).act = true ∧ (inFrame .decDman).inv = false ∧ (inFrame .decDman).mode = .decDman ∧
    (inFrame .decDman).decHv = false ∧ { inFrame .decDman with decHv := true, decHd := 0x01 }.decHv = true ∧
    State.reset.act = false := by decide

theorem witness_AmiDecodesByNonZero :
    (inFrame .decAmi).act = true ∧ (inFrame .decAmi).inv = false ∧ (inFrame .decAmi).mode = .decAmi := by decide

/-- START and END complete in both phases, in aborted, unscrambled and single-level frames. -/
theorem witness_StartAndEndFrameRule :
    exec Mode.encAmi.start State.reset = .next (start .encAmi State.reset) ∧
    exec Mode.encAmi.start (inFrame .decMan) = .next (protocolError (inFrame .decMan)) ∧ (inFrame .decMan).act = true ∧
    exec .endFrame (inFrame .encAmi) = .next (closeFrame (inFrame .encAmi)) ∧
    exec .endFrame State.reset = .next (protocolError State.reset) ∧ State.reset.act = false ∧
    ({ inFrame .encAmiB8zs with inv := true }.inv = true ∧ (inFrame .encAmi).mode.scr = .off) ∧
    pairDecoder (inFrame .encAmi).mode = false :=
  ⟨rfl, rfl, rfl, rfl, rfl, rfl, ⟨rfl, rfl⟩, rfl⟩

/-- A PUSH completes while idle, in an encode frame and in a decode frame; a mode for each of the last clauses. -/
theorem witness_PushFrameRule :
    exec (.push 0x31) State.reset = .next (protocolError State.reset) ∧ State.reset.act = false ∧
    exec (.push 0x31) (inFrame .encAmi) = .next (push 0x31 (inFrame .encAmi)) ∧ (inFrame .encAmi).act = true ∧
    exec (.push 0x31) (inFrame .decMan) = .next (push 0x31 (inFrame .decMan)) ∧
    (inFrame .encAmi).mode.dir = .enc ∧ (inFrame .decMan).mode.dir = .dec ∧ (inFrame .encAmi).mode.scheme ≠ .nrzi ∧
    (inFrame .encAmi).mode.scheme ≠ .dman ∧ (inFrame .decMan).mode.scheme ≠ .ami ∧ (inFrame .encAmi).mode.scr = .off ∧
    (inFrame .encAmiB8zs).mode.scr ≠ .hdb3 ∧ (inFrame .encAmi).mode.scheme ≠ .man :=
  ⟨rfl, rfl, rfl, rfl, rfl, rfl, rfl, by decide, by decide, by decide, rfl, by decide, by decide⟩

theorem witness_PlainReadsAndIgnoredWrites :
    (withHost [.read .status] State.reset).host = .read .status :: [] ∧
    (withHost [.read .cmd] State.reset).host = .read .cmd :: [] ∧
    (withHost [.write .status 0xFFFF] State.reset).host = .write .status 0xFFFF :: [] ∧
    (withHost [.write .out 0x01FF] State.reset).host = .write .out 0x01FF :: [] := by decide

/-- A queue of one byte, of none, and reads in an open frame. -/
theorem witness_OutReadPopsTheHead :
    (withHost [.read .out] { inFrame .encAmi with out := [0xFF] }).host = .read .out :: [] ∧
    { inFrame .encAmi with out := [0xFF] }.out = 0xFF :: [] ∧
    (withHost [.read .out] State.reset).host = .read .out :: [] ∧ State.reset.out = [] := by decide

/-- The window's first and last places. -/
theorem witness_RegisterWindowPorts :
    (withHost [.bus ⟨.write 0x1004, 16, Config.regBase⟩] State.reset).host =
      .bus ⟨.write 0x1004, 16, Config.regBase⟩ :: [] ∧
    (withHost [.bus ⟨.read, 16, Config.regBase⟩] State.reset).host = .bus ⟨.read, 16, Config.regBase⟩ :: [] ∧
    (withHost [.bus ⟨.read, 16, Config.regBase + 2⟩] State.reset).host = .bus ⟨.read, 16, Config.regBase + 2⟩ :: [] ∧
    (withHost [.bus ⟨.read, 16, Config.regBase + 4⟩] State.reset).host = .bus ⟨.read, 16, Config.regBase + 4⟩ :: [] ∧
    (withHost [.bus ⟨.read, 16, Config.regBase + 6⟩] State.reset).host = .bus ⟨.read, 16, Config.regBase + 6⟩ :: [] ∧
    (6 : Nat) ∈ [2, 4, 6] ∧
    (withHost [.bus ⟨.write 0x1004, 16, Config.regBase + 6⟩] State.reset).host =
      .bus ⟨.write 0x1004, 16, Config.regBase + 6⟩ :: [] :=
  ⟨rfl, rfl, rfl, rfl, rfl, by decide, rfl⟩

/-- A fetch at the first place, a byte read of the last byte, a 32-bit read at the base, a 16-bit read at the window's
first and last odd offsets. -/
theorem witness_WindowRefusesOtherAccesses :
    BusAccess.touchesWindow ⟨.fetch, 16, Config.regBase⟩ = true ∧
    BusAccess.touchesWindow ⟨.read, 8, Config.regBase + 7⟩ = true ∧
    BusAccess.touchesWindow ⟨.read, 32, Config.regBase⟩ = true ∧
    (BusAccess.touchesWindow ⟨.read, 16, Config.regBase + 1⟩ = true ∧
      (Config.regBase + 1) % 2 ≠ Config.regBase % 2) ∧
    (BusAccess.touchesWindow ⟨.read, 16, Config.regBase + 7⟩ = true ∧
      (Config.regBase + 7) % 2 ≠ Config.regBase % 2) ∧
    BusKind.read ≠ .fetch ∧
    (withHost [.bus ⟨.fetch, 16, Config.regBase⟩] State.reset).host = .bus ⟨.fetch, 16, Config.regBase⟩ :: [] := by
  refine ⟨?_, ?_, ?_, ⟨?_, by omega⟩, ⟨?_, by omega⟩, by decide, rfl⟩
  all_goals
    simp [BusAccess.touchesWindow, BusAccess.bytes, Config.windowBytes]
    try omega

/-- An empty queue and one of two bytes. -/
theorem witness_DrainReadsTheWholeQueue :
    (withHost [.read .out] State.reset).host = List.replicate (State.reset.out.length + 1) (.read .out) ++ [] ∧
    (withHost [.read .out, .read .out, .read .out, .read .status] { State.reset with out := [0x01, 0xFF] }).host =
      List.replicate ({ State.reset with out := [0x01, 0xFF] }.out.length + 1) (.read .out) ++ [.read .status] := by
  decide

/-- A state in the middle of a B8ZS frame, which a step leads on. -/
theorem witness_InvariantKeptByEveryStep :
    Inv (withHost [.write .cmd 0x2030] { inFrame .encAmiB8zs with scrZc := 7, out := [0x00] }) ∧
    (look (step (withHost [.write .cmd 0x2030] { inFrame .encAmiB8zs with scrZc := 7 }))).isSome = true := by
  refine ⟨?_, by decide⟩
  constructor <;> decide

/-- ILL cleared by a START, and by a reset. -/
theorem witness_FlagsClearedOnlyByStartOrReset :
    (Inv (withHost [.write .cmd 0x1000] { State.reset with ill := true }) ∧
      step (withHost [.write .cmd 0x1000] { State.reset with ill := true }) = .next (start .encNrzl State.reset) ∧
      (withHost [.write .cmd 0x1000] { State.reset with ill := true }).flag .illegalCommand = true ∧
      (start .encNrzl State.reset).flag .illegalCommand = false) ∧
    step (withHost [.reset] { State.reset with ill := true }) = .next State.reset := by
  refine ⟨⟨?_, rfl, rfl, rfl⟩, rfl⟩
  constructor <;> decide

/-- ACT set by a START, cleared by an END. -/
theorem witness_ActSetByStartClearedByEnd :
    (step (withHost [.write .cmd 0x1004] State.reset) = .next (start .encAmi State.reset) ∧
      (withHost [.write .cmd 0x1004] State.reset).act ≠ (start .encAmi State.reset).act) ∧
    (step (withHost [.write .cmd 0x3000] (inFrame .encAmi)) = .next (closeFrame (inFrame .encAmi)) ∧
      (withHost [.write .cmd 0x3000] (inFrame .encAmi)).act ≠ (closeFrame (inFrame .encAmi)).act) :=
  ⟨⟨rfl, by decide⟩, ⟨rfl, by decide⟩⟩

/-- The mode changed by a START, and by a reset. -/
theorem witness_ModeLatchedByStart :
    (step (withHost [.write .cmd 0x1004] State.reset) = .next (start .encAmi State.reset) ∧
      (start .encAmi State.reset).mode ≠ (withHost [.write .cmd 0x1004] State.reset).mode) ∧
    (step (withHost [.reset] (inFrame .decAmi)) = .next State.reset ∧
      State.reset.mode ≠ (withHost [.reset] (inFrame .decAmi)).mode) :=
  ⟨⟨rfl, by decide⟩, ⟨rfl, by decide⟩⟩

/-- Each flag set by a word, from a state that keeps the invariant. -/
theorem witness_OneWordRaisesAtMostOneCondition :
    Inv (inFrame .encAmi) ∧ (inFrame .encAmi).flag .invalidSymbol = false ∧
    (look (executeWord 0x4000 State.reset)).map (fun t => t.flag .illegalCommand) = some true ∧
    (look (executeWord 0x3000 State.reset)).map (fun t => t.flag .protocolError) = some true ∧
    (look (executeWord 0x2000 (inFrame .encAmi))).map (fun t => t.flag .invalidSymbol) = some true ∧
    (look (executeWord 0x3000 { inFrame .decMan with decHv := true })).map (fun t => t.flag .truncatedSequence) =
      some true ∧
    (look (executeWord 0x3000 (start .encAmi State.reset))).map (fun t => t.flag .emptyInput) = some true ∧
    exec .endFrame (inFrame .encAmi) = .next (closeFrame (inFrame .encAmi)) := by
  refine ⟨?_, by decide, by decide, by decide, by decide, by decide, by decide, rfl⟩
  constructor <;> decide

/-- A reset of a queue that is not empty, a PUSH that emits, and an OUT read. -/
theorem witness_OutputIsFirstInFirstOut :
    step (withHost [.reset] { State.reset with out := [0x01] }) = .next State.reset ∧
    (look (step (withHost [.write .cmd 0x2031] (inFrame .encNrzl)))).map stream = some [0x01] ∧
    (look (step (withHost [.read .out] { State.reset with out := [0x01] }))).map stream = some [0x01] :=
  ⟨rfl, by decide, by decide⟩

/-- Eight bytes from a PUSH, seven from an END. -/
theorem witness_EmissionBounds :
    (look (exec (.push 0x30) { inFrame .encAmiB8zs with scrZc := 7 })).map (fun t => t.out.length) = some 8 ∧
    (look (exec .endFrame { inFrame .encAmiB8zs with scrZc := 7 })).map (fun t => t.out.length) = some 7 := by decide

/-- Two idle states that differ in the running state, and a START that opens a frame in both. -/
theorem witness_IdleRunningStateIsUnobservable :
    (withHost [.write .cmd 0x1014] State.reset).act = false ∧
    sameVisible (withHost [.write .cmd 0x1014] State.reset)
      (withHost [.write .cmd 0x1014]
        { State.reset with any := true, encCur := .pos, amiLast := .neg, scrPol := .neg, scrPar := true, scrZc := 7,
                           decPrev := 0x55, decHv := true, decHd := 0xAA }) ∧
    step (withHost [.write .cmd 0x1014] State.reset) = .next (start .encAmiHdb3 State.reset) ∧
    (start .encAmiHdb3 State.reset).act = true :=
  ⟨rfl, by unfold sameVisible; decide, rfl, rfl⟩

/-- A START while idle, a PUSH in a frame, an OUT read and a window read. -/
theorem witness_DutifulHostRaisesNoInterfaceCondition :
    dutiful State.reset (.write .cmd 0x1000) = true ∧ dutiful (inFrame .encAmi) (.write .cmd 0x2030) = true ∧
    dutiful State.reset (.read .out) = true ∧
    dutiful State.reset (.bus ⟨.read, 16, Config.regBase + 2⟩) = true ∧
    (withHost [.write .cmd 0x1000] State.reset).host = .write .cmd 0x1000 :: [] := by
  refine ⟨by decide, by decide, by decide, ?_, rfl⟩
  simp [dutiful, HostAccess.commandWord, BusAccess.inContract, BusAccess.evenOffset]

/-- An empty body, and one with a NOP, an illegal word, an invalid symbol and a START in it. -/
theorem witness_FrameResultIsTheSourceFunction :
    State.reset.act = false ∧ (∀ w ∈ ([] : List Word), decode w ≠ .ok .endFrame) ∧
    ∀ w ∈ [(0x2031 : Word), 0x0000, 0x4000, 0x2078, 0x1002], decode w ≠ .ok .endFrame := by
  simp only [List.forall_mem_cons, List.not_mem_nil, false_imp_iff, implies_true]
  decide

/-- A B8ZS frame that has consumed "10", with an ended frame (PR4's) before it, at its END. -/
theorem witness_FrameTraceStaysSound :
    (withHost [.write .cmd 0x3000] (replay .encAmiB8zs [0x31, 0x30])).host = .write .cmd 0x3000 :: [] ∧
    TraceInv (withHost [.write .cmd 0x3000] (replay .encAmiB8zs [0x31, 0x30]))
      ⟨[0x31, 0x30], [0xFF], [⟨.decMan, [0xFF, 0x01, 0x01], .ok [0x31] true false⟩]⟩ ∧
    (look (step (withHost [.write .cmd 0x3000] (replay .encAmiB8zs [0x31, 0x30])))).map State.out =
      some [0xFF, 0x00] := by
  refine ⟨rfl, ⟨fun _ => ⟨rfl, by decide⟩, ?_⟩, by decide⟩
  simp only [List.mem_singleton, forall_eq]
  decide

theorem witness_FrameTraceSoundAtBeginning : State.reset.act = false := rfl

theorem witness_RoundTripOfEveryScheme : State.reset.act = false ∧ { State.reset with ill := true }.act = false := by
  decide

/-- A sequence with the level 0. -/
theorem witness_EncodeLengthAndLevels : (0 : Int) ∈ encodeRef .ami [true, false] := by decide

theorem witness_DecodeFrameOutput : State.reset.act = false := rfl

theorem witness_HostWritesRunInOrder :
    (withHost [.write .cmd 0x1000, .write .cmd 0x2031, .read .out] State.reset).host =
      [0x1000, 0x2031].map (HostAccess.write .cmd) ++ [.read .out] := by decide

/-- A full queue of eight bytes whose next command is held, an empty one whose next command is taken; at depth 1 a command
that just fits and one that just does not; an OUT read and a reset with the queue full, which are no commands. -/
theorem witness_FiniteQueueHoldsAndNeverDrops :
    ((withHost [.write .cmd 0x2031] { inFrame .encNrzl with out := List.replicate 8 0x01 }).out.length ≤ 8 ∧
      look (stepBounded 8 (withHost [.write .cmd 0x2031] { inFrame .encNrzl with out := List.replicate 8 0x01 })) =
        some (withHost [.write .cmd 0x2031] { inFrame .encNrzl with out := List.replicate 8 0x01 })) ∧
    ((inFrame .encNrzl).out.length ≤ 8 ∧ (inFrame .encNrzl).out = [] ∧
      shown (stepBounded 8 (withHost [.write .cmd 0x2031] (inFrame .encNrzl))) = some (0x0041, [0x01])) ∧
    ((HostAccess.write .cmd 0x2031).commandWord = some 0x2031 ∧
      (look (step (withHost [.write .cmd 0x2031] (inFrame .encNrzl)))).map (fun t => t.out.length) = some 1 ∧
      (look (step (withHost [.write .cmd 0x2031] (inFrame .encMan)))).map (fun t => t.out.length) = some 2) ∧
    (withHost [.read .out] { State.reset with out := [0x01] }).host = .read .out :: [] ∧
    (HostAccess.read .out).commandWord = none ∧ HostAccess.reset.commandWord = none :=
  ⟨⟨by decide, by decide⟩, ⟨by decide, by decide, by decide⟩, ⟨by decide, by decide, by decide⟩, rfl, rfl, rfl⟩

/-- A character of code 255, the extreme levels, and a mode of each direction. -/
theorem witness_PseudoInstructionsExpand :
    (∀ c ∈ ['0', 'ÿ'], c.toNat < 256) ∧ (∀ v ∈ [(-128 : Int), 0, 127], -128 ≤ v ∧ v ≤ 127) ∧
    Mode.encAmiB8zs.dir = .enc ∧ Mode.decDman.dir = .dec := by
  simp only [List.forall_mem_cons, List.not_mem_nil, false_imp_iff, implies_true]
  decide

/-- A line of each kind in mixed case, and the extreme numbers. -/
theorem witness_EveryCommandHasAssemblerText :
    (("START ENC AMI B8ZS", 0x100C, Instr.startEncAmiB8zs) ∈ Asm.commandLines ∧
      "Start enc Ami b8zs".toList.map Char.toUpper = "START ENC AMI B8ZS".toList) ∧
    "push 0xfF".toList.map Char.toUpper = "PUSH 0X".toList ++ Asm.hexText 2 (0xFF : Byte).toNat ∧
    "push 127".toList.map Char.toUpper = "PUSH ".toList ++ Nat.toDigits 10 127 ∧
    "Push +0".toList.map Char.toUpper = "PUSH +".toList ++ Nat.toDigits 10 0 ∧
    "push -128".toList.map Char.toUpper = "PUSH -".toList ++ Nat.toDigits 10 128 ∧
    ".word 0xa0B1".toList.map Char.toUpper = ".WORD 0X".toList ++ Asm.hexText 4 (0xA0B1 : Word).toNat := by decide

/-- A line, a line with a literal, one without quotes that is an error, another character, and the first numbers outside. -/
theorem witness_AssemblerLinesCommentsAndErrors :
    '\n' ∉ "END".toList ∧ Asm.assembleLine "PUSH '0'".toList = some [0x2030] ∧
    ('\'' ∉ "PUSH 0x100".toList ∧ '"' ∉ "PUSH 0x100".toList) ∧ ('2' ≠ '0' ∧ '2' ≠ '1') ∧ 127 < 128 ∧ 128 < 129 := by
  decide

end Sys2Proof.Tests
end

section
/-! SUPPORT. The levels as the two's-complement readings of the bytes (R10), and the obligation O6 on level and symbol
bytes (R10, R11). -/

namespace Sys2Proof

theorem neg_128_le_lv (x : Byte) : -128 ≤ lv x := by
  rw [lv_eq_toInt]
  exact x.le_toInt

theorem lv_le_127 (x : Byte) : lv x ≤ 127 := by
  rw [lv_eq_toInt]
  exact Int.le_of_lt_add_one x.toInt_lt

@[simp] theorem code_lv (x : Byte) : code (lv x) = x := by
  rw [lv_eq_toInt, code, BitVec.ofInt_toInt]

theorem lv_code {v : Int} (hlo : -128 ≤ v) (hhi : v ≤ 127) : lv (code v) = v := by
  rw [lv_eq_toInt, code]
  exact BitVec.toInt_ofInt_eq_self (by decide) hlo (Int.lt_add_one_of_le hhi)

@[simp] theorem code_neg_one : code (-1) = 0xFF := by decide

@[simp] theorem code_one : code 1 = 0x01 := by decide

/-- Settles O6: `lv` is the two's-complement reading of a byte and `code` the byte of an integer, so each undoes the
other in a byte's range; the symbol clauses are the laws of `bit`. -/
theorem levelAndSymbolBytes : Obligations.LevelAndSymbolBytes :=
  ⟨fun x => ⟨neg_128_le_lv x, lv_le_127 x, code_lv x⟩,
    fun _ hlo hhi => lv_code hlo hhi,
    ⟨code_neg_one, code_zero, code_one⟩,
    bit_sym,
    fun _ => bit_eq_none⟩

end Sys2Proof
end

section
/-! SUPPORT. What each command changes in the state, in one record update, and the fields it leaves alone (R92 to R97). -/

namespace Sys2Proof.Machine

/-! ### PUSH -/

/-- R94: what a PUSH in an open frame writes; `INV` is never cleared by it. -/
theorem push_writes (x : Byte) (s : State) :
    ∃ inv ys cur last pol par zc prev hv hd,
      push x s = { s with
        any := true, inv := inv, out := s.out ++ ys, encCur := cur, amiLast := last, scrPol := pol, scrPar := par,
        scrZc := zc, decPrev := prev, decHv := hv, decHd := hd } ∧ (s.inv = true → inv = true) := by
  rcases push_cases x s with ⟨hi, e⟩ | ⟨hi, -, e⟩ | ⟨hi, -, e⟩
  · exact ⟨s.inv, [], s.encCur, s.amiLast, s.scrPol, s.scrPar, s.scrZc, s.decPrev, s.decHv, s.decHd, by simp [e], id⟩
  · rcases encPush_cases x { s with any := true } with ⟨-, e2⟩ | ⟨b, -, e2⟩
    · exact ⟨true, [], s.encCur, s.amiLast, s.scrPol, s.scrPar, s.scrZc, s.decPrev, s.decHv, s.decHd,
        by simp [e, e2], fun _ => rfl⟩
    · obtain ⟨ys, cur, last, pol, par, zc, e3, -⟩ := mapBit_writes b { s with any := true }
      exact ⟨s.inv, ys, cur, last, pol, par, zc, s.decPrev, s.decHv, s.decHd, by rw [e, e2, e3], id⟩
  · obtain ⟨ys, prev, hv, hd, e2, -⟩ := decPush_writes x { s with any := true }
    exact ⟨s.inv, ys, s.encCur, s.amiLast, s.scrPol, s.scrPar, s.scrZc, prev, hv, hd, by rw [e, e2], id⟩

@[simp] theorem push_act (x : Byte) (s : State) : (push x s).act = s.act := by
  obtain ⟨_, _, _, _, _, _, _, _, _, _, e, -⟩ := push_writes x s
  rw [e]

@[simp] theorem push_mode (x : Byte) (s : State) : (push x s).mode = s.mode := by
  obtain ⟨_, _, _, _, _, _, _, _, _, _, e, -⟩ := push_writes x s
  rw [e]

@[simp] theorem push_replies (x : Byte) (s : State) : (push x s).replies = s.replies := by
  obtain ⟨_, _, _, _, _, _, _, _, _, _, e, -⟩ := push_writes x s
  rw [e]

/-- R45: a PUSH clears no flag. -/
theorem flag_push {s : State} {c : Condition} (x : Byte) (h : s.flag c = true) : (push x s).flag c = true := by
  obtain ⟨_, _, _, _, _, _, _, _, _, _, e, hinv⟩ := push_writes x s
  rw [e]
  cases c with
  | invalidSymbol => exact hinv h
  | _ => exact h

/-! ### END -/

/-- R96: what an END of an open frame writes. It flushes and clears held zeros only in a scrambled frame that is not
aborted, and drops a held level and sets `TRUNC` only in a pair decoder's frame; it never clears `TRUNC`. -/
theorem closeFrame_writes (s : State) :
    ∃ n trunc zc hv, closeFrame s = { s with
        act := false, empty := !s.any, trunc := trunc, out := s.out ++ List.replicate n 0x00, scrZc := zc, decHv := hv } ∧
      n ≤ 7 ∧ (s.trunc = true → trunc = true) ∧
      (s.inv = true ∨ s.mode.scr = .off → n = 0 ∧ zc = s.scrZc) ∧
      (pairDecoder s.mode = false → trunc = s.trunc ∧ hv = s.decHv) := by
  rcases closeFrame_eq s with ⟨hi, e⟩ | ⟨hi, e⟩
  · exact ⟨0, s.trunc, s.scrZc, s.decHv, by simp [e], by simp, id, by simp, by simp⟩
  · rcases releaseHeld_cases s with ⟨-, hs, e2⟩ | ⟨hp, -, e2⟩ | ⟨e2, -, -⟩
    · refine ⟨s.scrZc.val, s.trunc, 0, s.decHv, ?_, by omega, id, by simp [hi, hs], by simp⟩
      rw [e, e2]
      rfl
    · refine ⟨0, true, s.scrZc, false, ?_, by simp, fun _ => rfl, by simp, by simp [hp]⟩
      simp [e, e2, dropUnpaired, setFlag]
    · exact ⟨0, s.trunc, s.scrZc, s.decHv, by simp [e, e2], by simp, id, by simp, by simp⟩

@[simp] theorem closeFrame_mode (s : State) : (closeFrame s).mode = s.mode := by
  obtain ⟨_, _, _, _, e, -⟩ := closeFrame_writes s
  rw [e]

@[simp] theorem closeFrame_replies (s : State) : (closeFrame s).replies = s.replies := by
  obtain ⟨_, _, _, _, e, -⟩ := closeFrame_writes s
  rw [e]

/-- R45: END clears no flag of an open frame, whose `EMPTY` is 0 (R26). -/
theorem flag_closeFrame {s : State} {c : Condition} (he : s.empty = false) (h : s.flag c = true) :
    (closeFrame s).flag c = true := by
  obtain ⟨_, _, _, _, e, -, htrunc, -⟩ := closeFrame_writes s
  rw [e]
  cases c with
  | truncatedSequence => exact htrunc h
  | emptyInput => exact absurd (he.symm.trans h) (by decide)
  | _ => exact h

/-! ### Interface conditions and reads -/

theorem flag_protocolError {s : State} {c : Condition} (h : s.flag c = true) : (protocolError s).flag c = true := by
  cases c with
  | protocolError => rfl
  | _ => exact h

theorem flag_illegal {s : State} {c : Condition} (h : s.flag c = true) : (illegal s).flag c = true := by
  cases c with
  | illegalCommand => rfl
  | _ => exact h

@[simp] theorem readPort_act (p : Port) (s : State) : (readPort p s).act = s.act := by cases p <;> rfl

@[simp] theorem readPort_mode (p : Port) (s : State) : (readPort p s).mode = s.mode := by cases p <;> rfl

/-- R39, R53 to R55: no flag clears on read. -/
@[simp] theorem readPort_flag (p : Port) (s : State) (c : Condition) : (readPort p s).flag c = s.flag c := by
  cases p <;> rfl

/-! ### What a word and a step can do -/

/-- The effects a word written to CMD can have (R81, R91 to R98). -/
inductive WordEffect (w : Word) (s : State) : State → Prop where
  | nop (hd : decode w = .ok .nop) : WordEffect w s s
  | start (m : Mode) (hd : decode w = .ok m.start) (ha : s.act = false) : WordEffect w s (start m s)
  | push (x : Byte) (hd : decode w = .ok (.push x)) (ha : s.act = true) : WordEffect w s (push x s)
  | close (hd : decode w = .ok .endFrame) (ha : s.act = true) : WordEffect w s (closeFrame s)
  | outOfPhase (i : Instr) (hd : decode w = .ok i) (hp : allowedInPhase i s.act = false) :
      WordEffect w s (protocolError s)
  | illegal (e : DecodeError) (hd : decode w = .error e) : WordEffect w s (illegal s)

theorem wordEffect_of_executeWord {w : Word} {s t : State} (h : executeWord w s = .next t) : WordEffect w s t := by
  rcases executeWord_cases h with ⟨i, hd, hx⟩ | ⟨e, hd, rfl⟩
  · rcases exec_cases hx with ⟨rfl, rfl⟩ | ⟨m, rfl, ha, rfl⟩ | ⟨x, rfl, ha, rfl⟩ | ⟨rfl, ha, rfl⟩ | ⟨hp, rfl⟩
    · exact .nop hd
    · exact .start m hd ha
    · exact .push x hd ha
    · exact .close hd ha
    · exact .outOfPhase i hd hp
  · exact .illegal e hd

/-- The effects a step can have (R52 to R60, R191); the host's access is taken before LCC acts on it. -/
inductive StepEffect (s : State) : State → Prop where
  | idle (hh : s.host = []) : StepEffect s s
  | command {a : HostAccess} {rest : List HostAccess} {w : Word} {t : State} (hh : s.host = a :: rest)
      (hw : a.commandWord = some w) (he : WordEffect w { s with host := rest } t) : StepEffect s t
  | read {a : HostAccess} {rest : List HostAccess} (hh : s.host = a :: rest) (hw : a.commandWord = none) (p : Port) :
      StepEffect s (readPort p { s with host := rest })
  | ignored {a : HostAccess} {rest : List HostAccess} (hh : s.host = a :: rest) (hw : a.commandWord = none) :
      StepEffect s { s with host := rest }
  | reset {rest : List HostAccess} (hh : s.host = .reset :: rest) : StepEffect s (resetLcc { s with host := rest })

theorem stepEffect_of_step {s t : State} (h : step s = .next t) : StepEffect s t := by
  rcases step_cases h with ⟨hh, rfl⟩ | ⟨a, rest, hh, ht⟩
  · exact .idle hh
  · rcases hostAccess_cases ht with ⟨w, hw, hx⟩ | ⟨hw, -, p, rfl⟩ | ⟨hw, -, rfl⟩ | ⟨rfl, rfl⟩
    · exact .command hh hw (wordEffect_of_executeWord hx)
    · exact .read hh hw p
    · exact .ignored hh hw
    · exact .reset hh

end Sys2Proof.Machine
end

section
/-! SUPPORT. The invariant between commands (R44) and what keeps it: the updates of the interface's fields, the mappers
and inverse mappers, PUSH, END and START; and the obligations O40 and O41. -/

namespace Sys2Proof.Machine

/-! ### The scrambler's two clauses -/

/-- R44 (b): the stage never holds more zeros than its scrambling allows. -/
theorem scrZc_stage_le {s : State} (v : Level) (h : s.scrZc.val ≤ heldLimit s.mode) :
    (stage v s).scrZc.val ≤ heldLimit s.mode := by
  cases hs : s.mode.scr with
  | off => simpa [stage_off hs] using h
  | b8zs =>
    simp only [heldLimit, hs]
    omega
  | hdb3 =>
    rw [stage_hdb3 hs]
    simp only [heldLimit, hs] at h ⊢
    rcases hdb3Step_cases v s with ⟨-, -, e⟩ | ⟨-, hne, e⟩ | ⟨p, -, e⟩
    · simp [e]
    · have hlt : s.scrZc.val < 3 := by omega
      rw [e]
      show (s.scrZc + 1).val ≤ 3
      rw [Fin.val_add]
      simp
      omega
    · simp [e]

/-- R134 (e): in B8ZS a zero leaves the scrambler's polarity, and a pulse becomes it. -/
theorem scrPol_stage_zero {s : State} (h : s.mode.scr = .b8zs) : (stage .zero s).scrPol = s.scrPol := by
  rw [stage_b8zs h]
  rcases b8zsStep_cases .zero s with ⟨-, -, e⟩ | ⟨-, -, e⟩ | ⟨_, hv, -⟩
  · simp [e]
  · simp [e]
  · cases hv

theorem scrPol_stage_pulse {s : State} (h : s.mode.scr = .b8zs) (p : Polarity) :
    (stage (.pulse p) s).scrPol = p := by
  rw [stage_b8zs h]
  rfl

theorem amiLast_stage (v : Level) (s : State) : (stage v s).amiLast = s.amiLast := by
  obtain ⟨_, _, _, _, e, -⟩ := stage_writes v s
  rw [e]

theorem scrZc_mapBit_le {s : State} (b : Bool) (h : s.scrZc.val ≤ heldLimit s.mode) :
    (mapBit b s).scrZc.val ≤ heldLimit s.mode := by
  rcases mapBit_cases b s with ⟨-, e⟩ | ⟨-, e⟩ | ⟨-, e⟩ | ⟨-, e⟩ | ⟨-, e⟩
  · exact e ▸ h
  · exact e ▸ h
  · exact e ▸ h
  · exact e ▸ h
  · rw [e]
    rcases ami_cases b s with ⟨-, e2⟩ | ⟨-, e2⟩
    · exact e2 ▸ scrZc_stage_le .zero h
    · exact e2 ▸ scrZc_stage_le (s := { s with amiLast := s.amiLast.flip }) _ h

theorem scrPol_mapBit_b8zs {s : State} (b : Bool) (hm : s.mode = .encAmiB8zs) (h : s.scrPol = s.amiLast) :
    (mapBit b s).scrPol = (mapBit b s).amiLast := by
  have hs : s.mode.scr = .b8zs := by rw [hm]; rfl
  have e : mapBit b s = ami b s := by simp [mapBit, hm, Mode.scheme]
  rw [e]
  rcases ami_cases b s with ⟨-, e2⟩ | ⟨-, e2⟩
  · rw [e2, scrPol_stage_zero hs, amiLast_stage, h]
  · rw [e2, scrPol_stage_pulse (s := { s with amiLast := s.amiLast.flip }) hs, amiLast_stage]

/-! ### The updates that keep the invariant -/

/-- R44 speaks neither of the interface's conditions, nor of the queue, nor of the host. -/
theorem Inv.interface {s : State} (h : Inv s) (ill proto : Bool) (out : List Byte) (host : List HostAccess)
    (replies : List Reply) :
    Inv { s with ill := ill, proto := proto, out := out, host := host, replies := replies } :=
  ⟨h.heldZeros, h.heldLevel, h.invEncodeOnly, h.truncPairOnly, h.openUnreported, h.emptyNoItem, h.noItemNothing,
    h.b8zsPolarity⟩

theorem inv_illegal {s : State} (h : Inv s) : Inv (illegal s) := h.interface true s.proto s.out s.host s.replies

theorem inv_protocolError {s : State} (h : Inv s) : Inv (protocolError s) :=
  h.interface s.ill true s.out s.host s.replies

theorem inv_readPort {s : State} (h : Inv s) (p : Port) : Inv (readPort p s) := by
  cases p <;> exact h.interface s.ill s.proto _ s.host _

/-- R29: consuming an item in an open frame, whose `EMPTY` is 0 (R26). -/
theorem Inv.consume {s : State} (h : Inv s) (ha : s.act = true) : Inv { s with any := true } where
  heldZeros := h.heldZeros
  heldLevel := h.heldLevel
  invEncodeOnly := h.invEncodeOnly
  truncPairOnly := h.truncPairOnly
  openUnreported := h.openUnreported
  emptyNoItem he := absurd ((h.openUnreported ha).2.symm.trans he) (by decide)
  noItemNothing hn := by cases hn
  b8zsPolarity := h.b8zsPolarity

/-- R112: aborting an encode frame. -/
theorem Inv.abort {s : State} (h : Inv s) (hn : s.any = true) (hd : s.mode.dir = .enc) : Inv { s with inv := true } where
  heldZeros := h.heldZeros
  heldLevel := h.heldLevel
  invEncodeOnly _ := hd
  truncPairOnly := h.truncPairOnly
  openUnreported := h.openUnreported
  emptyNoItem := h.emptyNoItem
  noItemNothing hn' := absurd (hn.symm.trans hn') (by decide)
  b8zsPolarity := h.b8zsPolarity

theorem inv_mapBit {s : State} (h : Inv s) (hn : s.any = true) (b : Bool) : Inv (mapBit b s) := by
  have hz := scrZc_mapBit_le b h.heldZeros
  have hp := fun hm => scrPol_mapBit_b8zs b hm (h.b8zsPolarity hm)
  obtain ⟨_, _, _, _, _, _, e, -⟩ := mapBit_writes b s
  rw [e] at hz hp ⊢
  exact { h with
    heldZeros := hz
    noItemNothing := fun hn' => absurd (hn.symm.trans hn') (by decide)
    b8zsPolarity := hp }

theorem inv_decPush {s : State} (h : Inv s) (hn : s.any = true) (hd : s.mode.dir = .dec) (x : Byte) :
    Inv (decPush x s) := by
  obtain ⟨_, _, _, _, e, -, -, hkeep⟩ := decPush_writes x s
  rw [e]
  refine { h with heldLevel := fun hv => ?_, noItemNothing := fun hn' => absurd (hn.symm.trans hn') (by decide) }
  by_cases h2 : samplesPerBit s.mode.scheme = 2
  · simp [pairDecoder, hd, h2]
  · exact h.heldLevel ((hkeep h2).1 ▸ hv)

theorem inv_push {s : State} (h : Inv s) (ha : s.act = true) (x : Byte) : Inv (push x s) := by
  have hc := h.consume ha
  rcases push_cases x s with ⟨-, e⟩ | ⟨-, hd, e⟩ | ⟨-, hd, e⟩
  · exact e ▸ hc
  · rw [e]
    rcases encPush_cases x { s with any := true } with ⟨-, e2⟩ | ⟨b, -, e2⟩
    · exact e2 ▸ hc.abort rfl hd
    · exact e2 ▸ inv_mapBit hc rfl b
  · exact e ▸ inv_decPush hc rfl hd x

/-- R26: reporting at END. -/
theorem Inv.report {s : State} (h : Inv s) : Inv { s with empty := !s.any, act := false } where
  heldZeros := h.heldZeros
  heldLevel := h.heldLevel
  invEncodeOnly := h.invEncodeOnly
  truncPairOnly := h.truncPairOnly
  openUnreported ha := by cases ha
  emptyNoItem he := by simpa using he
  noItemNothing := h.noItemNothing
  b8zsPolarity := h.b8zsPolarity

theorem inv_flushZeros {s : State} (h : Inv s) : Inv (flushZeros s) :=
  { h with
    heldZeros := Nat.zero_le _
    noItemNothing := fun hn => by
      obtain ⟨hi, ht, hv, -⟩ := h.noItemNothing hn
      exact ⟨hi, ht, hv, rfl⟩ }

/-- R158: dropping the level that a closed pair decoder's frame holds. -/
theorem inv_dropUnpaired {s : State} (h : Inv s) (ha : s.act = false) (hp : pairDecoder s.mode = true)
    (hv : s.decHv = true) : Inv (dropUnpaired s) :=
  { h with
    heldLevel := fun _ => hp
    truncPairOnly := fun _ => hp
    openUnreported := fun ha' => absurd (ha.symm.trans ha') (by decide)
    noItemNothing := fun hn => by
      obtain ⟨-, -, hv', -⟩ := h.noItemNothing hn
      exact absurd (hv'.symm.trans hv) (by decide) }

/-- R96: what END releases and what it reports are different fields, so it may as well report first. -/
theorem inv_closeFrame {s : State} (h : Inv s) : Inv (closeFrame s) := by
  rcases closeFrame_eq s with ⟨-, e⟩ | ⟨-, e⟩
  · exact e ▸ h.report
  · rw [e]
    rcases releaseHeld_cases s with ⟨-, -, e2⟩ | ⟨hp, hv, e2⟩ | ⟨e2, -⟩
    · rw [e2]
      exact inv_flushZeros h.report
    · rw [e2]
      exact inv_dropUnpaired h.report rfl hp hv
    · rw [e2]
      exact h.report

theorem inv_start (m : Mode) (s : State) : Inv (start m s) where
  heldZeros := Nat.zero_le _
  heldLevel hv := by cases hv
  invEncodeOnly hi := by cases hi
  truncPairOnly ht := by cases ht
  openUnreported _ := ⟨rfl, rfl⟩
  emptyNoItem he := by cases he
  noItemNothing _ := ⟨rfl, rfl, rfl, rfl⟩
  b8zsPolarity _ := rfl

theorem inv_reset : Inv State.reset where
  heldZeros := Nat.zero_le _
  heldLevel hv := by cases hv
  invEncodeOnly hi := by cases hi
  truncPairOnly ht := by cases ht
  openUnreported ha := by cases ha
  emptyNoItem he := by cases he
  noItemNothing _ := ⟨rfl, rfl, rfl, rfl⟩
  b8zsPolarity hm := by cases hm

theorem inv_wordEffect {w : Word} {s t : State} (h : Inv s) (he : WordEffect w s t) : Inv t := by
  cases he with
  | nop => exact h
  | start m => exact inv_start m s
  | push x _ ha => exact inv_push h ha x
  | close => exact inv_closeFrame h
  | outOfPhase => exact inv_protocolError h
  | illegal => exact inv_illegal h

/-- Settles O40: each effect a step can have keeps the invariant. -/
theorem invariantKeptByEveryStep : Obligations.InvariantKeptByEveryStep := by
  intro s t h hst
  have htaken : ∀ rest, Inv { s with host := rest } := fun rest => h.interface s.ill s.proto s.out rest s.replies
  cases stepEffect_of_step hst with
  | idle => exact h
  | command _ _ he => exact inv_wordEffect (htaken _) he
  | read _ _ p => exact inv_readPort (htaken _) p
  | ignored => exact htaken _
  | reset => exact inv_reset.interface false false [] _ _

/-- Settles O41: reset clears every flag and every hold. -/
theorem invariantHoldsAtReset : Obligations.InvariantHoldsAtReset := inv_reset

end Sys2Proof.Machine
end

section
/-! SUPPORT. Which accesses change the flags, `ACT` and the mode (R23, R30, R45): the obligations O42, O43 and O44. -/

namespace Sys2Proof.Machine

/-! ### One word -/

/-- R45: of the words, only an accepted START clears a flag. -/
theorem WordEffect.keeps_flag {w : Word} {s t : State} {c : Condition} (he : WordEffect w s t) (h : Inv s)
    (hc : s.flag c = true) : (∃ m : Mode, decode w = .ok m.start ∧ s.act = false) ∨ t.flag c = true := by
  cases he with
  | nop => exact .inr hc
  | start m hd ha => exact .inl ⟨m, hd, ha⟩
  | push x => exact .inr (flag_push x hc)
  | close _ ha => exact .inr (flag_closeFrame (h.openUnreported ha).2 hc)
  | outOfPhase => exact .inr (flag_protocolError hc)
  | illegal => exact .inr (flag_illegal hc)

/-- R23: of the words, only an accepted START and an accepted END change `ACT`. -/
theorem WordEffect.act_cases {w : Word} {s t : State} (he : WordEffect w s t) :
    t.act = s.act ∨ (s.act = false ∧ ∃ m : Mode, decode w = .ok m.start ∧ t.mode = m) ∨
    (s.act = true ∧ decode w = .ok .endFrame) := by
  cases he with
  | nop => exact .inl rfl
  | start m hd ha => exact .inr (.inl ⟨ha, m, hd, rfl⟩)
  | push x => exact .inl (push_act x s)
  | close hd ha => exact .inr (.inr ⟨ha, hd⟩)
  | outOfPhase => exact .inl rfl
  | illegal => exact .inl rfl

/-- R30: of the words, only an accepted START changes the mode. -/
theorem WordEffect.mode_cases {w : Word} {s t : State} (he : WordEffect w s t) :
    t.mode = s.mode ∨ (s.act = false ∧ ∃ m : Mode, decode w = .ok m.start ∧ t.mode = m) := by
  cases he with
  | nop => exact .inl rfl
  | start m hd ha => exact .inr ⟨ha, m, hd, rfl⟩
  | push x => exact .inl (push_mode x s)
  | close => exact .inl (closeFrame_mode s)
  | outOfPhase => exact .inl rfl
  | illegal => exact .inl rfl

/-! ### One step -/

/-- Settles O42: a read, an ignored access and every word but an accepted START keep a flag that is set. -/
theorem flagsClearedOnlyByStartOrReset : Obligations.FlagsClearedOnlyByStartOrReset := by
  intro s t c h hst hs ht
  have hlost : ¬ t.flag c = true := by simp [ht]
  cases stepEffect_of_step hst with
  | idle => exact absurd hs hlost
  | command hh hw he =>
    rcases he.keeps_flag (h.interface s.ill s.proto s.out _ s.replies) hs with ⟨m, hd, ha⟩ | hkept
    · exact ⟨_, _, hh, .inr ⟨_, m, hw, hd, ha⟩⟩
    · exact absurd hkept hlost
  | read _ _ p => exact (hlost ((readPort_flag p _ c).trans hs)).elim
  | ignored => exact absurd hs hlost
  | reset hh => exact ⟨_, _, hh, .inl rfl⟩

/-- Settles O43: only START, END and reset change `ACT`, each in the phase that its acceptance requires. -/
theorem actSetByStartClearedByEnd : Obligations.ActSetByStartClearedByEnd := by
  intro s t hst hne
  cases stepEffect_of_step hst with
  | idle => exact absurd rfl hne
  | command hh hw he =>
    rcases he.act_cases with hsame | ⟨ha, m, hd, hm⟩ | ⟨ha, hd⟩
    · exact absurd hsame.symm hne
    · exact ⟨_, _, hh, .inl ⟨ha, _, m, hw, hd, hm⟩⟩
    · exact ⟨_, _, hh, .inr ⟨ha, .inr ⟨_, hw, hd⟩⟩⟩
  | read _ _ p => exact absurd (by simp) hne
  | ignored => exact absurd rfl hne
  | reset hh => exact ⟨_, _, hh, .inr ⟨Bool.eq_true_of_not_eq_false hne, .inl rfl⟩⟩

/-- Settles O44: only START and reset change the mode. -/
theorem modeLatchedByStart : Obligations.ModeLatchedByStart := by
  intro s t hst hne
  cases stepEffect_of_step hst with
  | idle => exact absurd rfl hne
  | command hh hw he =>
    rcases he.mode_cases with hsame | ⟨ha, m, hd, hm⟩
    · exact absurd hsame hne
    · exact ⟨_, _, hh, .inr ⟨ha, _, m, hw, hd, hm⟩⟩
  | read _ _ p => exact absurd (by simp) hne
  | ignored => exact absurd rfl hne
  | reset hh => exact ⟨_, _, hh, .inl ⟨rfl, rfl⟩⟩

end Sys2Proof.Machine
end

section
/-! SUPPORT. The output queue: how much one command can emit (R94, R197), the bytes the host reads (R31, R101), and the
queue of finite depth (R197): the obligations O46 and O57. -/

namespace Sys2Proof.Machine

/-! ### What a command emits -/

/-- R130 to R137: a level makes the stage emit at most eight bytes, a whole B8ZS block or seven held zeros and a pulse. -/
theorem stage_emits (v : Level) (s : State) : ∃ ys, (stage v s).out = s.out ++ ys ∧ ys.length ≤ 8 := by
  cases h : s.mode.scr with
  | off => exact ⟨[code v.toInt], by simp [stage_off h], by simp⟩
  | b8zs =>
    rw [stage_b8zs h]
    rcases b8zsStep_cases v s with ⟨-, -, e⟩ | ⟨-, -, e⟩ | ⟨p, -, e⟩
    · exact ⟨b8zsBlock s.scrPol, by simp [e], by simp [b8zsBlock]⟩
    · exact ⟨[], by simp [e], by simp⟩
    · exact ⟨List.replicate s.scrZc.val 0x00 ++ [p.byte], by simp [e], by simp⟩
  | hdb3 =>
    rw [stage_hdb3 h]
    rcases hdb3Step_cases v s with ⟨-, -, e⟩ | ⟨-, -, e⟩ | ⟨p, -, e⟩
    · exact ⟨hdb3Block s.scrPar s.scrPol, by simp [e], by cases s.scrPar <;> simp [hdb3Block]⟩
    · exact ⟨[], by simp [e], by simp⟩
    · exact ⟨List.replicate s.scrZc.val 0x00 ++ [p.byte], by simp [e], by simp⟩

theorem mapBit_emits (b : Bool) (s : State) : ∃ ys, (mapBit b s).out = s.out ++ ys ∧ ys.length ≤ 8 := by
  rcases mapBit_cases b s with ⟨-, e⟩ | ⟨-, e⟩ | ⟨-, e⟩ | ⟨-, e⟩ | ⟨-, e⟩
  · exact ⟨_, by rw [e]; rfl, by simp⟩
  · exact ⟨_, by rw [e]; rfl, by simp⟩
  · exact ⟨_, by rw [e]; rfl, by cases b <;> simp⟩
  · exact ⟨_, by rw [e]; rfl, by simp⟩
  · rw [e]
    rcases ami_cases b s with ⟨-, e2⟩ | ⟨-, e2⟩
    · exact e2 ▸ stage_emits _ s
    · exact e2 ▸ stage_emits _ { s with amiLast := s.amiLast.flip }

theorem push_emits (x : Byte) (s : State) : ∃ ys, (push x s).out = s.out ++ ys ∧ ys.length ≤ 8 := by
  rcases push_cases x s with ⟨-, e⟩ | ⟨-, -, e⟩ | ⟨-, -, e⟩
  · exact ⟨[], by simp [e], by simp⟩
  · rw [e]
    rcases encPush_cases x { s with any := true } with ⟨-, e2⟩ | ⟨b, -, e2⟩
    · exact ⟨[], by simp [e2], by simp⟩
    · exact e2 ▸ mapBit_emits b { s with any := true }
  · obtain ⟨ys, _, _, _, e2, hys, -⟩ := decPush_writes x { s with any := true }
    refine ⟨ys, by rw [e, e2], ?_⟩
    rcases hys with rfl | ⟨b, rfl⟩ <;> simp

theorem closeFrame_emits (s : State) : ∃ n ≤ 7, (closeFrame s).out = s.out ++ List.replicate n 0x00 := by
  obtain ⟨n, _, _, _, e, hn, -⟩ := closeFrame_writes s
  exact ⟨n, hn, by rw [e]⟩

/-- R94, R197: a word appends at most eight bytes. -/
theorem WordEffect.emits {w : Word} {s t : State} (he : WordEffect w s t) :
    ∃ ys, t.out = s.out ++ ys ∧ ys.length ≤ 8 := by
  cases he with
  | push x => exact push_emits x s
  | close =>
    obtain ⟨n, hn, e⟩ := closeFrame_emits s
    exact ⟨_, e, by simp; omega⟩
  | nop => exact ⟨[], by simp, by simp⟩
  | start m => exact ⟨[], by simp, by simp⟩
  | outOfPhase => exact ⟨[], by simp, by simp⟩
  | illegal => exact ⟨[], by simp, by simp⟩

theorem WordEffect.replies_eq {w : Word} {s t : State} (he : WordEffect w s t) : t.replies = s.replies := by
  cases he with
  | push x => exact push_replies x s
  | close => exact closeFrame_replies s
  | nop => rfl
  | start => rfl
  | outOfPhase => rfl
  | illegal => rfl

/-! ### What the host reads -/

/-- R40: an OUT image read from a queue gives its head, and from an empty queue no byte. -/
theorem outByte_outImage (s : State) : Reply.outByte ⟨.out, s.outImage⟩ = s.out.head? := by
  have himage : ∀ x : Byte, Reply.outByte ⟨.out, 0x0100 ||| x.zeroExtend 16⟩ = some x := by decide
  cases h : s.out with
  | nil => simp [State.outImage, h, Reply.outByte]
  | cons x xs => simpa [State.outImage, h] using himage x

theorem readBytes_reply (p : Port) (v : Word) (s : State) :
    readBytes (reply p v s) = readBytes s ++ (Reply.outByte ⟨p, v⟩).toList := by
  cases h : Reply.outByte ⟨p, v⟩ <;> simp [readBytes, h]

/-- R55: a read moves at most the queue's head to what the host has, so the stream stays. -/
theorem stream_readPort (p : Port) (s : State) : stream (readPort p s) = stream s := by
  cases p with
  | out =>
    rw [stream, readPort, readBytes_reply, outByte_outImage]
    cases h : s.out <;> simp [stream, readBytes, h]
  | cmd => simp [stream, readPort, readBytes_reply, Reply.outByte]
  | status => simp [stream, readPort, readBytes_reply, Reply.outByte]
  | reserved => simp [stream, readPort, readBytes_reply, Reply.outByte]

/-- Settles O46: a word appends to the queue, a read moves its head to the bytes read, and reset empties it. -/
theorem outputIsFirstInFirstOut : Obligations.OutputIsFirstInFirstOut := by
  intro s t hst
  cases stepEffect_of_step hst with
  | idle => exact .inr ⟨[], by simp, by simp⟩
  | command hh hw he =>
    obtain ⟨ys, hout, -⟩ := he.emits
    refine .inr ⟨ys, ?_, fun _ => ⟨_, _, _, hh, hw⟩⟩
    simp [stream, readBytes, hout, he.replies_eq]
  | read _ _ p => exact .inr ⟨[], by rw [stream_readPort]; simp [stream, readBytes], by simp⟩
  | ignored => exact .inr ⟨[], by simp [stream, readBytes], by simp⟩
  | reset hh => exact .inl ⟨_, hh, by simp [stream, readBytes, State.reset]⟩

/-! ### The queue of finite depth -/

theorem mustWait_command {s t : State} {a : HostAccess} {rest : List HostAccess} {w : Word} (depth : Nat)
    (hh : s.host = a :: rest) (hw : a.commandWord = some w) (hst : step s = .next t) :
    mustWait depth s = decide (depth < t.out.length) := by
  simp [mustWait, hh, hw, hst]

theorem mustWait_no_command {s : State} {a : HostAccess} {rest : List HostAccess} (depth : Nat)
    (hh : s.host = a :: rest) (hw : a.commandWord = none) : mustWait depth s = false := by
  simp [mustWait, hh, hw]

/-- What is held is a command that completes with more bytes queued than the depth. -/
theorem mustWait_cases {depth : Nat} {s : State} (h : mustWait depth s = true) :
    ∃ a rest w t, s.host = a :: rest ∧ a.commandWord = some w ∧ step s = .next t ∧ depth < t.out.length := by
  unfold mustWait at h
  split at h
  · cases h
  · split at h
    · exact ⟨_, _, _, _, by assumption, by assumption, by assumption, by simpa using h⟩
    · cases h

theorem stepBounded_hold {depth : Nat} {s : State} (h : mustWait depth s = true) : stepBounded depth s = .next s := by
  simp [stepBounded, h]

theorem stepBounded_take {depth : Nat} {s : State} (h : mustWait depth s = false) : stepBounded depth s = step s := by
  simp [stepBounded, h]

theorem out_readPort_length_le (p : Port) (s : State) : (readPort p s).out.length ≤ s.out.length := by
  cases p <;> simp [readPort]

/-- R197: a step that is not held does not fill the queue beyond its depth. -/
theorem out_length_le_of_taken {depth : Nat} {s t : State} (hlen : s.out.length ≤ depth)
    (hw : mustWait depth s = false) (hst : step s = .next t) : t.out.length ≤ depth := by
  cases stepEffect_of_step hst with
  | idle => exact hlen
  | command hh hcw he =>
    rw [mustWait_command depth hh hcw hst] at hw
    simpa using hw
  | read _ _ p => exact (out_readPort_length_le p _).trans hlen
  | ignored => exact hlen
  | reset => simp [State.reset]

/-- R197: with at least eight bytes of depth, an empty queue takes every command. -/
theorem not_mustWait_of_empty {depth : Nat} {s : State} (hd : 8 ≤ depth) (ho : s.out = []) :
    mustWait depth s = false := by
  refine Bool.eq_false_iff.mpr fun hwait => ?_
  obtain ⟨a, rest, w, t, hh, hw, hst, hlt⟩ := mustWait_cases hwait
  have hbound : t.out.length ≤ 8 := by
    cases stepEffect_of_step hst with
    | command _ _ he =>
      obtain ⟨ys, hout, hys⟩ := he.emits
      simpa [hout, ho] using hys
    | idle => simp [ho]
    | read _ _ p => exact (out_readPort_length_le p _).trans (by simp [ho])
    | ignored => simp [ho]
    | reset => simp [State.reset]
  omega

/-- Settles O57: a held command leaves the state as it is, and a taken access is the model's own step. -/
theorem finiteQueueHoldsAndNeverDrops : Obligations.FiniteQueueHoldsAndNeverDrops := by
  refine ⟨?_, ?_, ?_, ?_⟩
  · intro depth s t hlen hst
    cases hw : mustWait depth s with
    | true =>
      obtain rfl : s = t := by simpa [stepBounded_hold hw] using hst
      exact ⟨hlen, .inl rfl⟩
    | false =>
      rw [stepBounded_take hw] at hst
      exact ⟨out_length_le_of_taken hlen hw hst, .inr hst⟩
  · intro depth s t a rest w hh hcw hst
    have hw := mustWait_command depth hh hcw hst
    refine ⟨fun hfit => ?_, fun hover => stepBounded_hold (by simpa [hw] using hover)⟩
    rw [stepBounded_take (by simpa [hw] using hfit), hst]
  · intro depth s a rest hh hcw
    exact stepBounded_take (mustWait_no_command depth hh hcw)
  · intro depth s hd ho
    exact stepBounded_take (not_mustWait_of_empty hd ho)

end Sys2Proof.Machine
end

section
/-! SUPPORT. The bits of the STATUS image (R39, R171): the obligation O32. -/

namespace Sys2Proof.Machine

theorem getLsbD_append_one_zero {n : Nat} (x : BitVec n) (y : BitVec 1) : (x ++ y).getLsbD 0 = y.getLsbD 0 := by
  rw [BitVec.getLsbD_append, if_pos (by decide)]

theorem getLsbD_append_one_succ {n : Nat} (x : BitVec n) (y : BitVec 1) (i : Nat) :
    (x ++ y).getLsbD (i + 1) = x.getLsbD i := by
  simp [BitVec.getLsbD_append]

/-- R39: the low byte of STATUS, bit 0 first. -/
theorem getLsbD_statusImage_low (s : State) {i : Nat} (h : i < 8) : s.statusImage.getLsbD i =
    [s.act, s.inv, s.trunc, s.empty, s.ill, s.proto, s.outNe, false].getD i false := by
  interval_cases i
  all_goals simp only [State.statusImage, getLsbD_append_one_succ, getLsbD_append_one_zero, BitVec.getLsbD_ofBool]
  all_goals simp

/-- R39: the high byte of STATUS is MODE under zeros. -/
theorem getLsbD_statusImage_high (s : State) (i : Nat) : s.statusImage.getLsbD (8 + i) = s.mode.bits.getLsbD i := by
  rw [Nat.add_comm]
  simp only [State.statusImage, getLsbD_append_one_succ]
  rw [BitVec.getLsbD_append]
  split
  · rfl
  · rw [BitVec.getLsbD_zero, BitVec.getLsbD_of_ge _ _ (by omega)]

theorem mode_statusImage (s : State) : s.statusImage.extractLsb' 8 6 = s.mode.bits := by
  ext i hi
  rw [BitVec.getElem_extractLsb', getLsbD_statusImage_high, BitVec.getLsbD_eq_getElem]

theorem reserved_statusImage (s : State) : s.statusImage.extractLsb' 14 2 = 0 := by
  ext i hi
  rw [BitVec.getElem_extractLsb', Nat.add_assoc 8 6 i, getLsbD_statusImage_high, BitVec.getLsbD_of_ge _ _ (by omega)]
  simp

theorem outNe_eq (s : State) : s.outNe = decide (0 < s.out.length) := by
  cases h : s.out <;> simp [State.outNe, h]

/-- R171: a condition's code is the STATUS bit of its flag. -/
theorem getLsbD_statusImage_code (s : State) (c : Condition) : s.statusImage.getLsbD c.code = s.flag c := by
  cases c <;> exact getLsbD_statusImage_low s (by decide)

/-- Settles O32: the image's low byte holds `ACT`, the flags at their codes and `OUTNE`, its high byte MODE. -/
theorem statusImageBits : Obligations.StatusImageBits :=
  ⟨fun s => ⟨getLsbD_statusImage_low s (by decide), getLsbD_statusImage_code s .invalidSymbol,
      getLsbD_statusImage_code s .truncatedSequence, getLsbD_statusImage_code s .emptyInput,
      getLsbD_statusImage_code s .illegalCommand, getLsbD_statusImage_code s .protocolError,
      (getLsbD_statusImage_low s (by decide)).trans (outNe_eq s), getLsbD_statusImage_low s (by decide),
      mode_statusImage s, reserved_statusImage s⟩,
    getLsbD_statusImage_code,
    fun _ _ => rfl,
    fun _ => rfl⟩

end Sys2Proof.Machine
end

section
/-! SUPPORT. The scrambler of an HDB3 frame at one PUSH (R117, R136): the obligation O21. -/

namespace Sys2Proof.Machine

/-- R110, R117: a symbol pushed in an AMI encode frame goes to the AMI mapper. -/
theorem exec_push_ami {s : State} (ha : s.act = true) (hi : s.inv = false) (hd : s.mode.dir = .enc)
    (hs : s.mode.scheme = .ami) (b : Bool) : exec (.push (sym b)) s = .next (ami b { s with any := true }) := by
  rw [exec_push_symbol ha hi hd]
  simp [mapBit, hs]

/-- R136: a zero is the next of at most three held ones, or completes a block. -/
theorem hdb3Step_zero_block {s : State} (h : s.scrZc = 3) :
    hdb3Step .zero s = { emitAll (hdb3Block s.scrPar s.scrPol) s with
      scrPol := hdb3BlockLast s.scrPar s.scrPol, scrPar := !s.scrPar, scrZc := 0 } := by
  rcases hdb3Step_cases .zero s with ⟨-, -, e⟩ | ⟨-, hne, -⟩ | ⟨_, hv, -⟩
  · exact e
  · exact absurd h hne
  · cases hv

theorem hdb3Step_zero_held {s : State} (h : s.scrZc ≠ 3) : hdb3Step .zero s = { s with scrZc := s.scrZc + 1 } := by
  rcases hdb3Step_cases .zero s with ⟨-, h3, -⟩ | ⟨-, -, e⟩ | ⟨_, hv, -⟩
  · exact absurd h3 h
  · exact e
  · cases hv

/-- Settles O21: a pushed symbol is one `hdb3Step`, of a zero or of the next pulse. -/
theorem hdb3HoldsZerosAndSubstitutes : Obligations.Hdb3HoldsZerosAndSubstitutes := by
  intro s ha hi hm _
  have hscr : s.mode.scr = .hdb3 := by rw [hm]; rfl
  have hpush := exec_push_ami ha hi (by rw [hm]; rfl) (by rw [hm]; rfl)
  have hzero : exec (.push 0x30) s = .next (hdb3Step .zero { s with any := true }) :=
    (hpush false).trans (congrArg _ (stage_hdb3 (s := { s with any := true }) hscr .zero))
  have hone : exec (.push 0x31) s =
      .next (hdb3Step (.pulse s.amiLast.flip) { s with any := true, amiLast := s.amiLast.flip }) :=
    (hpush true).trans (congrArg _ (stage_hdb3 (s := { s with any := true, amiLast := s.amiLast.flip }) hscr _))
  refine ⟨fun hz hp => ?_, fun hz hp => ?_, fun hlt => ?_, ?_⟩
  · rw [hzero, hdb3Step_zero_block (s := { s with any := true }) hz]
    simp [hdb3Block, hdb3BlockLast, hp, byte_eq_pulseByte, emitAll]
  · rw [hzero, hdb3Step_zero_block (s := { s with any := true }) hz]
    simp [hdb3Block, hdb3BlockLast, hp, byte_eq_pulseByte, emitAll]
  · rw [hzero, hdb3Step_zero_held (s := { s with any := true }) fun h3 => absurd hlt (by rw [h3]; decide)]
  · rw [hone, ← byte_eq_pulseByte]
    rfl

end Sys2Proof.Machine
end

section
/-! SUPPORT. The frame rule of START and END (R31, R92, R93, R96, R97): the obligation O30. -/

namespace Sys2Proof.Machine

/-- R92, R93. -/
theorem exec_start_idle {s : State} (m : Mode) (h : s.act = false) : exec m.start s = .next (start m s) := by
  simp [exec_start, startCommand, h]

theorem exec_start_open {s : State} (m : Mode) (h : s.act = true) : exec m.start s = .next (protocolError s) := by
  simp [exec_start, startCommand, h]

/-- R95, R97: PUSH and END while idle are out of phase. -/
theorem exec_push_idle {s : State} (x : Byte) (h : s.act = false) : exec (.push x) s = .next (protocolError s) := by
  simp [exec, execPush, h]

theorem exec_end_idle {s : State} (h : s.act = false) : exec .endFrame s = .next (protocolError s) := by
  simp [exec, execEnd, h]

/-- Settles O30: a START changes LCC's own fields but `OUT`, an END only the fields it reports or releases, and either
out of phase only `PROTO`. -/
theorem startAndEndFrameRule : Obligations.StartAndEndFrameRule := by
  refine ⟨fun m s t h => ?_, fun s t h => ?_⟩
  · rcases Bool.eq_false_or_eq_true s.act with ha | ha
    · obtain rfl := Host.Outcome.next.inj ((exec_start_open m ha).symm.trans h)
      exact ⟨rfl, rfl, rfl, fun _ => rfl⟩
    · obtain rfl := Host.Outcome.next.inj ((exec_start_idle m ha).symm.trans h)
      exact ⟨rfl, rfl, rfl, fun hopen => by simp [ha] at hopen⟩
  · rcases Bool.eq_false_or_eq_true s.act with ha | ha
    · obtain rfl := Host.Outcome.next.inj ((exec_end_open ha).symm.trans h)
      obtain ⟨n, trunc, zc, hv, e, -, -, hflush, hpair⟩ := closeFrame_writes s
      rw [e]
      refine ⟨⟨rfl, rfl, rfl, rfl, rfl, rfl, rfl, rfl, rfl, rfl, rfl, rfl, n, rfl⟩, fun _ => rfl,
        fun hidle => by simp [ha] at hidle, fun hnone => ?_, hpair⟩
      obtain ⟨rfl, rfl⟩ := hflush hnone
      exact ⟨by simp, rfl⟩
    · obtain rfl := Host.Outcome.next.inj ((exec_end_idle ha).symm.trans h)
      exact ⟨⟨rfl, rfl, rfl, rfl, rfl, rfl, rfl, rfl, rfl, rfl, rfl, rfl, 0, by simp⟩,
        fun hopen => by simp [ha] at hopen, fun _ => rfl, fun _ => ⟨rfl, rfl⟩, fun _ => ⟨rfl, rfl⟩⟩

end Sys2Proof.Machine
end

section
/-! SUPPORT. While idle the running state and `ANY` cannot be observed (R43, R44 a, R99): the obligation O48. -/

namespace Sys2Proof.Machine

/-! ### A bus access acts the same way in every state -/

theorem busAccess_outside {b : BusAccess} (ht : b.touchesWindow = false) (s : State) : busAccess b s = .next s := by
  simp [busAccess, ht]

theorem busAccess_window_read {b : BusAccess} (ht : b.touchesWindow = true) (hc : b.inContract = true)
    (hk : b.kind = .read) (s : State) : busAccess b s = .next (readPort b.port s) := by
  simp_all [busAccess, BusAccess.inContract]

theorem busAccess_window_write {b : BusAccess} {w : Word} (ht : b.touchesWindow = true) (hc : b.inContract = true)
    (hk : b.kind = .write w) (s : State) : busAccess b s = writePort b.port w s := by
  simp_all [busAccess, BusAccess.inContract]

/-! ### Hidden fields -/

/-- `s` with `ANY` and the stages' running state of `u`: `sameVisible s t` says that `t` is `withHidden t s`. -/
def withHidden (u s : State) : State :=
  { s with
    any := u.any, encCur := u.encCur, amiLast := u.amiLast, scrPol := u.scrPol, scrPar := u.scrPar,
    scrZc := u.scrZc, decPrev := u.decPrev, decHv := u.decHv, decHd := u.decHd }

/-- An outcome no host can tell from the next state `s'`: a state the same but for hidden fields, and the same whole
if a frame is open. -/
def AlikeOutcome (s' : State) (o : Host.Outcome State Fault Refusal) : Prop :=
  ∃ t', o = .next t' ∧ sameVisible s' t' ∧ (s'.act = true → s' = t')

theorem alikeOutcome_self (s' : State) : AlikeOutcome s' (.next s') := ⟨s', rfl, rfl, fun _ => rfl⟩

theorem alikeOutcome_withHidden {s' : State} (u : State) (h : s'.act = false) :
    AlikeOutcome s' (.next (withHidden u s')) :=
  ⟨_, rfl, rfl, fun hopen => absurd (h.symm.trans hopen) (by decide)⟩

/-- R43: neither the STATUS image nor the OUT image shows a hidden field. -/
theorem readPort_withHidden (p : Port) (u s : State) : readPort p (withHidden u s) = withHidden u (readPort p s) := by
  cases p <;> rfl

/-- R92: START writes every hidden field. -/
theorem start_withHidden (m : Mode) (u s : State) : start m (withHidden u s) = start m s := rfl

/-- R43, R99: an idle LCC takes a START into one and the same state, and no other word acts on a hidden field. -/
theorem alikeOutcome_executeWord {w : Word} {s s' : State} (u : State) (ha : s.act = false)
    (h : executeWord w s = .next s') : AlikeOutcome s' (executeWord w (withHidden u s)) := by
  have ha' : (withHidden u s).act = false := ha
  cases hd : decode w with
  | error e =>
    simp only [executeWord, hd] at h ⊢
    obtain rfl := Host.Outcome.next.inj h
    exact alikeOutcome_withHidden u ha
  | ok i =>
    simp only [executeWord, hd] at h ⊢
    rcases decode_cases hd with rfl | ⟨m, rfl⟩ | ⟨x, rfl⟩ | rfl
    · obtain rfl := Host.Outcome.next.inj h
      exact alikeOutcome_withHidden u ha
    · obtain rfl := Host.Outcome.next.inj ((exec_start_idle m ha).symm.trans h)
      rw [exec_start_idle m ha', start_withHidden]
      exact alikeOutcome_self _
    · obtain rfl := Host.Outcome.next.inj ((exec_push_idle x ha).symm.trans h)
      rw [exec_push_idle x ha']
      exact alikeOutcome_withHidden u ha
    · obtain rfl := Host.Outcome.next.inj ((exec_end_idle ha).symm.trans h)
      rw [exec_end_idle ha']
      exact alikeOutcome_withHidden u ha

theorem alikeOutcome_writePort {p : Port} {w : Word} {s s' : State} (u : State) (ha : s.act = false)
    (h : writePort p w s = .next s') : AlikeOutcome s' (writePort p w (withHidden u s)) := by
  cases p with
  | cmd => exact alikeOutcome_executeWord u ha h
  | _ =>
    obtain rfl := Host.Outcome.next.inj h
    exact alikeOutcome_withHidden u ha

theorem alikeOutcome_readPort (p : Port) {s : State} (u : State) (ha : s.act = false) :
    AlikeOutcome (readPort p s) (.next (readPort p (withHidden u s))) := by
  rw [readPort_withHidden]
  exact alikeOutcome_withHidden u (by simpa using ha)

/-- R57: what a bus access does is chosen by the access, not by the state. -/
theorem alikeOutcome_busAccess {b : BusAccess} {s s' : State} (u : State) (ha : s.act = false)
    (h : busAccess b s = .next s') : AlikeOutcome s' (busAccess b (withHidden u s)) := by
  rcases busAccess_cases h with ⟨ht, rfl⟩ | ⟨ht, hc, hk, rfl⟩ | ⟨w, ht, hc, hk, hx⟩
  · rw [busAccess_outside ht]
    exact alikeOutcome_withHidden u ha
  · rw [busAccess_window_read ht hc hk]
    exact alikeOutcome_readPort b.port u ha
  · rw [busAccess_window_write ht hc hk]
    exact alikeOutcome_writePort u ha hx

theorem alikeOutcome_hostAccess {a : HostAccess} {s s' : State} (u : State) (ha : s.act = false)
    (h : hostAccess a s = .next s') : AlikeOutcome s' (hostAccess a (withHidden u s)) := by
  cases a with
  | read p =>
    obtain rfl := Host.Outcome.next.inj h
    exact alikeOutcome_readPort p u ha
  | write p w => exact alikeOutcome_writePort u ha h
  | bus b => exact alikeOutcome_busAccess u ha h
  | reset =>
    obtain rfl := Host.Outcome.next.inj h
    exact alikeOutcome_self _

theorem step_of_no_host {s : State} (h : s.host = []) : step s = .next s := by
  simp [step, takeAccess, h]

/-- Settles O48: the two states' hosts make the same access, which acts alike on them. -/
theorem idleRunningStateIsUnobservable : Obligations.IdleRunningStateIsUnobservable := by
  intro s t s' ha hsame h
  obtain ⟨u, rfl⟩ : ∃ u, t = withHidden u s := ⟨t, hsame⟩
  rcases step_cases h with ⟨hh, rfl⟩ | ⟨a, rest, hh, hx⟩
  · rw [step_of_no_host (show (withHidden u s').host = [] from hh)]
    exact alikeOutcome_withHidden u ha
  · rw [step_of_host (show (withHidden u s).host = a :: rest from hh)]
    exact alikeOutcome_hostAccess (s := { s with host := rest }) u ha hx

end Sys2Proof.Machine
end

section
/-! SUPPORT. The ports (R52 to R55) and the register window (R56, R57), one step at a time: the obligations O7, O33,
O34, O35 and O36. -/

namespace Sys2Proof.Machine

/-! ### The ports -/

theorem executeWord_ok {w : Word} {i : Instr} (h : decode w = .ok i) (s : State) : executeWord w s = exec i s := by
  simp [executeWord, h]

theorem step_read {s : State} {p : Port} {rest : List HostAccess} (hh : s.host = .read p :: rest) :
    step s = .next (readPort p { s with host := rest }) := step_of_host hh

theorem step_write {s : State} {p : Port} {w : Word} {rest : List HostAccess} (hh : s.host = .write p w :: rest) :
    step s = writePort p w { s with host := rest } := step_of_host hh

/-- R54, R56: every place but CMD ignores what is written to it. -/
theorem writePort_ignored {p : Port} (hp : p ≠ .cmd) (w : Word) (s : State) : writePort p w s = .next s := by
  cases p with
  | cmd => exact absurd rfl hp
  | _ => rfl

/-- Settles O7: a step takes the head of the host's list, and a write to CMD runs the command its word decodes to. -/
theorem stepRunsTheDecodedCommand : Obligations.StepRunsTheDecodedCommand :=
  ⟨fun _ _ _ _ hh hd _ => (step_write hh).trans (executeWord_ok hd _), fun _ => step_of_no_host⟩

/-- Settles O33: a read of STATUS or CMD only adds a reply, and STATUS and OUT ignore what is written. -/
theorem plainReadsAndIgnoredWrites : Obligations.PlainReadsAndIgnoredWrites := by
  refine ⟨fun s rest hh => step_read hh, fun s rest hh => step_read hh, fun s w rest hh => ?_⟩
  rcases hh with hh | hh
  · exact (step_write hh).trans (writePort_ignored (by decide) w _)
  · exact (step_write hh).trans (writePort_ignored (by decide) w _)

/-! ### The OUT image -/

theorem outImage_nil {s : State} (h : s.out = []) : s.outImage = 0x0000 := by
  simp [State.outImage, h]

theorem outImage_cons {s : State} {x : Byte} {xs : List Byte} (h : s.out = x :: xs) :
    s.outImage = 0x0100 ||| x.zeroExtend 16 := by
  simp [State.outImage, h]

/-- R40: the image of a byte is seven zeros, `VALID` = 1, and the byte. -/
theorem validImage_fields : ∀ x : Byte, (0x0100 ||| x.zeroExtend 16 : Word).getLsbD 8 = true ∧
    (0x0100 ||| x.zeroExtend 16 : Word).extractLsb' 9 7 = 0 ∧
    (0x0100 ||| x.zeroExtend 16 : Word).extractLsb' 0 8 = x := by
  decide

/-- R55: an OUT read of a queue that is not empty. -/
theorem step_read_out_cons {s : State} {x : Byte} {xs : List Byte} {rest : List HostAccess}
    (hh : s.host = .read .out :: rest) (ho : s.out = x :: xs) :
    step s = .next { s with
      host := rest, out := xs, replies := s.replies ++ [⟨.out, 0x0100 ||| x.zeroExtend 16⟩] } := by
  rw [step_read hh, readPort, outImage_cons (s := { s with host := rest }) ho]
  simp [reply, popOut, ho]

/-- R55: an OUT read of an empty queue. -/
theorem step_read_out_nil {s : State} {rest : List HostAccess} (hh : s.host = .read .out :: rest) (ho : s.out = []) :
    step s = .next { s with host := rest, replies := s.replies ++ [⟨.out, 0x0000⟩] } := by
  rw [step_read hh, readPort, outImage_nil (s := { s with host := rest }) ho]
  simp [reply, popOut, ho]

/-- Settles O34: the queue is empty or has a head, which the image shows under `VALID` and the read removes. -/
theorem outReadPopsTheHead : Obligations.OutReadPopsTheHead := by
  refine ⟨fun s rest x xs => step_read_out_cons, fun s rest => step_read_out_nil, fun s => ?_⟩
  cases ho : s.out with
  | nil => simp [outImage_nil ho]
  | cons x xs =>
    obtain ⟨hvalid, hzeros, hdata⟩ := validImage_fields x
    rw [outImage_cons ho]
    exact ⟨by rw [hvalid]; simp, hzeros, fun y ys e => hdata.trans (List.cons.inj e).1, fun e => absurd e (by simp)⟩

/-! ### The register window -/

/-- The port at an even offset of the window, by R56's table. -/
def offsetPort (o : Nat) : Port :=
  if o = 0 then .cmd else if o = 2 then .status else if o = 4 then .out else .reserved

theorem port_eq_offsetPort (k : BusKind) (width o : Nat) :
    BusAccess.port ⟨k, width, Config.regBase + o⟩ = offsetPort o := by
  simp [BusAccess.port, offsetPort]

/-- R56: a 16-bit read in the window is a read of the port at its place. -/
theorem step_window_read {s : State} {o : Nat} {rest : List HostAccess}
    (hh : s.host = .bus ⟨.read, 16, Config.regBase + o⟩ :: rest) (h1 : o < 8) (h2 : o % 2 = 0) :
    step s = .next (readPort (offsetPort o) { s with host := rest }) := by
  rw [step_of_host hh, hostAccess, busAccess_read h1 h2, port_eq_offsetPort]

/-- R56: a 16-bit write in the window is a write of the port at its place. -/
theorem step_window_write {s : State} {o : Nat} {w : Word} {rest : List HostAccess}
    (hh : s.host = .bus ⟨.write w, 16, Config.regBase + o⟩ :: rest) (h1 : o < 8) (h2 : o % 2 = 0) :
    step s = writePort (offsetPort o) w { s with host := rest } := by
  rw [step_of_host hh, hostAccess, busAccess_write h1 h2, port_eq_offsetPort]

/-- R56: the places after CMD's are even offsets of the window, and ignore what is written to them. -/
theorem offset_after_cmd : ∀ k ∈ [2, 4, 6], k < 8 ∧ k % 2 = 0 ∧ offsetPort k ≠ .cmd := by decide

/-- Settles O35: the four places are the ports of `offsetPort`, of which only CMD acts on a write. -/
theorem registerWindowPorts : Obligations.RegisterWindowPorts := by
  intro s w rest
  refine ⟨fun hh => step_window_write (o := 0) hh (by decide) (by decide),
    fun hh => step_window_read (o := 0) hh (by decide) (by decide),
    fun hh => step_window_read hh (by decide) (by decide),
    fun hh => step_window_read hh (by decide) (by decide),
    fun hh => step_window_read hh (by decide) (by decide), fun k hk hh => ?_⟩
  obtain ⟨h1, h2, hport⟩ := offset_after_cmd k hk
  rw [step_window_write hh h1 h2, writePort_ignored hport]

/-! ### Window accesses outside the contract -/

theorem busAccess_fetch {b : BusAccess} (ht : b.touchesWindow = true) (hk : b.kind = .fetch) (s : State) :
    busAccess b s = .refused .windowFetch := by
  simp [busAccess, ht, hk]

theorem busAccess_width {b : BusAccess} (ht : b.touchesWindow = true) (hk : b.kind ≠ .fetch) (hw : b.width ≠ 16)
    (s : State) : busAccess b s = .refused .windowWidth := by
  simp [busAccess, ht, hk, hw]

theorem busAccess_oddOffset {b : BusAccess} (ht : b.touchesWindow = true) (hk : b.kind ≠ .fetch) (hw : b.width = 16)
    (he : b.evenOffset = false) (s : State) : busAccess b s = .refused .windowOddOffset := by
  simp [busAccess, ht, hk, hw, he]

/-- R57: what is outside the contract is refused by one of the three names. -/
theorem busAccess_refused {b : BusAccess} (ht : b.touchesWindow = true) (hc : b.inContract = false) (s : State) :
    ∃ r, busAccess b s = .refused r := by
  by_cases hk : b.kind = .fetch
  · exact ⟨_, busAccess_fetch ht hk s⟩
  · by_cases hw : b.width = 16
    · exact ⟨_, busAccess_oddOffset ht hk hw (by simpa [BusAccess.inContract, hk, hw] using hc) s⟩
    · exact ⟨_, busAccess_width ht hk hw s⟩

/-- Settles O36: the step is the bus access, and each reason refuses it by its name. -/
theorem windowRefusesOtherAccesses : Obligations.WindowRefusesOtherAccesses := by
  intro s b rest hh ht
  have hstep : step s = busAccess b { s with host := rest } := step_of_host hh
  rw [hstep]
  exact ⟨fun hk => busAccess_fetch ht hk _, fun hk hw => busAccess_width ht hk hw _,
    fun hk hw ho => busAccess_oddOffset ht hk hw (decide_eq_false ho) _⟩

end Sys2Proof.Machine
end

section
/-! SUPPORT. Commands neither read nor write the host's list (R60), and every word completes: the obligation O56 on the
order of the host's writes (R52, R60). -/

namespace Sys2Proof.Machine

/-- `s` with another list of accesses to come. -/
def withHost (l : List HostAccess) (s : State) : State := { s with host := l }

@[simp] theorem withHost_mode (l : List HostAccess) (s : State) : (withHost l s).mode = s.mode := rfl

/-! ### The operations of the commands -/

theorem b8zsStep_withHost (v : Level) (l : List HostAccess) (s : State) :
    b8zsStep v (withHost l s) = withHost l (b8zsStep v s) := by
  cases v with
  | zero =>
    simp only [b8zsStep, apply_ite (withHost l)]
    rfl
  | pulse p => rfl

theorem hdb3Step_withHost (v : Level) (l : List HostAccess) (s : State) :
    hdb3Step v (withHost l s) = withHost l (hdb3Step v s) := by
  cases v with
  | zero =>
    simp only [hdb3Step, apply_ite (withHost l)]
    rfl
  | pulse p => rfl

theorem stage_withHost (v : Level) (l : List HostAccess) (s : State) :
    stage v (withHost l s) = withHost l (stage v s) := by
  simp only [stage, withHost_mode]
  split
  · rfl
  · exact b8zsStep_withHost v l s
  · exact hdb3Step_withHost v l s

theorem ami_withHost (b : Bool) (l : List HostAccess) (s : State) : ami b (withHost l s) = withHost l (ami b s) := by
  cases b with
  | false => exact stage_withHost .zero l s
  | true => exact stage_withHost (.pulse s.amiLast.flip) l { s with amiLast := s.amiLast.flip }

theorem mapBit_withHost (b : Bool) (l : List HostAccess) (s : State) :
    mapBit b (withHost l s) = withHost l (mapBit b s) := by
  simp only [mapBit, withHost_mode]
  split
  · rfl
  · rfl
  · rfl
  · rfl
  · exact ami_withHost b l s

theorem encPush_withHost (x : Byte) (l : List HostAccess) (s : State) :
    encPush x (withHost l s) = withHost l (encPush x s) := by
  unfold encPush
  split
  · rfl
  · exact mapBit_withHost _ l s

theorem decPush_withHost (x : Byte) (l : List HostAccess) (s : State) :
    decPush x (withHost l s) = withHost l (decPush x s) := by
  simp only [decPush, withHost_mode]
  split
  · rfl
  · rfl
  · simp only [dmanPair, apply_ite (withHost l)]
    rfl
  · simp only [ddmanPair, apply_ite (withHost l)]
    rfl
  · rfl

/-- R94: a PUSH in an aborted frame, and in an encode and a decode frame that is not. -/
theorem push_aborted {x : Byte} {s : State} (hi : s.inv = true) : push x s = { s with any := true } := by
  simp [push, hi]

theorem push_encode {x : Byte} {s : State} (hi : s.inv = false) (hd : s.mode.dir = .enc) :
    push x s = encPush x { s with any := true } := by
  simp [push, hi, hd]

theorem push_decode {x : Byte} {s : State} (hi : s.inv = false) (hd : s.mode.dir = .dec) :
    push x s = decPush x { s with any := true } := by
  simp [push, hi, hd]

theorem push_withHost (x : Byte) (l : List HostAccess) (s : State) :
    push x (withHost l s) = withHost l (push x s) := by
  rcases push_cases x s with ⟨hi, -⟩ | ⟨hi, hd, -⟩ | ⟨hi, hd, -⟩
  · rw [push_aborted hi, push_aborted (s := withHost l s) hi]
    rfl
  · rw [push_encode hi hd, push_encode (s := withHost l s) hi hd]
    exact encPush_withHost x l { s with any := true }
  · rw [push_decode hi hd, push_decode (s := withHost l s) hi hd]
    exact decPush_withHost x l { s with any := true }

theorem releaseHeld_withHost (l : List HostAccess) (s : State) :
    releaseHeld (withHost l s) = withHost l (releaseHeld s) := by
  simp only [releaseHeld, apply_ite (withHost l)]
  rfl

theorem closeFrame_withHost (l : List HostAccess) (s : State) :
    closeFrame (withHost l s) = withHost l (closeFrame s) := by
  have hkept : (if (withHost l s).inv then withHost l s else releaseHeld (withHost l s)) =
      withHost l (if s.inv then s else releaseHeld s) := by
    rw [releaseHeld_withHost, apply_ite (withHost l)]
    rfl
  simp only [closeFrame, hkept]
  rfl

/-! ### Commands and words -/

/-- R92, R93: a START completes, whatever the host does next. -/
theorem startCommand_withHost (m : Mode) (s : State) :
    ∃ t, ∀ l, startCommand m (withHost l s) = .next (withHost l t) :=
  ⟨if s.act then protocolError s else start m s,
    fun l => congrArg Host.Outcome.next (apply_ite (withHost l) (s.act = true) (protocolError s) (start m s)).symm⟩

/-- R91, R170: every command completes, whatever the host does next. -/
theorem exec_withHost (i : Instr) (s : State) : ∃ t, ∀ l, exec i (withHost l s) = .next (withHost l t) := by
  cases i with
  | nop => exact ⟨s, fun l => rfl⟩
  | push x =>
    refine ⟨if s.act then push x s else protocolError s, fun l => ?_⟩
    rw [apply_ite (withHost l), ← push_withHost]
    rfl
  | endFrame =>
    refine ⟨if s.act then closeFrame s else protocolError s, fun l => ?_⟩
    rw [apply_ite (withHost l), ← closeFrame_withHost]
    rfl
  | _ => exact startCommand_withHost _ s

/-- R52, R81, R170: every word completes, whatever the host does next. -/
theorem executeWord_withHost (w : Word) (s : State) :
    ∃ t, ∀ l, executeWord w (withHost l s) = .next (withHost l t) := by
  unfold executeWord
  split
  · exact exec_withHost _ s
  · exact ⟨illegal s, fun l => rfl⟩

theorem executeWord_completes (w : Word) (s : State) : ∃ t, executeWord w s = .next t := by
  obtain ⟨t, ht⟩ := executeWord_withHost w s
  exact ⟨_, ht s.host⟩

/-! ### Runs -/

theorem run_step {s t : State} (h : step s = .next t) (k : Nat) :
    Host.Core.run core (k + 1) s = Host.Core.run core k t := by
  simp only [Host.Core.run, show core.step s = .next t from h]

theorem runWords_cons {w : Word} {s t : State} (h : executeWord w s = .next t) (ws : List Word) :
    runWords (w :: ws) s = runWords ws t := by
  rw [runWords, h]

/-- Settles O56, by induction on the words: the step runs the first word with the other writes still to come, which the
word does not touch. -/
theorem hostWritesRunInOrder : Obligations.HostWritesRunInOrder := by
  intro ws rest
  induction ws with
  | nil => exact fun s hh => ⟨s, rfl, by simp [runWords, ← show s.host = rest from hh], hh⟩
  | cons w ws ih =>
    intro s hh
    obtain ⟨u, hu⟩ := executeWord_withHost w s
    have hstep : step s = .next (withHost (ws.map (.write .cmd) ++ rest) u) := (step_write hh).trans (hu _)
    obtain ⟨t, hrun, hwords, hhost⟩ := ih (withHost (ws.map (.write .cmd) ++ rest) u) rfl
    exact ⟨t, (run_step hstep _).trans hrun, (runWords_cons (hu rest) ws).trans hwords, hhost⟩

end Sys2Proof.Machine
end

section
/-! SUPPORT. Which accesses complete (R57, R170), and what the host's duties guarantee (R65, R194): the obligations O39
and O49. -/

namespace Sys2Proof.Machine

/-! ### Accesses that complete -/

theorem writePort_completes (p : Port) (w : Word) (s : State) : ∃ t, writePort p w s = .next t := by
  cases p with
  | cmd => exact executeWord_completes w s
  | _ => exact ⟨s, rfl⟩

/-- R57: an access of the window in the contract completes. -/
theorem busAccess_completes {b : BusAccess} (ht : b.touchesWindow = true) (hc : b.inContract = true) (s : State) :
    ∃ t, busAccess b s = .next t := by
  cases hk : b.kind with
  | read => exact ⟨_, busAccess_window_read ht hc hk s⟩
  | write w =>
    rw [busAccess_window_write ht hc hk]
    exact writePort_completes b.port w s
  | fetch => simp [BusAccess.inContract, hk] at hc

/-- R57, R65: of the host's accesses, only one of the window outside the contract is refused. -/
theorem hostAccess_completes_or_refused (a : HostAccess) (s : State) : (∃ t, hostAccess a s = .next t) ∨
    ∃ b r, a = .bus b ∧ b.touchesWindow = true ∧ b.inContract = false ∧ hostAccess a s = .refused r := by
  cases a with
  | read p => exact .inl ⟨_, rfl⟩
  | write p w => exact .inl (writePort_completes p w s)
  | reset => exact .inl ⟨_, rfl⟩
  | bus b =>
    cases ht : b.touchesWindow with
    | false => exact .inl ⟨s, busAccess_outside ht s⟩
    | true =>
      cases hc : b.inContract with
      | true => exact .inl (busAccess_completes ht hc s)
      | false =>
        obtain ⟨r, hr⟩ := busAccess_refused ht hc s
        exact .inr ⟨b, r, rfl, ht, hc, hr⟩

/-- Settles O39: the step is the host's next access, if there is one. -/
theorem stepStopsOnlyOutsideTheContract : Obligations.StepStopsOnlyOutsideTheContract := by
  intro s
  cases hh : s.host with
  | nil => exact .inl ⟨s, step_of_no_host hh⟩
  | cons a rest =>
    rw [step_of_host hh]
    rcases hostAccess_completes_or_refused a { s with host := rest } with hnext | ⟨b, r, rfl, ht, hc, hr⟩
    · exact .inl hnext
    · exact .inr ⟨b, rest, r, rfl, ht, hc, hr⟩

/-! ### Dutiful accesses -/

/-- R56: the one bus access that writes a command. -/
theorem eq_of_commandWord_bus {b : BusAccess} {w : Word} (h : (HostAccess.bus b).commandWord = some w) :
    b = ⟨.write w, 16, Config.regBase⟩ := by
  obtain ⟨k, width, addr⟩ := b
  unfold HostAccess.commandWord at h
  split at h <;> simp_all

theorem inContract_commandWrite (w : Word) : BusAccess.inContract ⟨.write w, 16, Config.regBase⟩ = true := by
  simp [BusAccess.inContract, BusAccess.evenOffset]

/-- R57, R65: a dutiful access that touches the window is in the contract. -/
theorem inContract_of_dutiful {s : State} {b : BusAccess} (h : dutiful s (.bus b) = true)
    (ht : b.touchesWindow = true) : b.inContract = true := by
  cases hw : (HostAccess.bus b).commandWord with
  | some w =>
    rw [eq_of_commandWord_bus hw]
    exact inContract_commandWrite w
  | none => simpa [dutiful, hw, ht] using h

/-- R65: a dutiful command is legal and in its phase. -/
theorem decode_of_dutiful {s : State} {a : HostAccess} {w : Word} (h : dutiful s a = true)
    (hw : a.commandWord = some w) : ∃ i, decode w = .ok i ∧ allowedInPhase i s.act = true := by
  cases hd : decode w with
  | ok i => exact ⟨i, rfl, by simpa [dutiful, hw, hd] using h⟩
  | error e => simp [dutiful, hw, hd] at h

/-- R81, R93, R95, R97: a legal command in its phase raises no interface condition. -/
theorem WordEffect.interface_of_allowed {w : Word} {s t : State} {i : Instr} (he : WordEffect w s t)
    (hd : decode w = .ok i) (hp : allowedInPhase i s.act = true) :
    (t.ill = true → s.ill = true) ∧ (t.proto = true → s.proto = true) := by
  cases he with
  | nop => exact ⟨id, id⟩
  | start m => exact ⟨fun hill => by simp at hill, fun hproto => by simp at hproto⟩
  | push x =>
    obtain ⟨_, _, _, _, _, _, _, _, _, _, e, -⟩ := push_writes x s
    rw [e]
    exact ⟨id, id⟩
  | close =>
    obtain ⟨_, _, _, _, e, -⟩ := closeFrame_writes s
    rw [e]
    exact ⟨id, id⟩
  | outOfPhase j hj hout =>
    obtain rfl : i = j := Except.ok.inj (hd.symm.trans hj)
    exact absurd (hp.symm.trans hout) (by decide)
  | illegal e he => exact absurd (hd.symm.trans he) (by simp)

/-- Settles O49: a dutiful access is not the kind that is refused, and a word it writes is legal and in its phase. -/
theorem dutifulHostRaisesNoInterfaceCondition : Obligations.DutifulHostRaisesNoInterfaceCondition := by
  intro s a rest hh hduty
  rcases stepStopsOnlyOutsideTheContract s with ⟨t, hst⟩ | ⟨b, rest', r, hb, ht, hc, -⟩
  · refine ⟨t, hst, ?_⟩
    cases stepEffect_of_step hst with
    | idle => exact ⟨id, id⟩
    | command ha hw he =>
      obtain ⟨rfl, rfl⟩ : a = _ ∧ rest = _ := List.cons.inj (hh.symm.trans ha)
      obtain ⟨i, hd, hp⟩ := decode_of_dutiful hduty hw
      exact he.interface_of_allowed hd hp
    | read _ _ p =>
      exact ⟨(readPort_flag p _ .illegalCommand).symm.trans, (readPort_flag p _ .protocolError).symm.trans⟩
    | ignored => exact ⟨id, id⟩
    | reset => exact ⟨fun hill => absurd hill Bool.false_ne_true, fun hproto => absurd hproto Bool.false_ne_true⟩
  · obtain ⟨rfl, -⟩ : a = .bus b ∧ rest = rest' := List.cons.inj (hh.symm.trans hb)
    exact absurd (hc.symm.trans (inContract_of_dutiful hduty ht)) (by decide)

end Sys2Proof.Machine
end

section
/-! SUPPORT. Reading OUT until `VALID` is 0 (R55, R61, R101): the obligation O37. -/

namespace Sys2Proof.Machine

/-- What the host gets when it drains the queue `xs`: an image of each byte, then one with `VALID` = 0 (R61). -/
def drainReplies (xs : List Byte) : List Reply :=
  xs.map (fun x => ⟨.out, 0x0100 ||| x.zeroExtend 16⟩) ++ [⟨.out, 0x0000⟩]

theorem length_drainReplies (xs : List Byte) : (drainReplies xs).length = xs.length + 1 := by
  simp [drainReplies]

theorem getLast?_drainReplies (xs : List Byte) : (drainReplies xs).getLast? = some ⟨.out, 0x0000⟩ := by
  simp [drainReplies]

theorem outByte_validImage (x : Byte) : Reply.outByte ⟨.out, 0x0100 ||| x.zeroExtend 16⟩ = some x :=
  outByte_outImage { State.reset with out := [x] }

theorem outByte_emptyImage : Reply.outByte ⟨.out, 0x0000⟩ = none := by decide

/-- R101: the replies give the queue's bytes in order. -/
theorem outBytes_drainReplies (xs : List Byte) : (drainReplies xs).filterMap Reply.outByte = xs := by
  rw [drainReplies, List.filterMap_append, List.filterMap_map]
  simp only [Function.comp_def, outByte_validImage, List.filterMap_some, List.filterMap_cons, outByte_emptyImage,
    List.filterMap_nil, List.append_nil]

/-- R61: draining reads off every byte of the queue, and changes nothing but the queue and the replies. -/
theorem run_drain (xs : List Byte) (rest : List HostAccess) (s : State) (ho : s.out = xs)
    (hh : s.host = List.replicate (xs.length + 1) (.read .out) ++ rest) :
    Host.Core.run core (xs.length + 1) s =
      .next { s with host := rest, out := [], replies := s.replies ++ drainReplies xs } := by
  induction xs generalizing s with
  | nil =>
    refine (run_step (step_read_out_nil hh ho) 0).trans ?_
    simp [Host.Core.run, drainReplies, ho]
  | cons x xs ih =>
    refine (run_step (step_read_out_cons hh ho) (xs.length + 1)).trans ((ih _ rfl rfl).trans ?_)
    simp [drainReplies]

/-- Settles O37: `rs` is one reply for each byte queued, and the one with `VALID` = 0. -/
theorem drainReadsTheWholeQueue : Obligations.DrainReadsTheWholeQueue := fun s rest hh =>
  ⟨drainReplies s.out, run_drain s.out rest s rfl hh, length_drainReplies s.out, outBytes_drainReplies s.out,
    getLast?_drainReplies s.out⟩

end Sys2Proof.Machine
end

section
/-! SUPPORT. The layout of command words in their fields (R70 to R78), the decoder and the prose's checks field by field
(R80), and the obligations O1, O2, O3, O4, O5 and O8. -/

namespace Sys2Proof

/-! ### Words as their fields -/

/-- R70: OP is the high four bits of a word. -/
theorem opField_append (w : Word) : opField w ++ w.extractLsb' 0 12 = w := BitVec.extractLsb'_append_extractLsb'

/-- R73: the twelve low bits of a START word are six fixed bits and MODE. -/
theorem modeField_append (w : Word) : w.extractLsb' 6 6 ++ modeFieldOf w = w.extractLsb' 0 12 :=
  BitVec.extractLsb'_append_extractLsb'_eq_extractLsb' rfl

/-- R76: the twelve low bits of a PUSH word are four fixed bits and DATA. -/
theorem dataField_append (w : Word) : w.extractLsb' 8 4 ++ dataFieldOf w = w.extractLsb' 0 12 :=
  BitVec.extractLsb'_append_extractLsb'_eq_extractLsb' rfl

/-- The middle and the low part of three parts put together. -/
theorem extractLsb'_append_middle {k u v : Nat} (a : BitVec k) (b : BitVec u) (c : BitVec v) :
    (a ++ (b ++ c)).extractLsb' v u = b :=
  (BitVec.extractLsb'_append_eq_of_add_le (Nat.add_comm v u).le).trans BitVec.extractLsb'_append_eq_left

theorem extractLsb'_append_low {k u v : Nat} (a : BitVec k) (b : BitVec u) (c : BitVec v) :
    (a ++ (b ++ c)).extractLsb' 0 v = c :=
  (BitVec.extractLsb'_append_eq_of_add_le ((Nat.zero_add v).trans_le (Nat.le_add_left v u))).trans
    BitVec.extractLsb'_append_eq_right

/-- R73, in R73's own form and as the word's fields. -/
theorem encode_start (m : Mode) : encode m.start = 0x1000 ||| m.bits.zeroExtend 16 := by
  cases m <;> rfl

theorem encode_start_eq_append (m : Mode) : encode m.start = 1#4 ++ (0#6 ++ m.bits) := by
  cases m <;> rfl

/-- R76, likewise. -/
theorem encode_push (x : Byte) : encode (.push x) = 0x2000 ||| x.zeroExtend 16 := rfl

theorem encode_push_eq_append (x : Byte) : encode (.push x) = 2#4 ++ (0#4 ++ x) := by
  revert x
  decide

/-! ### The decoder -/

/-- R80: the four ways to spell a command, each by the word's fields. -/
theorem decode_eq_ok_iff {w : Word} {i : Instr} : decode w = .ok i ↔
    (opField w = 0 ∧ w.extractLsb' 0 12 = 0 ∧ .nop = i) ∨
    (opField w = 1 ∧ w.extractLsb' 6 6 = 0 ∧ ∃ m, Mode.ofBits (modeFieldOf w) = some m ∧ m.start = i) ∨
    (opField w = 2 ∧ w.extractLsb' 8 4 = 0 ∧ .push (dataFieldOf w) = i) ∨
    (opField w = 3 ∧ w.extractLsb' 0 12 = 0 ∧ .endFrame = i) := by
  unfold decode
  generalize opField w = op
  split
  next h0 => split <;> simp_all
  split
  next h1 => cases Mode.ofBits (modeFieldOf w) <;> split <;> simp_all
  split
  next h2 => split <;> simp_all
  split
  next h3 => split <;> simp_all
  next => simp_all

/-- R84: the commands are NOP, the START of each mode, the PUSH of each byte, and END. -/
theorem instr_cases (i : Instr) : i = .nop ∨ (∃ m : Mode, i = m.start) ∨ (∃ x, i = .push x) ∨ i = .endFrame := by
  cases i with
  | nop => exact .inl rfl
  | push x => exact .inr (.inr (.inl ⟨x, rfl⟩))
  | endFrame => exact .inr (.inr (.inr rfl))
  | startEncNrzl => exact .inr (.inl ⟨.encNrzl, rfl⟩)
  | startEncNrzi => exact .inr (.inl ⟨.encNrzi, rfl⟩)
  | startEncMan => exact .inr (.inl ⟨.encMan, rfl⟩)
  | startEncDman => exact .inr (.inl ⟨.encDman, rfl⟩)
  | startEncAmi => exact .inr (.inl ⟨.encAmi, rfl⟩)
  | startEncAmiB8zs => exact .inr (.inl ⟨.encAmiB8zs, rfl⟩)
  | startEncAmiHdb3 => exact .inr (.inl ⟨.encAmiHdb3, rfl⟩)
  | startDecNrzl => exact .inr (.inl ⟨.decNrzl, rfl⟩)
  | startDecNrzi => exact .inr (.inl ⟨.decNrzi, rfl⟩)
  | startDecMan => exact .inr (.inl ⟨.decMan, rfl⟩)
  | startDecDman => exact .inr (.inl ⟨.decDman, rfl⟩)
  | startDecAmi => exact .inr (.inl ⟨.decAmi, rfl⟩)

theorem decode_encode (i : Instr) : decode (encode i) = .ok i := by
  rw [decode_eq_ok_iff]
  rcases instr_cases i with rfl | ⟨m, rfl⟩ | ⟨x, rfl⟩ | rfl
  · exact .inl (by decide)
  · rw [encode_start_eq_append]
    exact .inr (.inl ⟨BitVec.extractLsb'_append_eq_left, extractLsb'_append_middle _ _ _, m,
      (congrArg Mode.ofBits (extractLsb'_append_low _ _ _)).trans (ofBits_bits m), rfl⟩)
  · rw [encode_push_eq_append]
    exact .inr (.inr (.inl ⟨BitVec.extractLsb'_append_eq_left, extractLsb'_append_middle _ _ _,
      congrArg Instr.push (extractLsb'_append_low _ _ _)⟩))
  · exact .inr (.inr (.inr (by decide)))

theorem encode_of_decode {w : Word} {i : Instr} (h : decode w = .ok i) : encode i = w := by
  rw [← opField_append w]
  rcases decode_eq_ok_iff.1 h with
    ⟨hop, hlow, rfl⟩ | ⟨hop, hfix, m, hm, rfl⟩ | ⟨hop, hfix, rfl⟩ | ⟨hop, hlow, rfl⟩
  · rw [hop, hlow]; rfl
  · rw [encode_start_eq_append, bits_of_ofBits hm, hop, ← modeField_append, hfix]; rfl
  · rw [encode_push_eq_append, hop, ← dataField_append, hfix]; rfl
  · rw [hop, hlow]; rfl

/-- R80, R82: the words that spell a command are the words of the commands. -/
theorem decode_eq_ok_iff_eq_encode {w : Word} {i : Instr} : decode w = .ok i ↔ w = encode i :=
  ⟨fun h => (encode_of_decode h).symm, fun h => h ▸ decode_encode i⟩

theorem encode_injective : Function.Injective encode := fun i j h =>
  Except.ok.inj ((decode_encode i).symm.trans (h ▸ decode_encode j))

/-- Settles O1: the fields of a command's word are those the decoder asks for, and a word is its fields. -/
theorem decodeAndEncodeAgree : Obligations.DecodeAndEncodeAgree :=
  ⟨fun i _ => decode_encode i, fun _ _ => encode_of_decode⟩

/-- Settles O3: decoding to a command is being its word, and the words of START and PUSH are R73's and R76's. -/
theorem eachCommandHasItsOneWord : Obligations.EachCommandHasItsOneWord :=
  ⟨fun _ => decode_eq_ok_iff_eq_encode,
    fun m _ => encode_start m ▸ decode_eq_ok_iff_eq_encode,
    fun _ _ => decode_eq_ok_iff_eq_encode,
    fun _ => decode_eq_ok_iff_eq_encode⟩

/-- R71, R75, R79: the prose's checks, OP by OP. -/
theorem wordWf_iff {w : Word} : wordWf w = true ↔
    (opField w = 0 ∧ w.extractLsb' 0 12 = 0) ∨
    (opField w = 1 ∧ w.extractLsb' 6 6 = 0 ∧ modeWf (modeFieldOf w) = true) ∨
    (opField w = 2 ∧ w.extractLsb' 8 4 = 0) ∨
    (opField w = 3 ∧ w.extractLsb' 0 12 = 0) := by
  rw [wordWf, opDefined, fixedFieldsZero, modeFieldLegal, ← opField, ← modeFieldOf]
  generalize opField w = op
  by_cases h0 : op = 0
  · simp [h0]
  by_cases h1 : op = 1
  · simp [h1]
  by_cases h2 : op = 2
  · simp [h2]
  by_cases h3 : op = 3
  · simp [h3]
  have hop : ¬ op.toNat ≤ 3 := by bv_omega
  simp only [*, decide_false, Bool.false_and, Bool.false_eq_true, false_and, or_self]

/-- R75: some mode has the bits that pass the prose's checks. -/
theorem exists_start_iff_modeWf {b : BitVec 6} :
    (∃ i, ∃ m, Mode.ofBits b = some m ∧ Mode.start m = i) ↔ modeWf b = true := by
  rw [← ofBits_isSome_eq_modeWf, Option.isSome_iff_exists, exists_comm]
  simp

theorem exists_decode_iff_wordWf {w : Word} : (∃ i, decode w = .ok i) ↔ wordWf w = true := by
  simp only [decode_eq_ok_iff, wordWf_iff, exists_or, exists_and_left, exists_start_iff_modeWf, exists_eq', and_true]

/-- Settles O4: the decoder and the prose's checks ask the same of each OP, and `Mode.ofBits` accepts the MODEs that
`modeWf` does. -/
theorem decoderAcceptsExactlyWellFormedWords : Obligations.DecoderAcceptsExactlyWellFormedWords :=
  fun _ => exists_decode_iff_wordWf

theorem exists_decode_error {w : Word} (h : wordWf w = false) : ∃ e, decode w = .error e := by
  cases hd : decode w with
  | error e => exact ⟨e, rfl⟩
  | ok i => exact absurd (exists_decode_iff_wordWf.1 ⟨i, hd⟩) (by simp [h])

/-- R87: each of the five illegal words fails a check of the prose. -/
theorem illegalExamples_not_wordWf :
    ∀ w : Word, w ∈ [(0x1008 : Word), 0x102C, 0x1005, 0x2100, 0x4000] → wordWf w = false := by
  simp only [List.forall_mem_cons]
  exact ⟨rfl, rfl, rfl, rfl, rfl, List.forall_mem_nil _⟩

/-- Settles O2: the worked words are the words of their commands, and the illegal ones fail the prose's checks. -/
theorem workedEncodingsDecode : Obligations.WorkedEncodingsDecode :=
  ⟨decode_eq_ok_iff_eq_encode.2 (by decide), rfl, rfl, rfl, rfl, decode_eq_ok_iff_eq_encode.2 (by decide),
    decode_eq_ok_iff_eq_encode.2 (by decide), decode_eq_ok_iff_eq_encode.2 (by decide),
    fun w hw => exists_decode_error (illegalExamples_not_wordWf w hw)⟩

/-! ### The legal words, counted -/

/-- The twelve modes (R75). -/
def allModes : List Mode :=
  [.encNrzl, .encNrzi, .encMan, .encDman, .encAmi, .encAmiB8zs, .encAmiHdb3, .decNrzl, .decNrzi, .decMan, .decDman,
    .decAmi]

theorem mem_allModes (m : Mode) : m ∈ allModes := by
  cases m <;> decide

theorem nodup_allModes : allModes.Nodup := by
  decide

/-- The 256 bytes. -/
def allBytes : List Byte := List.ofFn BitVec.ofFin

theorem mem_allBytes (x : Byte) : x ∈ allBytes := List.mem_ofFn.2 ⟨x.toFin, rfl⟩

theorem nodup_allBytes : allBytes.Nodup :=
  List.nodup_ofFn_ofInjective fun _ _ => congrArg BitVec.toFin

theorem length_allBytes : allBytes.length = 256 := List.length_ofFn

/-- Every command once: NOP, END, the START of each mode and the PUSH of each byte (R84). -/
def allInstrs : List Instr := .nop :: .endFrame :: (allModes.map Mode.start ++ allBytes.map Instr.push)

theorem mem_allInstrs (i : Instr) : i ∈ allInstrs := by
  rcases instr_cases i with rfl | ⟨m, rfl⟩ | ⟨x, rfl⟩ | rfl
  · simp [allInstrs]
  · simp [allInstrs, List.mem_map_of_mem (mem_allModes m)]
  · simp [allInstrs, List.mem_map_of_mem (mem_allBytes x)]
  · simp [allInstrs]

theorem length_allInstrs : allInstrs.length = 270 := by
  simp [allInstrs, allModes, length_allBytes]

/-- A START command is no other command. -/
theorem start_ne (m : Mode) : m.start ≠ .nop ∧ m.start ≠ .endFrame ∧ ∀ x, m.start ≠ .push x := by
  cases m <;> simp [Mode.start]

theorem nodup_allInstrs : allInstrs.Nodup := by
  have hstart : (allModes.map Mode.start).Nodup := nodup_allModes.map fun _ _ => start_injective
  have hpush : (allBytes.map Instr.push).Nodup := nodup_allBytes.map fun _ _ => Instr.push.inj
  simp [allInstrs, List.nodup_append, hstart, hpush, start_ne]

/-- Settles O5: the legal words are the words of the 1 + 1 + 12 + 256 commands, and no two commands share one. -/
theorem legalWordsNumber270 : Obligations.LegalWordsNumber270 := by
  refine ⟨allInstrs.map encode, nodup_allInstrs.map encode_injective, ?_, fun w => ?_⟩
  · rw [List.length_map, length_allInstrs]
  · simp only [List.mem_map, mem_allInstrs, true_and, decode_eq_ok_iff_eq_encode, eq_comm (a := w)]

end Sys2Proof

namespace Sys2Proof.Machine

theorem executeWord_error {w : Word} {e : DecodeError} (h : decode w = .error e) (s : State) :
    executeWord w s = .next (illegal s) := by
  simp [executeWord, h]

/-- Settles O8: a write to CMD of a word that spells no command is `illegal`, which sets the flag. -/
theorem illegalWordOnlySetsIll : Obligations.IllegalWordOnlySetsIll := fun _ _ _ _ hh hd =>
  (step_write hh).trans (executeWord_error hd _)

end Sys2Proof.Machine
end

section
/-! SUPPORT. The bytes and modes of the pseudo-instructions (R86): the obligation O58. -/

namespace Sys2Proof.Asm

/-- A list whose members all have a result has the list of the results. -/
theorem mapM_eq_some_map {α β : Type} {f : α → Option β} {g : α → β} {l : List α} (h : ∀ a ∈ l, f a = some (g a)) :
    l.mapM f = some (l.map g) := by
  induction l with
  | nil => rfl
  | cons a l ih =>
    rw [List.forall_mem_cons] at h
    simp [List.mapM_cons, h.1, ih h.2]

theorem charByte_eq_some {c : Char} (h : c.toNat < 256) : charByte c = some (BitVec.ofNat 8 c.toNat) := if_pos h

theorem levelByte_eq_some {v : Int} (h : -128 ≤ v ∧ v ≤ 127) : levelByte v = some (BitVec.ofInt 8 v) := if_pos h

theorem levelByte_eq_none {v : Int} (h : ¬(-128 ≤ v ∧ v ≤ 127)) : levelByte v = none := if_neg h

theorem encode_push_ofNat {n : Nat} (h : n < 256) : encode (.push (BitVec.ofNat 8 n)) = 0x2000 ||| BitVec.ofNat 16 n := by
  rw [encode_push, BitVec.zeroExtend, BitVec.setWidth_ofNat_of_le_of_lt (by decide) h]

theorem modeOf_parts (m : Mode) : modeOf m.dir m.scheme m.scr = some m := ofBits_bits m

/-- R75: a decode mode scrambles nothing. -/
theorem scr_of_dec {m : Mode} (h : m.dir = .dec) : m.scr = .off := by
  by_contra hs
  exact absurd (h.symm.trans (scr_only_with_enc_ami hs).1) (by decide)

/-- R86: ENCODE is PUSHBITS between the START of its mode and END. -/
theorem assemble_encode {m : Mode} (h : m.dir = .enc) (cs : List Char) : assemble (.encode m.scheme m.scr cs) =
    (assemble (.pushBits cs)).map (fun ws => encode m.start :: (ws ++ [encode .endFrame])) := by
  have hm := modeOf_parts m
  rw [h] at hm
  rw [assemble, assemble, hm]
  cases cs.mapM charByte <;> rfl

/-- R86: DECODE is PUSHLEVELS between the START of its mode and END. -/
theorem assemble_decode {m : Mode} (h : m.dir = .dec) (vs : List Int) : assemble (.decode m.scheme vs) =
    (assemble (.pushLevels vs)).map (fun ws => encode m.start :: (ws ++ [encode .endFrame])) := by
  have hm := modeOf_parts m
  rw [h, scr_of_dec h] at hm
  rw [assemble, assemble, hm]
  cases vs.mapM levelByte <;> rfl

/-- Settles O58: every character and level has its byte, so PUSHBITS and PUSHLEVELS are a map, and `modeOf` finds the
mode that has the given parts. -/
theorem pseudoInstructionsExpand : Obligations.PseudoInstructionsExpand := by
  refine ⟨fun cs hcs => ?_, fun vs hvs => ?_, fun m cs hm => assemble_encode hm cs, fun m vs hm => assemble_decode hm vs⟩
  · rw [assemble, mapM_eq_some_map fun c hc => charByte_eq_some (hcs c hc), Option.map_some, pushWords, List.map_map]
    exact congrArg some (List.map_congr_left fun c hc => encode_push_ofNat (hcs c hc))
  · rw [assemble, mapM_eq_some_map fun v hv => levelByte_eq_some (hvs v hv), Option.map_some, pushWords, List.map_map]
    rfl

end Sys2Proof.Asm
end

section
/-! SUPPORT. The numbers, the tokens and the lines of assembler text (R85): the obligations O59 and O60. -/

namespace Sys2Proof.Asm

/-! ### Digits and numbers -/

/-- The digit `d` of a number, as `hexText` writes it. -/
theorem digit_hexDigit {d : Nat} (h : d < 16) : digit 16 (Nat.digitChar d).toUpper = some d := by
  revert d
  decide

theorem digit_of_isDigit {c : Char} (h : c.isDigit = true) : digit 10 c = some (c.toNat - '0'.toNat) := by
  have hc : '0' ≤ c ∧ c ≤ '9' := by simpa [Char.isDigit, Char.le_def] using h
  have hv : c.toNat - '0'.toNat < 10 := by
    have h9 : c.toNat ≤ '9'.toNat := hc.2
    have e0 : '0'.toNat = 48 := rfl
    have e9 : '9'.toNat = 57 := rfl
    omega
  rw [digit, if_pos hc]
  exact if_pos hv

theorem number_append {base n d : Nat} {cs : List Char} {c : Char} (hn : number base cs = some n)
    (hd : digit base c = some d) : number base (cs ++ [c]) = some (n * base + d) := by
  rw [number, Option.map_eq_some_iff] at hn
  obtain ⟨ds, hds, rfl⟩ := hn
  simp [number, List.mapM_append, hds, hd]

/-- Hexadecimal digits spell the number they were written from, as far as they reach. -/
theorem number_hexText (k n : Nat) : number 16 (hexText k n) = some (n % 16 ^ k) := by
  induction k generalizing n with
  | zero => simp [hexText, number, Nat.mod_one]
  | succ k ih =>
    rw [hexText, number_append (ih (n / 16)) (digit_hexDigit (Nat.mod_lt n (by decide))), Nat.pow_succ', Nat.mod_mul,
      Nat.add_comm, Nat.mul_comm]

theorem number_of_isDigit {cs : List Char} (h : ∀ c ∈ cs, c.isDigit = true) :
    number 10 cs = some (Nat.ofDigitChars 10 cs 0) := by
  rw [number, mapM_eq_some_map fun c hc => digit_of_isDigit (h c hc), Option.map_some, List.foldl_map,
    Nat.ofDigitChars_eq_foldl]
  simp only [Nat.mul_comm]

theorem isDigit_toDigits {n : Nat} : ∀ c ∈ Nat.toDigits 10 n, c.isDigit = true :=
  fun _ => Nat.isDigit_of_mem_toDigits (by decide) le_rfl

theorem number_toDigits (n : Nat) : number 10 (Nat.toDigits 10 n) = some n := by
  rw [number_of_isDigit isDigit_toDigits, Nat.ofDigitChars_ten_toDigits]

theorem hexByte_hexText (x : Byte) : hexByte ('0' :: 'X' :: hexText 2 x.toNat) = some x := by
  refine (congrArg (Option.map (BitVec.ofNat 8)) (number_hexText 2 x.toNat)).trans ?_
  rw [show 16 ^ 2 = 2 ^ 8 from rfl, Nat.mod_eq_of_lt x.isLt, Option.map_some, BitVec.ofNat_toNat, BitVec.setWidth_eq]

theorem hexWord_hexText (w : Word) : hexWord ('0' :: 'X' :: hexText 4 w.toNat) = some w := by
  refine (congrArg (Option.map (BitVec.ofNat 16)) (number_hexText 4 w.toNat)).trans ?_
  rw [show 16 ^ 4 = 2 ^ 16 from rfl, Nat.mod_eq_of_lt w.isLt, Option.map_some, BitVec.ofNat_toNat, BitVec.setWidth_eq]

/-- A text without an X is no hexadecimal byte. -/
theorem hexByte_eq_none {cs : List Char} (h : 'X' ∉ cs) : hexByte cs = none := by
  unfold hexByte
  split
  · simp at h
  · rfl

theorem signedDec_of_isDigit {c : Char} (cs : List Char) (h : c.isDigit = true) :
    signedDec (c :: cs) = (number 10 (c :: cs)).map (fun n => (n : Int)) := by
  have hminus : c ≠ '-' := by rintro rfl; exact absurd h (by decide)
  have hplus : c ≠ '+' := by rintro rfl; exact absurd h (by decide)
  simp [signedDec, hminus, hplus]

theorem toDigits_eq_cons (n : Nat) : ∃ c cs, Nat.toDigits 10 n = c :: cs ∧ c.isDigit = true := by
  obtain ⟨c, cs, h⟩ := List.exists_cons_of_ne_nil (Nat.toDigits_ne_nil (n := n) (b := 10))
  exact ⟨c, cs, h, isDigit_toDigits c (h ▸ List.mem_cons_self)⟩

theorem signedDec_toDigits (n : Nat) : signedDec (Nat.toDigits 10 n) = some (n : Int) := by
  obtain ⟨c, cs, h, hc⟩ := toDigits_eq_cons n
  rw [h, signedDec_of_isDigit cs hc, ← h, number_toDigits]
  rfl

theorem signedDec_plus (n : Nat) : signedDec ('+' :: Nat.toDigits 10 n) = some (n : Int) := by
  obtain ⟨c, cs, h, -⟩ := toDigits_eq_cons n
  rw [h, signedDec, ← h, number_toDigits]
  rfl

theorem signedDec_minus (n : Nat) : signedDec ('-' :: Nat.toDigits 10 n) = some (-(n : Int)) := by
  obtain ⟨c, cs, h, -⟩ := toDigits_eq_cons n
  rw [h, signedDec, ← h, number_toDigits]
  rfl

/-! ### Literals -/

/-- A character that the lexer takes into a name and leaves as it is. -/
abbrev Plain (c : Char) : Prop := isDelimiter c = false ∧ c.toUpper = c

/-- A text that is one literal, spelled as the lexer gives it: in capital letters and no keyword. -/
structure IsLiteral (cs : List Char) : Prop where
  ne_nil : cs ≠ []
  noKeyword : keyword cs = none
  plain : ∀ c ∈ cs, Plain c

/-- A keyword begins with a letter or a point. -/
theorem keyword_eq_none {c : Char} (cs : List Char) (ha : c.isAlpha = false) (hp : c ≠ '.') :
    keyword (c :: cs) = none := by
  have hne : ∀ d : Char, d.isAlpha = true → c ≠ d := fun d hd e => absurd (e ▸ ha) (by simp [hd])
  simp [keyword, hp, hne]

theorem IsLiteral.of_cons {c : Char} {cs : List Char} (ha : c.isAlpha = false) (hp : c ≠ '.')
    (h : ∀ d ∈ c :: cs, Plain d) : IsLiteral (c :: cs) :=
  ⟨List.cons_ne_nil c cs, keyword_eq_none cs ha hp, h⟩

theorem isAlpha_of_isDigit {c : Char} (h : c.isDigit = true) : c.isAlpha = false := by
  simp only [Char.isDigit, Bool.and_eq_true, decide_eq_true_eq] at h
  have h9 : c.toNat ≤ 57 := h.2
  have hA : ¬ 65 ≤ c.toNat := by omega
  have ha : ¬ 97 ≤ c.toNat := by omega
  simp [Char.isAlpha, Char.isUpper, Char.isLower, UInt32.le_iff_toNat_le, hA, ha]

theorem plain_of_isDigit {c : Char} (h : c.isDigit = true) : Plain c := by
  have hne : ∀ d : Char, d.isDigit = false → c ≠ d := fun d hd e => absurd (e ▸ h) (by simp [hd])
  exact ⟨by simp [isDelimiter, hne], (toUpper_eq_iff (isAlpha_of_isDigit h)).2 rfl⟩

theorem plain_hexText (k n : Nat) : ∀ c ∈ hexText k n, Plain c := by
  have hdigit : ∀ d < 16, isDelimiter (Nat.digitChar d).toUpper = false := by decide
  induction k generalizing n with
  | zero => simp [hexText]
  | succ k ih =>
    simp only [hexText, List.mem_append, List.mem_singleton]
    rintro c (hc | rfl)
    · exact ih _ c hc
    · exact ⟨hdigit _ (Nat.mod_lt n (by decide)), Char.toUpper_toUpper_eq_toUpper _⟩

theorem isLiteral_hexText (k n : Nat) : IsLiteral ('0' :: 'X' :: hexText k n) := by
  refine .of_cons rfl (by decide) ?_
  simp only [List.forall_mem_cons]
  exact ⟨by decide, by decide, plain_hexText k n⟩

theorem plain_toDigits (n : Nat) : ∀ c ∈ Nat.toDigits 10 n, Plain c :=
  fun c hc => plain_of_isDigit (isDigit_toDigits c hc)

theorem isLiteral_toDigits (n : Nat) : IsLiteral (Nat.toDigits 10 n) := by
  obtain ⟨c, cs, h, hc⟩ := toDigits_eq_cons n
  have hplain := plain_toDigits n
  rw [h] at hplain ⊢
  exact .of_cons (isAlpha_of_isDigit hc) (by rintro rfl; exact absurd hc (by decide)) hplain

theorem isLiteral_signed {c : Char} (n : Nat) (h : c = '+' ∨ c = '-') : IsLiteral (c :: Nat.toDigits 10 n) := by
  rcases h with rfl | rfl
  all_goals exact .of_cons rfl (by decide) (List.forall_mem_cons.2 ⟨by decide, plain_toDigits n⟩)

/-! ### Tokens -/

theorem beginToken_of_not_delimiter {c : Char} (h : isDelimiter c = false) : beginToken c = ([], .name [c]) := by
  simp only [isDelimiter, Bool.or_eq_false_iff, decide_eq_false_iff_not] at h
  simp [beginToken, h]

/-- Characters of a name go to the name. -/
theorem lex_name_append (acc : List Char) {name : List Char} (h : ∀ c ∈ name, isDelimiter c = false) (cs : List Char) :
    lex (.name acc) (name ++ cs) = lex (.name (name.reverse ++ acc)) cs := by
  induction name generalizing acc with
  | nil => rfl
  | cons c name ih =>
    rw [List.forall_mem_cons] at h
    simp [lex, h.1, ih (c :: acc) h.2]

/-- Outside a token a name begins at its first character. -/
theorem lex_gap_append {name : List Char} (hne : name ≠ []) (h : ∀ c ∈ name, isDelimiter c = false) (cs : List Char) :
    lex .gap (name ++ cs) = lex (.name name.reverse) cs := by
  obtain ⟨c, name, rfl⟩ := List.exists_cons_of_ne_nil hne
  rw [List.forall_mem_cons] at h
  simp [lex, beginToken_of_not_delimiter h.1, lex_name_append [c] h.2]

theorem lex_name_space (acc cs : List Char) :
    lex (.name acc) (' ' :: cs) = (lex .gap cs).map (nameToken acc :: ·) := rfl

theorem nameToken_literal {cs : List Char} (h : IsLiteral cs) : nameToken cs.reverse = .lit cs := by
  have hupper : cs.map Char.toUpper = cs := (List.map_congr_left fun c hc => (h.plain c hc).2).trans (List.map_id cs)
  simp [nameToken, hupper, h.noKeyword]

theorem lex_literal {cs : List Char} (h : IsLiteral cs) : lex .gap cs = some [.lit cs] := by
  have hname := lex_gap_append h.ne_nil (fun c hc => (h.plain c hc).1) []
  rw [List.append_nil] at hname
  rw [hname, lex, nameToken_literal h]

/-- R85: the mnemonics PUSH and .word before an operand. -/
theorem lex_push (cs : List Char) : lex .gap ("PUSH ".toList ++ cs) = (lex .gap cs).map (.key .push :: ·) :=
  lex_gap_append (name := ['P', 'U', 'S', 'H']) (by decide) (by simp [isDelimiter]) (' ' :: cs)

theorem lex_word (cs : List Char) : lex .gap (".WORD ".toList ++ cs) = (lex .gap cs).map (.key .word :: ·) :=
  lex_gap_append (name := ['.', 'W', 'O', 'R', 'D']) (by decide) (by simp [isDelimiter]) (' ' :: cs)

/-! ### Lines -/

/-- A line of a PUSH and one operand gives what its operand gives. -/
theorem assembleLine_of_push {cs : List Char} {t : Token} (h : lex .gap cs = some [.key .push, t]) :
    assembleLine cs = (imm8 t).map (fun x => [encode (.push x)]) := by
  rw [assembleLine, h]
  cases hx : imm8 t <;> simp [parse, hx, assemble]

theorem lex_push_literal {cs : List Char} (h : IsLiteral cs) :
    lex .gap ("PUSH ".toList ++ cs) = some [.key .push, .lit cs] := by
  rw [lex_push, lex_literal h]
  rfl

theorem assembleLine_push_literal {cs : List Char} (h : IsLiteral cs) :
    assembleLine ("PUSH ".toList ++ cs) = (imm8 (.lit cs)).map (fun x => [encode (.push x)]) :=
  assembleLine_of_push (lex_push_literal h)

theorem assembleLine_push_spells {cs line : List Char} {x : Byte} (h : IsLiteral cs) (hx : imm8 (.lit cs) = some x)
    (hs : spells line ("PUSH ".toList ++ cs)) : assembleLine line = some [encode (.push x)] := by
  rw [assembleLine_spells hs (lex_push_literal h) rfl, assembleLine_push_literal h, hx, Option.map_some]

theorem assembleLine_push_none {cs : List Char} (h : IsLiteral cs) (hx : imm8 (.lit cs) = none) :
    assembleLine ("PUSH ".toList ++ cs) = none := by
  rw [assembleLine_push_literal h, hx, Option.map_none]

theorem imm8_hexText (x : Byte) : imm8 (.lit ('0' :: 'X' :: hexText 2 x.toNat)) = some x := by
  rw [imm8, hexByte_hexText]

/-- A number without an X is read as a signed decimal. -/
theorem imm8_of_signedDec {cs : List Char} {v : Int} (hx : 'X' ∉ cs) (hv : signedDec cs = some v) :
    imm8 (.lit cs) = levelByte v := by
  rw [imm8, hexByte_eq_none hx, hv]

theorem X_notMem_toDigits (n : Nat) : 'X' ∉ Nat.toDigits 10 n :=
  fun h => absurd (isDigit_toDigits _ h) (by decide)

theorem imm8_toDigits (n : Nat) : imm8 (.lit (Nat.toDigits 10 n)) = levelByte n :=
  imm8_of_signedDec (X_notMem_toDigits n) (signedDec_toDigits n)

theorem imm8_plus (n : Nat) : imm8 (.lit ('+' :: Nat.toDigits 10 n)) = levelByte n :=
  imm8_of_signedDec (by simp [X_notMem_toDigits]) (signedDec_plus n)

theorem imm8_minus (n : Nat) : imm8 (.lit ('-' :: Nat.toDigits 10 n)) = levelByte (-(n : Int)) :=
  imm8_of_signedDec (by simp [X_notMem_toDigits]) (signedDec_minus n)

/-- R85's table, line by line: its tokens have no letter case, it assembles to its word, and the word is its command's. -/
theorem commandLines_assemble : ∀ e ∈ commandLines, (lex .gap e.1.toList).any (·.all rigid) = true ∧
    assembleLine e.1.toList = some [e.2.1] ∧ e.2.1 = encode e.2.2 := by
  decide

theorem commandLines_cover (i : Instr) : (∃ x, i = .push x) ∨ ∃ e ∈ commandLines, e.2.2 = i := by
  rcases instr_cases i with rfl | ⟨m, rfl⟩ | ⟨x, rfl⟩ | rfl
  · exact .inr (by decide)
  · cases m <;> exact .inr (by decide)
  · exact .inl ⟨x, rfl⟩
  · exact .inr (by decide)

theorem commandLine_spells {e : String × Word × Instr} (he : e ∈ commandLines) {cs : List Char}
    (hs : spells cs e.1.toList) : assembleLine cs = some [e.2.1] ∧ decode e.2.1 = .ok e.2.2 := by
  obtain ⟨hlex, hline, hword⟩ := commandLines_assemble e he
  obtain ⟨ts, hts, hr⟩ := Option.any_eq_true _ _ |>.1 hlex
  exact ⟨(assembleLine_spells hs hts hr).trans hline, decode_eq_ok_iff_eq_encode.2 hword⟩

theorem assembleLine_word_spells {w : Word} {cs : List Char}
    (hs : spells cs (".WORD ".toList ++ '0' :: 'X' :: hexText 4 w.toNat)) : assembleLine cs = some [w] := by
  have hlex : lex .gap (".WORD ".toList ++ '0' :: 'X' :: hexText 4 w.toNat) =
      some [.key .word, .lit ('0' :: 'X' :: hexText 4 w.toNat)] := by
    rw [lex_word, lex_literal (isLiteral_hexText 4 w.toNat)]
    rfl
  rw [assembleLine_spells hs hlex rfl, assembleLine, hlex]
  simp [parse, hexWord_hexText, assemble]

/-- Settles O59: the table's lines are checked one by one, and a change of case leaves every token of theirs; a number of
any operand is the literal it spells. -/
theorem everyCommandHasAssemblerText : Obligations.EveryCommandHasAssemblerText := by
  refine ⟨fun e he cs hs => commandLine_spells he hs, commandLines_cover,
    fun x cs hs => assembleLine_push_spells (isLiteral_hexText 2 x.toNat) (imm8_hexText x) hs, fun n cs hn hs => ?_,
    fun n cs hn hs => ?_, fun w cs hs => assembleLine_word_spells hs⟩
  · have hb : levelByte (n : Int) = some (BitVec.ofNat 8 n) :=
      (levelByte_eq_some (by omega)).trans (congrArg some (BitVec.ofInt_natCast 8 n))
    rw [← encode_push_ofNat (by omega)]
    rcases hs with hs | hs
    · exact assembleLine_push_spells (isLiteral_toDigits n) ((imm8_toDigits n).trans hb) hs
    · exact assembleLine_push_spells (isLiteral_signed n (.inl rfl)) ((imm8_plus n).trans hb) hs
  · exact assembleLine_push_spells (isLiteral_signed n (.inr rfl))
      ((imm8_minus n).trans (levelByte_eq_some (by omega))) hs

/-! ### Comments, line ends and errors -/

theorem assembleLine_push_chr (c : Char) : assembleLine ("PUSH '".toList ++ [c, '\'']) =
    (imm8 (.chr c)).map (fun x => [encode (.push x)]) :=
  assembleLine_of_push (lex_push ['\'', c, '\''])

theorem imm8_chr_eq_none {c : Char} (h0 : c ≠ '0') (h1 : c ≠ '1') : imm8 (.chr c) = none := by
  simp [imm8, h0, h1]

/-- R85: a comment changes nothing where the line before it has tokens. -/
theorem assembleLine_comment {cs : List Char} {ts : List Token} (rest : List Char) (h : lex .gap cs = some ts) :
    assembleLine (cs ++ ';' :: rest) = assembleLine cs := by
  rw [assembleLine, assembleLine, lex_comment rest h, h]

theorem lex_of_assembleLine {cs : List Char} {ws : List Word} (h : assembleLine cs = some ws) :
    ∃ ts, lex .gap cs = some ts :=
  (Option.bind_eq_some_iff.1 h).imp fun _ => And.left

theorem assembleText_line {cs : List Char} (h : '\n' ∉ cs) : assembleText cs = assembleLine cs := by
  rw [assembleText, (splitLines_line_end [] cs h).1]
  cases hl : assembleLine cs <;> simp [hl]

theorem assembleText_line_end {cs : List Char} (h : '\n' ∉ cs) (text : List Char) :
    assembleText (cs ++ '\n' :: text) =
      (assembleLine cs).bind (fun ws => (assembleText text).map (ws ++ ·)) := by
  rw [assembleText, (splitLines_line_end [] cs h).2 text]
  cases hl : assembleLine cs <;> cases ht : (splitLines [] text).mapM assembleLine <;>
    simp [assembleText, List.mapM_cons, hl, ht]

/-- Settles O60: a line end cuts the text, a comment adds no token to a line that has tokens, and PUSH fails where its
operand gives no byte. -/
theorem assemblerLinesCommentsAndErrors : Obligations.AssemblerLinesCommentsAndErrors := by
  refine ⟨fun cs h => ⟨assembleText_line h, assembleText_line_end h⟩, fun cs rest ws h => ?_, fun cs rest h1 h2 => ?_,
    fun c h0 h1 => ?_, fun n hn => ⟨?_, ?_⟩, fun n hn => ?_, ?_⟩
  · obtain ⟨ts, hts⟩ := lex_of_assembleLine h
    exact (assembleLine_comment rest hts).trans h
  · obtain ⟨ts, hts⟩ := lex_total h1 h2 (.inl rfl)
    exact assembleLine_comment rest hts
  · rw [assembleLine_push_chr, imm8_chr_eq_none h0 h1, Option.map_none]
  · exact assembleLine_push_none (isLiteral_toDigits n) ((imm8_toDigits n).trans (levelByte_eq_none (by omega)))
  · exact assembleLine_push_none (isLiteral_signed n (.inl rfl)) ((imm8_plus n).trans (levelByte_eq_none (by omega)))
  · exact assembleLine_push_none (isLiteral_signed n (.inr rfl)) ((imm8_minus n).trans (levelByte_eq_none (by omega)))
  · decide

end Sys2Proof.Asm
end

section
/-! SUPPORT. The commands of frame control one at a time (R91 to R98, R202): the obligations O10, O11, O12, O14 and
O38. -/

namespace Sys2Proof.Machine

/-! ### NOP, START and the phases -/

/-- Settles O10: `execNop` answers the state it is given, and NOP's word decodes to NOP. -/
theorem nopChangesNothing : Obligations.NopChangesNothing :=
  ⟨fun _ => rfl, by simp [pushedByte, decode_encode]⟩

/-- R92: the seed of the decoder's level is the byte of the encoder's. -/
theorem byte_lineSeed (m : Mode) : (lineSeed m).byte = if m.scheme = .dman then 0x01 else 0xFF := by
  unfold lineSeed
  split <;> decide

/-- Settles O11: an idle LCC takes START as `start`, which writes every field but the queue and the host's side. -/
theorem startOpensFrameAndLoadsSeeds : Obligations.StartOpensFrameAndLoadsSeeds := by
  intro m s ha
  rw [exec_start_idle m ha, ← byte_lineSeed]
  rfl

/-- Settles O12: each command out of its phase is `protocolError`. -/
theorem commandOutOfPhaseOnlySetsProto : Obligations.CommandOutOfPhaseOnlySetsProto :=
  ⟨fun m _ ha => exec_start_open m ha, fun x _ ha => exec_push_idle x ha, fun _ ha => exec_end_idle ha⟩

/-- Settles O38: a command completes whatever the host does next, and a word is a command or `illegal`. -/
theorem everyCommandCompletes : Obligations.EveryCommandCompletes := by
  refine ⟨fun i s => ?_, executeWord_completes⟩
  obtain ⟨t, ht⟩ := exec_withHost i s
  exact ⟨_, ht s.host⟩

/-! ### END -/

/-- R96: END of a scrambled frame flushes, and that of a pair decoder's drops a held level. -/
theorem releaseHeld_scrambled {s : State} (hs : s.mode.scr ≠ .off) : releaseHeld s = flushZeros s := by
  simp [releaseHeld, (scr_only_with_enc_ami hs).1, hs]

theorem releaseHeld_unpaired {s : State} (hp : pairDecoder s.mode = true) (hv : s.decHv = true) :
    releaseHeld s = dropUnpaired s := by
  simp_all [releaseHeld, pairDecoder]

/-- R96: END releases nothing where neither a scrambler nor a pair decoder holds an item. -/
theorem releaseHeld_nothing {s : State} (hs : s.mode.scr = .off) (hv : pairDecoder s.mode = true → s.decHv = false) :
    releaseHeld s = s := by
  rcases releaseHeld_cases s with ⟨-, hne, -⟩ | ⟨hp, hheld, -⟩ | ⟨e, -⟩
  · exact absurd hs hne
  · exact absurd (hheld.symm.trans (hv hp)) (by decide)
  · exact e

@[simp] theorem releaseHeld_any (s : State) : (releaseHeld s).any = s.any := by
  rcases releaseHeld_cases s with ⟨-, -, e⟩ | ⟨-, -, e⟩ | ⟨e, -⟩ <;> simp [e]

@[simp] theorem releaseHeld_inv (s : State) : (releaseHeld s).inv = s.inv := by
  rcases releaseHeld_cases s with ⟨-, -, e⟩ | ⟨-, -, e⟩ | ⟨e, -⟩ <;> simp [e]

theorem closeFrame_aborted {s : State} (hi : s.inv = true) :
    closeFrame s = { s with empty := !s.any, act := false } := by
  simp [closeFrame, hi]

theorem closeFrame_unaborted {s : State} (hi : s.inv = false) :
    closeFrame s = { releaseHeld s with empty := !s.any, act := false } := by
  simp [closeFrame, hi]

/-- R26, R96: an END with nothing held and nothing reported yet. -/
theorem closeFrame_nothing {s : State} (hi : s.inv = false) (hs : s.mode.scr = .off)
    (hv : pairDecoder s.mode = true → s.decHv = false) : closeFrame s = { s with empty := !s.any, act := false } := by
  rw [closeFrame_unaborted hi, releaseHeld_nothing hs hv]

/-- R26: an END without an item reports `EMPTY` alone, since nothing is held. -/
theorem closeFrame_empty {s : State} (hn : s.any = false) (h : Inv s) : (closeFrame s).out = s.out ∧
    (closeFrame s).empty = true ∧ (closeFrame s).trunc = false ∧ (closeFrame s).act = false := by
  obtain ⟨hi, ht, hv, hz⟩ := h.noItemNothing hn
  rw [closeFrame_unaborted hi]
  by_cases hs : s.mode.scr = .off
  · rw [releaseHeld_nothing hs fun _ => hv]
    exact ⟨rfl, by simp [hn], ht, rfl⟩
  · rw [releaseHeld_scrambled hs]
    exact ⟨by simp [hz], by simp [hn], ht, rfl⟩

/-- Settles O14: END is `closeFrame`, clause by clause of R96. -/
theorem endReleasesHeldItemsAndCloses : Obligations.EndReleasesHeldItemsAndCloses := by
  refine ⟨fun s ha hi => ?_, fun s ha hi _ hs => ?_, fun s ha hi hd hs => ?_, fun s ha hi hm hv => ?_,
    fun s ha hi hm hv => ?_, fun s ha hi hm => ?_, fun s ha hn h => ⟨_, exec_end_open ha, closeFrame_empty hn h⟩⟩ <;>
    rw [exec_end_open ha]
  · rw [closeFrame_aborted hi]
  · rw [closeFrame_unaborted hi, releaseHeld_scrambled hs]
    rfl
  · rw [closeFrame_nothing hi hs fun hp => by simp [pairDecoder, hd] at hp]
  · have hp : pairDecoder s.mode = true := by rcases hm with hm | hm <;> rw [hm] <;> rfl
    rw [closeFrame_unaborted hi, releaseHeld_unpaired hp hv]
    rfl
  · have hs : s.mode.scr = .off := by rcases hm with hm | hm <;> rw [hm] <;> rfl
    rw [closeFrame_nothing hi hs fun _ => hv]
  · have hs : s.mode.scr = .off := by rcases hm with hm | hm | hm <;> rw [hm] <;> rfl
    have hp : pairDecoder s.mode = false := by rcases hm with hm | hm | hm <;> rw [hm] <;> rfl
    rw [closeFrame_nothing hi hs fun hpair => absurd (hp.symm.trans hpair) (by decide)]

end Sys2Proof.Machine
end

section
/-! SUPPORT. What a PUSH leaves alone (R94, R95, R110 to R117, R150 to R160), and how many bytes a command emits (R94,
R197): the obligations O31 and O47. -/

namespace Sys2Proof.Machine

/-- R153: the schemes that take one level a bit. -/
theorem samplesPerBit_ne_two {k : Scheme} (h1 : k ≠ .man) (h2 : k ≠ .dman) : samplesPerBit k ≠ 2 := by
  cases k <;> simp_all [samplesPerBit]

/-- R110, R112, R113 to R117: what a PUSH in an encode frame that is not aborted writes. -/
theorem encPush_writes (x : Byte) (s : State) :
    ∃ inv ys cur last pol par zc,
      encPush x s = { s with
        inv := inv, out := s.out ++ ys, encCur := cur, amiLast := last, scrPol := pol, scrPar := par, scrZc := zc } ∧
      (s.mode.scheme ≠ .nrzi → s.mode.scheme ≠ .dman → cur = s.encCur) ∧
      (s.mode.scheme ≠ .ami → last = s.amiLast) ∧
      (s.mode.scr = .off → pol = s.scrPol ∧ zc = s.scrZc) ∧
      (s.mode.scr ≠ .hdb3 → par = s.scrPar) := by
  rcases encPush_cases x s with ⟨-, e⟩ | ⟨b, -, e⟩
  · exact ⟨true, [], s.encCur, s.amiLast, s.scrPol, s.scrPar, s.scrZc, by simp [e], fun _ _ => rfl, fun _ => rfl,
      fun _ => ⟨rfl, rfl⟩, fun _ => rfl⟩
  · obtain ⟨ys, cur, last, pol, par, zc, e2, hcur, hlast, hoff, hpar⟩ := mapBit_writes b s
    exact ⟨s.inv, ys, cur, last, pol, par, zc, e.trans e2, hcur, hlast, fun h => ⟨(hoff h).1, (hoff h).2.2⟩, hpar⟩

/-- Settles O31: a PUSH is an item of the encoder or of the decoder, each of which writes its own fields. -/
theorem pushFrameRule : Obligations.PushFrameRule := by
  intro x s t h
  rcases Bool.eq_false_or_eq_true s.act with ha | ha
  · obtain rfl := Host.Outcome.next.inj ((exec_push_open ha x).symm.trans h)
    have hidle : ∀ u, s.act = false → u := fun _ hf => absurd (ha.symm.trans hf) (by decide)
    rcases push_cases x s with ⟨-, e⟩ | ⟨-, hd, e⟩ | ⟨-, hd, e⟩
    · rw [e]
      exact ⟨⟨rfl, rfl, rfl, rfl, rfl, rfl, rfl, [], by simp⟩, hidle _, fun _ => ⟨rfl, rfl⟩, fun _ => ⟨rfl, rfl, rfl⟩,
        fun _ => ⟨rfl, rfl, rfl, rfl, rfl, rfl⟩, fun _ _ => ⟨rfl, rfl⟩, fun _ => rfl, fun _ => ⟨rfl, rfl⟩, fun _ => rfl,
        fun _ _ => ⟨rfl, rfl⟩⟩
    · obtain ⟨inv, ys, cur, last, pol, par, zc, e2, hcur, hlast, hoff, hpar⟩ := encPush_writes x { s with any := true }
      rw [e, e2]
      exact ⟨⟨rfl, rfl, rfl, rfl, rfl, rfl, rfl, ys, rfl⟩, hidle _, fun _ => ⟨rfl, rfl⟩, fun _ => ⟨rfl, rfl, rfl⟩,
        fun hdec => absurd (hd.symm.trans hdec) (by decide), fun h1 h2 => ⟨hcur h1 h2, rfl⟩, hlast, hoff, hpar,
        fun _ _ => ⟨rfl, rfl⟩⟩
    · obtain ⟨ys, prev, hv, hlevel, e2, -, hprev, hpair⟩ := decPush_writes x { s with any := true }
      rw [e, e2]
      exact ⟨⟨rfl, rfl, rfl, rfl, rfl, rfl, rfl, ys, rfl⟩, hidle _, fun _ => ⟨rfl, rfl⟩,
        fun henc => absurd (hd.symm.trans henc) (by decide), fun _ => ⟨rfl, rfl, rfl, rfl, rfl, rfl⟩,
        fun h1 h2 => ⟨rfl, hprev h1 h2⟩, fun _ => rfl, fun _ => ⟨rfl, rfl⟩, fun _ => rfl,
        fun h1 h2 => hpair (samplesPerBit_ne_two h1 h2)⟩
  · obtain rfl := Host.Outcome.next.inj ((exec_push_idle x ha).symm.trans h)
    exact ⟨⟨rfl, rfl, rfl, rfl, rfl, rfl, rfl, [], by simp⟩, fun _ => rfl,
      fun hopen => absurd (ha.symm.trans hopen) (by decide), fun _ => ⟨rfl, rfl, rfl⟩,
      fun _ => ⟨rfl, rfl, rfl, rfl, rfl, rfl⟩, fun _ _ => ⟨rfl, rfl⟩, fun _ => rfl, fun _ => ⟨rfl, rfl⟩, fun _ => rfl,
      fun _ _ => ⟨rfl, rfl⟩⟩

/-- Settles O47: a PUSH emits what its item makes the encoder or decoder emit, an END the held zeros, of which there are
at most seven. -/
theorem emissionBounds : Obligations.EmissionBounds := by
  intro i s t h
  rcases exec_cases h with ⟨rfl, rfl⟩ | ⟨m, rfl, -, rfl⟩ | ⟨x, rfl, -, rfl⟩ | ⟨rfl, -, rfl⟩ | ⟨-, rfl⟩
  · exact ⟨[], by simp⟩
  · exact ⟨[], by simp⟩
  · obtain ⟨ys, hout, hlen⟩ := push_emits x s
    exact ⟨ys, hout, hlen, nofun, nofun, fun m hm => absurd hm.symm ((start_ne m).2.2 x)⟩
  · obtain ⟨n, hn, hout⟩ := closeFrame_emits s
    exact ⟨_, hout, by simp; omega, fun _ => by simpa using hn, nofun, fun m hm => absurd hm.symm (start_ne m).2.1⟩
  · exact ⟨[], by simp⟩

end Sys2Proof.Machine
end

section
/-! SUPPORT. The source's two scans (R131, R135) as one scan that counts the zeros it holds: the reference loops rewrite
their list at an index, `windowScan` looks for a block at the head of what is left, and `scanFrom` holds zeros as the
scrambler stage does. -/

namespace Sys2Proof

/-- What tells B8ZS and HDB3 apart as scans: the zeros a block takes, the block for a last pulse `p` and a pulse count
`c`, the last pulse the block leaves, and what is remembered of a pulse. -/
structure ScanRule where
  run : Nat
  block : Int → Nat → List Int
  last : Int → Nat → Int
  keep : Int → Int

/-- B8ZS (R131, R132). -/
def b8zsRule : ScanRule := ⟨8, fun p _ => [0, 0, 0, p, -p, 0, -p, p], fun p _ => p, Int.sign⟩

/-- HDB3 (R135, R136). -/
def hdb3Rule : ScanRule :=
  ⟨4, fun p c => if c % 2 = 0 then [p, 0, 0, p] else [0, 0, 0, -p], fun p c => if c % 2 = 0 then p else -p, id⟩

/-- The scan from last pulse `p` and pulse count `c` with `k` zeros held. -/
def scanFrom (r : ScanRule) (p : Int) (c k : Nat) : List Int → List Int
  | [] => List.replicate k 0
  | v :: vs =>
    if v = 0 then
      if k + 1 = r.run then r.block p c ++ scanFrom r (r.last p c) (c + 1) 0 vs else scanFrom r p c (k + 1) vs
    else List.replicate k 0 ++ v :: scanFrom r (r.keep v) (c + 1) 0 vs

/-- The reference loops on the part of the list that is left to scan. -/
def windowScan (r : ScanRule) : Nat → Int → Nat → List Int → List Int
  | 0, _, _, a => a
  | fuel + 1, p, c, a =>
    if zeroWindow r.run a 0 then r.block p c ++ windowScan r fuel (r.last p c) (c + 1) (a.drop r.run)
    else
      match a with
      | [] => []
      | v :: vs =>
        if v = 0 then v :: windowScan r fuel p c vs else v :: windowScan r fuel (r.keep v) (c + 1) vs

/-! ### Windows -/

theorem zeroWindow_append (n : Nat) (pre a : List Int) : zeroWindow n (pre ++ a) pre.length = zeroWindow n a 0 := by
  simp [zeroWindow]

/-- R131, R135: a window of zeros is a run of zeros at the head. -/
theorem zeroWindow_iff {n : Nat} {a : List Int} : zeroWindow n a 0 = true ↔ ∃ b, a = List.replicate n 0 ++ b := by
  simp only [zeroWindow, Nat.zero_add, List.drop_zero, Bool.and_eq_true, decide_eq_true_eq, List.all_eq_true]
  constructor
  · rintro ⟨hlen, hzero⟩
    have htake : a.take n = List.replicate n 0 := List.eq_replicate_iff.2 ⟨by simp [hlen], hzero⟩
    exact ⟨a.drop n, by rw [← htake, List.take_append_drop]⟩
  · rintro ⟨b, rfl⟩
    simp

/-- Fewer zeros than a block takes, with no zero after them, are no window. -/
theorem zeroWindow_short {n k : Nat} {b : List Int} (hk : k < n) (hb : ∀ v ∈ b.head?, v ≠ 0) :
    zeroWindow n (List.replicate k 0 ++ b) 0 = false := by
  refine Bool.eq_false_iff.2 fun hw => ?_
  obtain ⟨c, hc⟩ := zeroWindow_iff.1 hw
  obtain ⟨j, rfl⟩ := Nat.exists_eq_add_of_lt hk
  rw [Nat.add_assoc, List.replicate_add, List.append_assoc, List.append_cancel_left_eq] at hc
  simp [hc, List.replicate_succ] at hb

/-! ### From windows to held zeros -/

theorem windowScan_cons {r : ScanRule} {fuel : Nat} {p v : Int} {c : Nat} {vs : List Int}
    (hw : zeroWindow r.run (v :: vs) 0 = false) : windowScan r (fuel + 1) p c (v :: vs) =
      if v = 0 then v :: windowScan r fuel p c vs else v :: windowScan r fuel (r.keep v) (c + 1) vs := by
  simp [windowScan, hw]

theorem windowScan_block (r : ScanRule) (fuel : Nat) (p : Int) (c : Nat) (b : List Int) :
    windowScan r (fuel + 1) p c (List.replicate r.run 0 ++ b) =
      r.block p c ++ windowScan r fuel (r.last p c) (c + 1) b := by
  simp [windowScan, zeroWindow_iff.2 ⟨b, rfl⟩]

/-- Zeros that make no block are passed over. -/
theorem windowScan_short {r : ScanRule} {k : Nat} {b : List Int} (hk : k < r.run) (hb : ∀ v ∈ b.head?, v ≠ 0)
    (fuel : Nat) (p : Int) (c : Nat) :
    windowScan r (fuel + k) p c (List.replicate k 0 ++ b) = List.replicate k 0 ++ windowScan r fuel p c b := by
  induction k with
  | zero => simp
  | succ k ih =>
    have hw := zeroWindow_short hk hb
    rw [List.replicate_succ, List.cons_append] at hw ⊢
    rw [← Nat.add_assoc, windowScan_cons hw, if_pos rfl, ih (Nat.lt_of_succ_lt hk), List.cons_append]

theorem windowScan_nil {r : ScanRule} (hr : 0 < r.run) (fuel : Nat) (p : Int) (c : Nat) :
    windowScan r fuel p c [] = [] := by
  cases fuel with
  | zero => rfl
  | succ fuel => simp [windowScan, zeroWindow, hr.ne']

/-- Looking ahead for a block and holding zeros until it is complete give the same list. -/
theorem windowScan_eq_scanFrom {r : ScanRule} {k fuel : Nat} {a : List Int} (hk : k < r.run) (hf : k + a.length ≤ fuel)
    (p : Int) (c : Nat) : windowScan r fuel p c (List.replicate k 0 ++ a) = scanFrom r p c k a := by
  have hr : 0 < r.run := Nat.zero_lt_of_lt hk
  induction a generalizing k fuel p c with
  | nil =>
    obtain ⟨f, rfl⟩ := Nat.exists_eq_add_of_le' (show k ≤ fuel from hf)
    rw [windowScan_short hk (by simp), windowScan_nil hr, scanFrom, List.append_nil]
  | cons v vs ih =>
    rw [List.length_cons] at hf
    by_cases hv : v = 0
    · have hrun : List.replicate k 0 ++ v :: vs = List.replicate (k + 1) 0 ++ vs := by
        simp [hv, List.replicate_succ']
      by_cases hfull : k + 1 = r.run
      · obtain ⟨f, rfl⟩ := Nat.exists_eq_add_of_le' (show 1 ≤ fuel by omega)
        have hrest := ih (k := 0) (fuel := f) hr (by omega) (r.last p c) (c + 1)
        rw [hrun, hfull, windowScan_block, scanFrom, if_pos hv, if_pos hfull, ← hrest]
        simp
      · rw [hrun, ih (by omega) (by omega), scanFrom, if_pos hv, if_neg hfull]
    · obtain ⟨f, rfl⟩ := Nat.exists_eq_add_of_le' (show k + 1 ≤ fuel by omega)
      have hhead : ∀ u ∈ (v :: vs).head?, u ≠ 0 := by simpa using hv
      have hw : zeroWindow r.run (v :: vs) 0 = false := zeroWindow_short (k := 0) hr hhead
      have hrest := ih (k := 0) (fuel := f) hr (by omega) (r.keep v) (c + 1)
      rw [Nat.add_comm k, ← Nat.add_assoc, windowScan_short hk hhead, windowScan_cons hw, if_neg hv, scanFrom,
        if_neg hv, ← hrest]
      simp

/-! ### B8ZS -/

/-- R131: what the sign of the last pulse is after one more level. -/
theorem lastPulseSign_concat (a : List Int) (v : Int) :
    lastPulseSign (a ++ [v]) = if v = 0 then lastPulseSign a else v.sign := by
  by_cases hv : v = 0 <;> simp [lastPulseSign, hv]

theorem sign_lastPulseSign (a : List Int) : lastPulseSign a ≠ 0 ∧ (lastPulseSign a).sign = lastPulseSign a := by
  unfold lastPulseSign
  split
  · rename_i v hv
    have hne : v ≠ 0 := by simpa using List.find?_some hv
    exact ⟨mt Int.sign_eq_zero_iff_zero.1 hne, Int.sign_sign⟩
  · decide

theorem lastPulseSign_b8zs_block (a : List Int) (c : Nat) :
    lastPulseSign (a ++ b8zsRule.block (lastPulseSign a) c) = lastPulseSign a := by
  obtain ⟨hne, hsign⟩ := sign_lastPulseSign a
  have hlast := lastPulseSign_concat (a ++ [0, 0, 0, lastPulseSign a, -lastPulseSign a, 0, -lastPulseSign a])
    (lastPulseSign a)
  rw [if_neg hne, hsign] at hlast
  simpa [b8zsRule] using hlast

theorem b8zsLoop_eq_windowScan (fuel : Nat) (pre a : List Int) (c : Nat) :
    b8zsLoop fuel (pre ++ a) pre.length = pre ++ windowScan b8zsRule fuel (lastPulseSign pre) c a := by
  induction fuel generalizing pre a c with
  | zero => rfl
  | succ fuel ih =>
    cases a with
    | nil => simp [b8zsLoop, windowScan, zeroWindow, b8zsRule]
    | cons v vs =>
      rw [b8zsLoop, if_pos (by simp), zeroWindow_append]
      cases hw : zeroWindow 8 (v :: vs) 0 with
      | true =>
        obtain ⟨b, hb⟩ : ∃ b, v :: vs = List.replicate b8zsRule.run 0 ++ b := zeroWindow_iff.1 hw
        have hrest := ih (pre ++ b8zsRule.block (lastPulseSign pre) c) b (c + 1)
        rw [lastPulseSign_b8zs_block] at hrest
        rw [hb, windowScan_block]
        simpa [b8zsRule, List.replicate_succ] using hrest
      | false =>
        have hrest := fun c => ih (pre ++ [v]) vs c
        simp only [lastPulseSign_concat] at hrest
        rw [windowScan_cons hw]
        by_cases hv : v = 0
        · simpa [hv] using hrest c
        · simpa [hv, b8zsRule] using hrest (c + 1)

/-- R131, R132: the source's B8ZS holds up to seven zeros from last pulse +1. -/
theorem b8zsRef_eq_scanFrom (a : List Int) (c : Nat) : b8zsRef a = scanFrom b8zsRule 1 c 0 a :=
  (b8zsLoop_eq_windowScan a.length [] a c).trans
    (windowScan_eq_scanFrom (r := b8zsRule) (k := 0) (by decide) (by simp) 1 c)

/-! ### HDB3 -/

theorem hdb3Loop_eq_windowScan (fuel : Nat) (pre a : List Int) (p : Int) (c : Nat) :
    hdb3Loop fuel (pre ++ a) pre.length p c = pre ++ windowScan hdb3Rule fuel p c a := by
  induction fuel generalizing pre a p c with
  | zero => rfl
  | succ fuel ih =>
    cases a with
    | nil => simp [hdb3Loop, windowScan, zeroWindow, hdb3Rule]
    | cons v vs =>
      rw [hdb3Loop, if_pos (by simp), zeroWindow_append]
      cases hw : zeroWindow 4 (v :: vs) 0 with
      | true =>
        obtain ⟨b, hb⟩ : ∃ b, v :: vs = List.replicate hdb3Rule.run 0 ++ b := zeroWindow_iff.1 hw
        have hrest := ih (pre ++ hdb3Rule.block p c) b (hdb3Rule.last p c) (c + 1)
        rw [hb, windowScan_block]
        by_cases hc : c % 2 = 0 <;> simpa [hdb3Rule, hc, List.replicate_succ] using hrest
      | false =>
        have hrest := ih (pre ++ [v]) vs
        rw [windowScan_cons hw]
        by_cases hv : v = 0
        · simpa [hv] using hrest p c
        · simpa [hv, hdb3Rule] using hrest v (c + 1)

/-- R135, R136: the source's HDB3 holds up to three zeros from last pulse +1 and an even count. -/
theorem hdb3Ref_eq_scanFrom (a : List Int) : hdb3Ref a = scanFrom hdb3Rule 1 0 0 a :=
  (hdb3Loop_eq_windowScan a.length [] a 1 0).trans
    (windowScan_eq_scanFrom (r := hdb3Rule) (k := 0) (by decide) (by simp) 1 0)

end Sys2Proof
end

section
/-! SUPPORT. Fed one level at a time and then flushed, the scrambler stage emits the bytes of the scan that holds zeros
as it does, and so the bytes of the source's scan (R130, R132, R136, R139). -/

namespace Sys2Proof.Machine

@[simp] theorem stage_mode (v : Level) (s : State) : (stage v s).mode = s.mode := by
  obtain ⟨_, _, _, _, e, -⟩ := stage_writes v s
  rw [e]

@[simp] theorem toInt_zero : Level.zero.toInt = 0 := rfl

@[simp] theorem toInt_pulse (p : Polarity) : (Level.pulse p).toInt = p.toInt := rfl

@[simp] theorem sign_toInt (p : Polarity) : p.toInt.sign = p.toInt := by cases p <;> rfl

@[simp] theorem code_neg_toInt (p : Polarity) : code (-p.toInt) = p.flip.byte := by
  rw [← toInt_flip, code_toInt]

/-! ### What one level adds to the scan -/

theorem scanFrom_zero_block {r : ScanRule} {k : Nat} (h : k + 1 = r.run) (p : Int) (c : Nat) (vs : List Int) :
    scanFrom r p c k (0 :: vs) = r.block p c ++ scanFrom r (r.last p c) (c + 1) 0 vs := by
  simp [scanFrom, h]

theorem scanFrom_zero_held {r : ScanRule} {k : Nat} (h : k + 1 ≠ r.run) (p : Int) (c : Nat) (vs : List Int) :
    scanFrom r p c k (0 :: vs) = scanFrom r p c (k + 1) vs := by
  simp [scanFrom, h]

theorem scanFrom_pulse (r : ScanRule) (p : Int) (c k : Nat) (q : Polarity) (vs : List Int) :
    scanFrom r p c k (q.toInt :: vs) = List.replicate k 0 ++ q.toInt :: scanFrom r (r.keep q.toInt) (c + 1) 0 vs := by
  simp [scanFrom, toInt_ne_zero]

theorem map_code_b8zs_block (p : Polarity) (c : Nat) : (b8zsRule.block p.toInt c).map code = b8zsBlock p := by
  simp [b8zsRule, b8zsBlock, code_toInt]

theorem map_code_hdb3_block (p : Polarity) (c : Nat) :
    (hdb3Rule.block p.toInt c).map code = hdb3Block (decide (c % 2 = 1)) p := by
  rcases Nat.mod_two_eq_zero_or_one c with hc | hc <;> simp [hdb3Rule, hdb3Block, hc, code_toInt]

theorem hdb3_last_toInt (p : Polarity) (c : Nat) :
    hdb3Rule.last p.toInt c = (hdb3BlockLast (decide (c % 2 = 1)) p).toInt := by
  rcases Nat.mod_two_eq_zero_or_one c with hc | hc <;> simp [hdb3Rule, hdb3BlockLast, hc]

theorem val_add_one_of_ne {k : Fin 8} (h : k ≠ 7) : (k + 1).val = k.val + 1 := by
  exact Fin.val_add_one_of_lt' (by omega)

/-! ### The stage -/

/-- R132: the stage in a B8ZS frame, flushed after the levels `vs`. -/
theorem out_flushZeros_foldl_b8zs (vs : List Level) {s : State} (h : s.mode.scr = .b8zs) (c : Nat) :
    (flushZeros (vs.foldl (fun u v => stage v u) s)).out =
      s.out ++ (scanFrom b8zsRule s.scrPol.toInt c s.scrZc.val (vs.map Level.toInt)).map code := by
  induction vs generalizing s c with
  | nil => simp [scanFrom]
  | cons v vs ih =>
    have hrest := fun c => ih (s := stage v s) (by simpa using h) c
    rw [stage_b8zs h] at hrest
    rw [List.foldl_cons, List.map_cons, stage_b8zs h]
    rcases b8zsStep_cases v s with ⟨rfl, hz, e⟩ | ⟨rfl, hz, e⟩ | ⟨p, rfl, e⟩
    · have hfull : s.scrZc.val + 1 = b8zsRule.run := by rw [hz]; rfl
      rw [hrest (c + 1), toInt_zero, scanFrom_zero_block hfull, e]
      simp [map_code_b8zs_block]
      rfl
    · have hheld : s.scrZc.val + 1 ≠ b8zsRule.run := fun hrun => hz (Fin.ext (Nat.succ.inj hrun))
      rw [hrest c, toInt_zero, scanFrom_zero_held hheld, e, ← val_add_one_of_ne hz]
    · rw [hrest (c + 1), toInt_pulse, scanFrom_pulse, e]
      simp [code_toInt, b8zsRule]

/-- R136: the stage in an HDB3 frame, flushed after the levels `vs`. -/
theorem out_flushZeros_foldl_hdb3 (vs : List Level) {s : State} (h : s.mode.scr = .hdb3) (hz : s.scrZc.val ≤ 3)
    {c : Nat} (hc : s.scrPar = decide (c % 2 = 1)) :
    (flushZeros (vs.foldl (fun u v => stage v u) s)).out =
      s.out ++ (scanFrom hdb3Rule s.scrPol.toInt c s.scrZc.val (vs.map Level.toInt)).map code := by
  induction vs generalizing s c with
  | nil => simp [scanFrom]
  | cons v vs ih =>
    have hnext : (!s.scrPar) = decide ((c + 1) % 2 = 1) := by
      rcases Nat.mod_two_eq_zero_or_one c with h2 | h2 <;> simp [hc, h2, Nat.add_mod]
    have hrest := ih (s := stage v s) (by simpa using h)
    rw [stage_hdb3 h] at hrest
    rw [List.foldl_cons, List.map_cons, stage_hdb3 h]
    rcases hdb3Step_cases v s with ⟨rfl, h3, e⟩ | ⟨rfl, h3, e⟩ | ⟨p, rfl, e⟩
    · have hfull : s.scrZc.val + 1 = hdb3Rule.run := by rw [h3]; rfl
      rw [e] at hrest ⊢
      rw [hrest (Nat.zero_le _) hnext, toInt_zero, scanFrom_zero_block hfull, hdb3_last_toInt, List.map_append,
        map_code_hdb3_block, ← hc]
      simp
    · have hheld : s.scrZc.val + 1 ≠ hdb3Rule.run := fun hrun => h3 (Fin.ext (Nat.succ.inj hrun))
      have hval := val_add_one_of_ne (k := s.scrZc) (by omega)
      rw [e] at hrest ⊢
      rw [hrest (hval.trans_le (by omega)) hc, toInt_zero, scanFrom_zero_held hheld, ← hval]
    · rw [e] at hrest ⊢
      rw [hrest (Nat.zero_le _) hnext, toInt_pulse, scanFrom_pulse]
      simp [code_toInt, hdb3Rule]

/-- R139: the stage from its seeds, flushed after the levels `vs`, has emitted the source's scan of them. -/
theorem out_flushZeros_foldl_stage (vs : List Level) {s : State} (hz : s.scrZc = 0) (hp : s.scrPol = .pos)
    (hc : s.scrPar = false) (hs : s.mode.scr ≠ .off) : (flushZeros (vs.foldl (fun u v => stage v u) s)).out =
      s.out ++ (scrambleRef s.mode.scr (vs.map Level.toInt)).map code := by
  cases h : s.mode.scr with
  | off => exact absurd h hs
  | b8zs =>
    rw [out_flushZeros_foldl_b8zs vs h 0, hz, hp, scrambleRef, b8zsRef_eq_scanFrom _ 0]
    rfl
  | hdb3 =>
    rw [out_flushZeros_foldl_hdb3 vs h (hz ▸ Nat.zero_le _) (c := 0) hc, hz, hp, scrambleRef, hdb3Ref_eq_scanFrom]
    rfl

end Sys2Proof.Machine
end

section
/-! SUPPORT. A frame's bits through the mappers, one after the other and then released at END, emit the bytes of the
source's encode, scrambled by the frame's scan (R102, R113 to R118, R139). -/

namespace Sys2Proof.Machine

/-! ### What a row of bits leaves alone -/

theorem foldl_mapBit_keeps (bs : List Bool) (s : State) :
    (bs.foldl (fun u b => mapBit b u) s).mode = s.mode ∧ (bs.foldl (fun u b => mapBit b u) s).inv = s.inv ∧
      (bs.foldl (fun u b => mapBit b u) s).trunc = s.trunc ∧ (bs.foldl (fun u b => mapBit b u) s).any = s.any := by
  induction bs generalizing s with
  | nil => exact ⟨rfl, rfl, rfl, rfl⟩
  | cons b bs ih =>
    obtain ⟨_, _, _, _, _, _, e, -⟩ := mapBit_writes b s
    have hrest := ih (mapBit b s)
    rw [e] at hrest
    rwa [List.foldl_cons, e]

@[simp] theorem mapBit_mode (b : Bool) (s : State) : (mapBit b s).mode = s.mode := (foldl_mapBit_keeps [b] s).1

/-! ### The mappers without a stage -/

/-- The rest of the source's encode from the encoder's current level (R118). -/
def encodeFrom (k : Scheme) (cur : Int) (bits : List Bool) : List Int :=
  match k with
  | .nrzi => encodeNrziFrom cur bits
  | .dman => encodeDmanFrom cur bits
  | k => encodeRef k bits

theorem encodeFrom_lineSeed (m : Mode) (bits : List Bool) :
    encodeFrom m.scheme (lineSeed m).toInt bits = encodeRef m.scheme bits := by
  cases h : m.scheme <;> simp [encodeFrom, encodeRef, lineSeed, h, Polarity.toInt]

/-- R113 to R116: one bit of a scheme other than AMI. -/
theorem mapBit_encodeFrom {s : State} (h : s.mode.scheme ≠ .ami) (b : Bool) (bs : List Bool) :
    (mapBit b s).out ++ (encodeFrom s.mode.scheme (mapBit b s).encCur.toInt bs).map code =
      s.out ++ (encodeFrom s.mode.scheme s.encCur.toInt (b :: bs)).map code := by
  rcases mapBit_cases b s with ⟨hk, e⟩ | ⟨hk, e⟩ | ⟨hk, e⟩ | ⟨hk, e⟩ | ⟨hk, -⟩
  · cases b <;> simp [e, hk, nrzl, encodeFrom, encodeRef]
  · cases b <;> simp [e, hk, nrzi, encodeFrom, encodeNrziFrom, code_toInt]
  · cases b <;> simp [e, hk, man, encodeFrom, encodeRef]
  · cases b <;> simp [e, hk, dman, encodeFrom, encodeDmanFrom, code_toInt]
  · exact absurd hk h

theorem out_foldl_mapBit (bs : List Bool) {s : State} (h : s.mode.scheme ≠ .ami) :
    (bs.foldl (fun u b => mapBit b u) s).out =
      s.out ++ (encodeFrom s.mode.scheme s.encCur.toInt bs).map code := by
  induction bs generalizing s with
  | nil => cases hk : s.mode.scheme <;> simp_all [encodeFrom, encodeRef, encodeNrziFrom, encodeDmanFrom]
  | cons b bs ih =>
    rw [List.foldl_cons, ih (by simpa using h), mapBit_mode, mapBit_encodeFrom h]

/-! ### AMI and its stage -/

/-- The levels AMI feeds the stage after the pulse `last` (R117). -/
def amiLevels (last : Polarity) : List Bool → List Level
  | [] => []
  | b :: bs => if b then .pulse last.flip :: amiLevels last.flip bs else .zero :: amiLevels last bs

theorem map_toInt_amiLevels (last : Polarity) (bs : List Bool) :
    (amiLevels last bs).map Level.toInt = encodeAmiFrom last.toInt bs := by
  induction bs generalizing last with
  | nil => rfl
  | cons b bs ih => cases b <;> simp [amiLevels, encodeAmiFrom, ih]

/-- R130: the stage and the AMI mapper's last pulse do not meet. -/
theorem stage_setAmiLast (v : Level) (p : Polarity) (s : State) :
    stage v { s with amiLast := p } = { stage v s with amiLast := p } := by
  cases h : s.mode.scr with
  | off => rw [stage_off h, stage_off (s := { s with amiLast := p }) h]; rfl
  | b8zs =>
    rw [stage_b8zs h, stage_b8zs (s := { s with amiLast := p }) h]
    cases v with
    | zero => simp only [b8zsStep]; split <;> rfl
    | pulse q => rfl
  | hdb3 =>
    rw [stage_hdb3 h, stage_hdb3 (s := { s with amiLast := p }) h]
    cases v with
    | zero => simp only [hdb3Step]; split <;> rfl
    | pulse q => rfl

theorem foldl_stage_setAmiLast (vs : List Level) (p : Polarity) (s : State) :
    vs.foldl (fun u v => stage v u) { s with amiLast := p } =
      { vs.foldl (fun u v => stage v u) s with amiLast := p } := by
  induction vs generalizing s with
  | nil => rfl
  | cons v vs ih => rw [List.foldl_cons, stage_setAmiLast, ih, List.foldl_cons]

/-- R117: AMI's bits are its levels to the stage. -/
theorem foldl_mapBit_ami (bs : List Bool) {s : State} (h : s.mode.scheme = .ami) :
    ∃ last, bs.foldl (fun u b => mapBit b u) s =
      { (amiLevels s.amiLast bs).foldl (fun u v => stage v u) s with amiLast := last } := by
  induction bs generalizing s with
  | nil => exact ⟨s.amiLast, rfl⟩
  | cons b bs ih =>
    obtain ⟨last, hrest⟩ := ih (s := mapBit b s) (by simpa using h)
    refine ⟨last, ?_⟩
    rw [List.foldl_cons, hrest]
    have e : mapBit b s = ami b s := by simp [mapBit, h]
    cases b with
    | false => rw [e, ami, if_neg (by simp), amiLast_stage]; rfl
    | true =>
      rw [e, ami, if_pos rfl, amiLast_stage, stage_setAmiLast, foldl_stage_setAmiLast]
      rfl

theorem foldl_stage_mode (vs : List Level) (s : State) : (vs.foldl (fun u v => stage v u) s).mode = s.mode := by
  induction vs generalizing s with
  | nil => rfl
  | cons v vs ih => rw [List.foldl_cons, ih, stage_mode]

theorem out_foldl_stage_off (vs : List Level) {s : State} (h : s.mode.scr = .off) :
    (vs.foldl (fun u v => stage v u) s).out = s.out ++ (vs.map Level.toInt).map code := by
  induction vs generalizing s with
  | nil => simp
  | cons v vs ih =>
    rw [List.foldl_cons, ih (by simpa using h), stage_off h]
    simp

/-! ### An encode frame -/

/-- R96: an encode frame without scrambling holds nothing. -/
theorem releaseHeld_unscrambled {s : State} (hd : s.mode.dir = .enc) (hs : s.mode.scr = .off) : releaseHeld s = s :=
  releaseHeld_nothing hs fun hp => by simp [pairDecoder, hd] at hp

/-- R96, R139: AMI's levels through the stage and released at END. -/
theorem out_releaseHeld_foldl_stage (vs : List Level) {s : State} (hd : s.mode.dir = .enc) (hz : s.scrZc = 0)
    (hp : s.scrPol = .pos) (hc : s.scrPar = false) : (releaseHeld (vs.foldl (fun u v => stage v u) s)).out =
      s.out ++ (scrambleRef s.mode.scr (vs.map Level.toInt)).map code := by
  have hmode := foldl_stage_mode vs s
  by_cases hs : s.mode.scr = .off
  · rw [releaseHeld_unscrambled (by rw [hmode, hd]) (by rw [hmode, hs]), out_foldl_stage_off vs hs, hs]
    rfl
  · rw [releaseHeld_scrambled (by rwa [hmode]), out_flushZeros_foldl_stage vs hz hp hc hs]

theorem out_releaseHeld_setAmiLast (p : Polarity) (s : State) :
    (releaseHeld { s with amiLast := p }).out = (releaseHeld s).out := by
  simp only [releaseHeld, apply_ite State.out]
  rfl

/-- R102: bits pushed from the seeds and then released at END have emitted the source's scrambled encode. -/
theorem out_releaseHeld_foldl_mapBit (bs : List Bool) {s : State} (hd : s.mode.dir = .enc)
    (hseeds : s = loadSeeds s.mode s) : (releaseHeld (bs.foldl (fun u b => mapBit b u) s)).out =
      s.out ++ (scrambleRef s.mode.scr (encodeRef s.mode.scheme bs)).map code := by
  by_cases hk : s.mode.scheme = .ami
  · obtain ⟨last, e⟩ := foldl_mapBit_ami bs hk
    have hscan := out_releaseHeld_foldl_stage (amiLevels s.amiLast bs) hd (congrArg State.scrZc hseeds)
      (congrArg State.scrPol hseeds) (congrArg State.scrPar hseeds)
    rw [e, out_releaseHeld_setAmiLast, hscan, map_toInt_amiLevels, congrArg State.amiLast hseeds, hk]
    rfl
  · have hs : s.mode.scr = .off := by
      by_contra hs
      exact hk (scr_only_with_enc_ami hs).2
    have hmode := (foldl_mapBit_keeps bs s).1
    rw [releaseHeld_unscrambled (by rw [hmode, hd]) (by rw [hmode, hs]), out_foldl_mapBit bs hk,
      congrArg State.encCur hseeds, loadSeeds_encCur, encodeFrom_lineSeed, hs]
    rfl

end Sys2Proof.Machine
end

section
/-! SUPPORT. A frame's levels through the inverse mappers, one after the other, emit the symbols of the source's decode,
and a level is left held exactly where one is unpaired (R102, R150 to R159). -/

namespace Sys2Proof.Machine

/-- What a row of levels leaves alone. -/
theorem foldl_decPush_keeps (d : List Byte) (s : State) :
    (d.foldl (fun u x => decPush x u) s).mode = s.mode ∧ (d.foldl (fun u x => decPush x u) s).inv = s.inv ∧
      (d.foldl (fun u x => decPush x u) s).trunc = s.trunc ∧ (d.foldl (fun u x => decPush x u) s).any = s.any := by
  induction d generalizing s with
  | nil => exact ⟨rfl, rfl, rfl, rfl⟩
  | cons x d ih =>
    obtain ⟨_, _, _, _, e, -⟩ := decPush_writes x s
    have hrest := ih (decPush x s)
    rw [e] at hrest
    rwa [List.foldl_cons, e]

@[simp] theorem decPush_mode (x : Byte) (s : State) : (decPush x s).mode = s.mode := (foldl_decPush_keeps [x] s).1

/-- The level a pair decoder holds, if it holds one (R38). -/
def heldLevels (s : State) : List Int := if s.decHv then [lv s.decHd] else []

theorem lv_byte (p : Polarity) : lv p.byte = p.toInt := by cases p <;> decide

/-- The rest of the source's decode from the decoder's previous level and the levels it holds (R159). -/
def decodeFrom (k : Scheme) (prev : Int) (held levels : List Int) : List Bool :=
  match k with
  | .nrzi => decodeNrziFrom prev levels
  | .man => decodeManPairs (held ++ levels)
  | .dman => decodeDmanPairs prev (held ++ levels)
  | k => decodeRef k levels

theorem decodeFrom_lineSeed (m : Mode) (levels : List Int) :
    decodeFrom m.scheme (lineSeed m).toInt [] levels = decodeRef m.scheme levels := by
  cases h : m.scheme <;> simp [decodeFrom, decodeRef, lineSeed, h, Polarity.toInt]

theorem decodeFrom_heldLevels_nil (s : State) : decodeFrom s.mode.scheme (lv s.decPrev) (heldLevels s) [] = [] := by
  cases h : s.mode.scheme <;> cases hv : s.decHv <;>
    simp [decodeFrom, decodeRef, decodeNrziFrom, decodeManPairs, decodeDmanPairs, heldLevels, hv]

/-- R152 to R157: one level. -/
theorem decPush_decodeFrom (x : Byte) (s : State) (vs : List Int) :
    (decPush x s).out ++
        (decodeFrom s.mode.scheme (lv (decPush x s).decPrev) (heldLevels (decPush x s)) vs).map sym =
      s.out ++ (decodeFrom s.mode.scheme (lv s.decPrev) (heldLevels s) (lv x :: vs)).map sym := by
  cases h : s.mode.scheme with
  | nrzl => simp [decPush, h, decodeFrom, decodeRef, dnrzl]
  | nrzi => simp [decPush, h, decodeFrom, decodeNrziFrom, dnrzi]
  | man => cases hv : s.decHv <;> simp [decPush, h, hv, decodeFrom, decodeManPairs, dmanPair, heldLevels, manPairBit]
  | dman =>
    cases hv : s.decHv <;> simp [decPush, h, hv, decodeFrom, decodeDmanPairs, ddmanPair, heldLevels, dmanGroupBit]
  | ami => simp [decPush, h, decodeFrom, decodeRef, dami]

theorem out_foldl_decPush (d : List Byte) (s : State) : (d.foldl (fun u x => decPush x u) s).out =
    s.out ++ (decodeFrom s.mode.scheme (lv s.decPrev) (heldLevels s) (d.map lv)).map sym := by
  induction d generalizing s with
  | nil => simp [decodeFrom_heldLevels_nil]
  | cons x d ih => rw [List.foldl_cons, ih, decPush_mode, decPush_decodeFrom, List.map_cons]

/-- R155, R156: a pair decoder holds a level after every other one. -/
theorem decHv_decPush {s : State} (h : samplesPerBit s.mode.scheme = 2) (x : Byte) :
    (decPush x s).decHv = !s.decHv := by
  cases hk : s.mode.scheme with
  | man => cases hv : s.decHv <;> simp [decPush, hk, dmanPair, hv]
  | dman => cases hv : s.decHv <;> simp [decPush, hk, ddmanPair, hv]
  | _ => simp [hk, samplesPerBit] at h

theorem decHv_foldl_decPush (d : List Byte) {s : State} (h : samplesPerBit s.mode.scheme = 2) :
    (d.foldl (fun u x => decPush x u) s).decHv = (s.decHv ^^ decide (d.length % 2 = 1)) := by
  induction d generalizing s with
  | nil => simp
  | cons x d ih =>
    rw [List.foldl_cons, ih (by simpa using h), decHv_decPush h, List.length_cons]
    rcases Nat.mod_two_eq_zero_or_one d.length with h2 | h2 <;> simp [h2, Nat.add_mod]

theorem samplesPerBit_cases (k : Scheme) : samplesPerBit k = 1 ∨ samplesPerBit k = 2 := by
  cases k <;> decide

/-- R158: what a decode frame that began with nothing held leaves held is an unpaired level. -/
theorem held_iff_unpaired (d : List Byte) {s : State} (hd : s.mode.dir = .dec) (hv : s.decHv = false) :
    (pairDecoder s.mode && (d.foldl (fun u x => decPush x u) s).decHv) =
      decide (d.length % samplesPerBit s.mode.scheme ≠ 0) := by
  rcases samplesPerBit_cases s.mode.scheme with h | h
  · simp [pairDecoder, h, Nat.mod_one]
  · rw [decHv_foldl_decPush d h]
    simp [pairDecoder, hd, h, hv]

end Sys2Proof.Machine
end

section
/-! SUPPORT. The result of a frame that consumes its items from its seeds on and then ends is the source's function of
its mode and items (R102 to R104). -/

namespace Sys2Proof.Machine

/-! ### The items of a frame -/

/-- A frame opened right after reset that will consume an item, or none (R29, R92). -/
def opened (m : Mode) (noItem : Bool) : State := { start m State.reset with any := !noItem }

theorem opened_seeds (m : Mode) (noItem : Bool) : opened m noItem = loadSeeds m (opened m noItem) := rfl

/-- R110: symbols pushed in an encode frame that has consumed an item are bits to the mapper. -/
theorem foldl_push_symbols (bs : List Bool) {s : State} (hi : s.inv = false) (hd : s.mode.dir = .enc)
    (hn : s.any = true) : (bs.map sym).foldl (fun u x => push x u) s = bs.foldl (fun u b => mapBit b u) s := by
  induction bs generalizing s with
  | nil => rfl
  | cons b bs ih =>
    obtain ⟨-, hinv, -, hany⟩ := foldl_mapBit_keeps [b] s
    have hpush : push (sym b) s = mapBit b s := by
      rw [push_encode hi hd, encPush, bit_sym, show { s with any := true } = s by rw [← hn]]
    rw [List.map_cons, List.foldl_cons, List.foldl_cons, hpush]
    exact ih (hinv.trans hi) (by rw [mapBit_mode, hd]) (hany.trans hn)

theorem replay_symbols {m : Mode} (hd : m.dir = .enc) (bs : List Bool) :
    replay m (bs.map sym) = bs.foldl (fun u b => mapBit b u) (opened m bs.isEmpty) := by
  cases bs with
  | nil => rfl
  | cons b bs => exact foldl_push_symbols (b :: bs) (s := opened m false) rfl hd rfl

/-- R150: bytes pushed in a decode frame that has consumed an item are levels to the inverse mapper. -/
theorem foldl_push_levels (d : List Byte) {s : State} (hi : s.inv = false) (hd : s.mode.dir = .dec)
    (hn : s.any = true) : d.foldl (fun u x => push x u) s = d.foldl (fun u x => decPush x u) s := by
  induction d generalizing s with
  | nil => rfl
  | cons x d ih =>
    obtain ⟨-, hinv, -, hany⟩ := foldl_decPush_keeps [x] s
    have hpush : push x s = decPush x s := by
      rw [push_decode hi hd, show { s with any := true } = s by rw [← hn]]
    rw [List.foldl_cons, List.foldl_cons, hpush]
    exact ih (hinv.trans hi) (by rw [decPush_mode, hd]) (hany.trans hn)

theorem replay_levels {m : Mode} (hd : m.dir = .dec) (d : List Byte) :
    replay m d = d.foldl (fun u x => decPush x u) (opened m d.isEmpty) := by
  cases d with
  | nil => rfl
  | cons x d => exact foldl_push_levels (x :: d) (s := opened m false) rfl hd rfl

/-- R112: an encode frame is aborted by the first byte that is no symbol, and stays so. -/
theorem push_inv_of_enc {s : State} (hd : s.mode.dir = .enc) (x : Byte) :
    (push x s).inv = (s.inv || !(bit x).isSome) := by
  cases hi : s.inv with
  | true => simp [push_aborted hi, hi]
  | false =>
    rw [push_encode hi hd, Bool.false_or]
    rcases encPush_cases x { s with any := true } with ⟨hb, e⟩ | ⟨b, hb, e⟩
    · rw [e, hb]
      rfl
    · obtain ⟨-, hinv, -⟩ := foldl_mapBit_keeps [b] { s with any := true }
      rw [e, hb]
      exact hinv.trans hi

theorem inv_foldl_push (d : List Byte) {s : State} (hd : s.mode.dir = .enc) :
    (d.foldl (fun u x => push x u) s).inv = (s.inv || !d.all (fun x => (bit x).isSome)) := by
  induction d generalizing s with
  | nil => simp
  | cons x d ih =>
    rw [List.foldl_cons, ih (by simpa using hd), push_inv_of_enc hd, List.all_cons, Bool.not_and, Bool.or_assoc]

/-- R11: bytes that all have bits are the symbols of those. -/
theorem exists_bits {d : List Byte} (h : d.all (fun x => (bit x).isSome) = true) :
    ∃ bs : List Bool, d = bs.map sym := by
  induction d with
  | nil => exact ⟨[], rfl⟩
  | cons x d ih =>
    rw [List.all_cons, Bool.and_eq_true] at h
    obtain ⟨b, hb⟩ := Option.isSome_iff_exists.1 h.1
    obtain ⟨bs, rfl⟩ := ih h.2
    exact ⟨b :: bs, by rw [List.map_cons, sym_of_bit hb]⟩

/-! ### Its end -/

/-- R103: the result of a frame that is not aborted, from what END releases. -/
theorem frameResult_closeFrame {s : State} (hi : s.inv = false) : frameResult (closeFrame s).out (closeFrame s) =
    .ok (releaseHeld s).out (releaseHeld s).trunc (!s.any) := by
  simp [closeFrame_unaborted hi, frameResult, hi]

theorem frameResult_aborted {s : State} (hi : s.inv = true) (bytes : List Byte) :
    frameResult bytes (closeFrame s) = .errInvalidSymbol := by
  simp [closeFrame_aborted hi, frameResult, hi]

theorem releaseHeld_trunc (s : State) : (releaseHeld s).trunc = (s.trunc || (pairDecoder s.mode && s.decHv)) := by
  rcases releaseHeld_cases s with ⟨hd, -, e⟩ | ⟨hp, hv, e⟩ | ⟨e, -, hno⟩
  · simp [e, pairDecoder, hd]
  · simp [e, hp, hv]
  · rw [← Bool.and_eq_true] at hno
    rw [e, Bool.eq_false_iff.2 hno, Bool.or_false]

theorem releaseHeld_decoder_out {s : State} (hd : s.mode.dir = .dec) : (releaseHeld s).out = s.out := by
  rcases releaseHeld_cases s with ⟨henc, -, -⟩ | ⟨-, -, e⟩ | ⟨e, -⟩
  · exact absurd (hd.symm.trans henc) (by decide)
  · rw [e, dropUnpaired_out]
  · rw [e]

/-- R102: an encode frame of symbols. -/
theorem frameResult_replay_symbols {m : Mode} (hd : m.dir = .enc) (bs : List Bool) :
    frameResult (closeFrame (replay m (bs.map sym))).out (closeFrame (replay m (bs.map sym))) =
      .ok ((scrambleRef m.scr (encodeRef m.scheme bs)).map code) false bs.isEmpty := by
  obtain ⟨hmode, hinv, htrunc, hany⟩ := foldl_mapBit_keeps bs (opened m bs.isEmpty)
  rw [replay_symbols hd, frameResult_closeFrame hinv, out_releaseHeld_foldl_mapBit bs hd (opened_seeds m bs.isEmpty),
    releaseHeld_trunc, htrunc, hany, hmode]
  simp [opened, pairDecoder, hd, State.reset]

/-- R102, R158: a decode frame. -/
theorem frameResult_replay_levels {m : Mode} (hd : m.dir = .dec) (d : List Byte) :
    frameResult (closeFrame (replay m d)).out (closeFrame (replay m d)) =
      .ok ((decodeRef m.scheme (d.map lv)).map sym) (decide (d.length % samplesPerBit m.scheme ≠ 0)) d.isEmpty := by
  obtain ⟨hmode, hinv, htrunc, hany⟩ := foldl_decPush_keeps d (opened m d.isEmpty)
  rw [replay_levels hd, frameResult_closeFrame hinv, releaseHeld_decoder_out (by rw [hmode]; exact hd),
    out_foldl_decPush, releaseHeld_trunc, htrunc, hany, hmode,
    held_iff_unpaired d (s := opened m d.isEmpty) hd rfl]
  show FrameResult.ok ([] ++ (decodeFrom m.scheme (lv (lineSeed m).byte) [] (d.map lv)).map sym) (false || _) (!!_) = _
  rw [lv_byte, decodeFrom_lineSeed, List.nil_append, Bool.false_or, Bool.not_not]
  rfl

/-- R104, for a frame that consumes its items and nothing else. -/
theorem frameResult_replay (m : Mode) (d : List Byte) :
    frameResult (closeFrame (replay m d)).out (closeFrame (replay m d)) = sourceResult m d := by
  cases hd : m.dir with
  | enc =>
    cases hall : d.all (fun x => (bit x).isSome) with
    | true =>
      obtain ⟨bs, rfl⟩ := exists_bits hall
      rw [frameResult_replay_symbols hd]
      simp [sourceResult, hd, Function.comp_def]
    | false =>
      have hinv : (replay m d).inv = true := by
        simp [replay, inv_foldl_push d (s := start m State.reset) hd, hall]
      simp [frameResult_aborted hinv, sourceResult, hd, hall]
  | dec => simp [frameResult_replay_levels hd, sourceResult, hd]

end Sys2Proof.Machine
end

section
/-! SUPPORT. What a PUSH and an END do in a frame depends neither on `ACT`, `ILL`, `PROTO` and the host's side, nor on
what is queued, to which they append the same bytes (R90, R99 to R101). -/

namespace Sys2Proof.Machine

/-- `s` with `ACT`, `ILL`, `PROTO`, the queue and the host's side of `u`: `sameFrame s t` says that `t` is
`withInterface t s`. -/
def withInterface (u s : State) : State :=
  { s with act := u.act, ill := u.ill, proto := u.proto, out := u.out, host := u.host, replies := u.replies }

@[simp] theorem withInterface_mode (u s : State) : (withInterface u s).mode = s.mode := rfl

/-- The operation appends the same bytes to the queue, and otherwise does the same, whatever the interface's fields. -/
def EmitsAlike (f : State → State) (s : State) : Prop :=
  ∃ ys, ∀ u, f (withInterface u s) = withInterface (emitAll ys u) (f s)

theorem emitAll_nil (s : State) : emitAll [] s = s := by
  simp [emitAll]

/-- An operation that emits nothing and neither reads nor writes the interface's fields. -/
theorem EmitsAlike.of_silent {f : State → State} {s : State}
    (h : ∀ u, f (withInterface u s) = withInterface u (f s)) : EmitsAlike f s :=
  ⟨[], fun u => by rw [h, emitAll_nil]⟩

/-! ### The operations of the commands -/

theorem emitsAlike_b8zsStep (v : Level) (s : State) : EmitsAlike (b8zsStep v) s := by
  cases v with
  | zero =>
    by_cases h : s.scrZc.val + 1 = Config.b8zsRun
    · exact ⟨b8zsBlock s.scrPol, fun u => by simp [b8zsStep, withInterface, h, emitAll]⟩
    · exact .of_silent fun u => by simp [b8zsStep, withInterface, h]
  | pulse p =>
    exact ⟨List.replicate s.scrZc.val 0x00 ++ [p.byte],
      fun u => by simp [b8zsStep, withInterface, emit, emitAll, emitZeros]⟩

theorem emitsAlike_hdb3Step (v : Level) (s : State) : EmitsAlike (hdb3Step v) s := by
  cases v with
  | zero =>
    by_cases h : s.scrZc.val + 1 = Config.hdb3Run
    · exact ⟨hdb3Block s.scrPar s.scrPol, fun u => by simp [hdb3Step, withInterface, h, emitAll]⟩
    · exact .of_silent fun u => by simp [hdb3Step, withInterface, h]
  | pulse p =>
    exact ⟨List.replicate s.scrZc.val 0x00 ++ [p.byte],
      fun u => by simp [hdb3Step, withInterface, emit, emitAll, emitZeros]⟩

theorem emitsAlike_stage (v : Level) (s : State) : EmitsAlike (stage v) s := by
  unfold EmitsAlike
  simp only [stage, withInterface_mode]
  split
  · exact ⟨[code v.toInt], fun _ => rfl⟩
  · exact emitsAlike_b8zsStep v s
  · exact emitsAlike_hdb3Step v s

theorem emitsAlike_mapBit (b : Bool) (s : State) : EmitsAlike (mapBit b) s := by
  unfold EmitsAlike
  simp only [mapBit, withInterface_mode]
  split
  · exact ⟨[if b then 0x01 else 0xFF], fun _ => rfl⟩
  · exact ⟨[(if b then s.encCur.flip else s.encCur).byte], fun _ => rfl⟩
  · exact ⟨if b then [0xFF, 0x01] else [0x01, 0xFF], fun _ => rfl⟩
  · exact ⟨[(if b then s.encCur else s.encCur.flip).byte, (if b then s.encCur else s.encCur.flip).flip.byte],
      fun _ => rfl⟩
  · cases b with
    | false => exact emitsAlike_stage .zero s
    | true => exact emitsAlike_stage (.pulse s.amiLast.flip) { s with amiLast := s.amiLast.flip }

theorem emitsAlike_encPush (x : Byte) (s : State) : EmitsAlike (encPush x) s := by
  unfold encPush
  cases bit x with
  | none => exact .of_silent fun _ => rfl
  | some b => exact emitsAlike_mapBit b s

theorem emitsAlike_decPush (x : Byte) (s : State) : EmitsAlike (decPush x) s := by
  cases hk : s.mode.scheme with
  | nrzl => exact ⟨[sym (dnrzl (lv x))], fun u => by simp [decPush, hk, withInterface, emit, emitAll]⟩
  | nrzi =>
    exact ⟨[sym (decide (lv x ≠ lv s.decPrev))], fun u => by simp only [decPush, withInterface_mode, hk]; rfl⟩
  | man =>
    cases hv : s.decHv with
    | false => exact .of_silent fun u => by simp [decPush, hk, dmanPair, hv, withInterface]
    | true =>
      exact ⟨[sym (manPairBit (lv s.decHd) (lv x))],
        fun u => by simp [decPush, hk, dmanPair, hv, withInterface, emit, emitAll]⟩
  | dman =>
    cases hv : s.decHv with
    | false => exact .of_silent fun u => by simp [decPush, hk, ddmanPair, hv, withInterface]
    | true =>
      exact ⟨[sym (dmanGroupBit (lv s.decPrev) (lv s.decHd))],
        fun u => by simp [decPush, hk, ddmanPair, hv, withInterface, emit, emitAll]⟩
  | ami => exact ⟨[sym (dami (lv x))], fun u => by simp [decPush, hk, withInterface, emit, emitAll]⟩

theorem emitsAlike_push (x : Byte) (s : State) : EmitsAlike (push x) s := by
  cases hi : s.inv with
  | true =>
    refine .of_silent fun u => ?_
    rw [push_aborted hi, push_aborted (s := withInterface u s) hi]
    rfl
  | false =>
    cases hd : s.mode.dir with
    | enc =>
      obtain ⟨ys, hys⟩ := emitsAlike_encPush x { s with any := true }
      refine ⟨ys, fun u => ?_⟩
      rw [push_encode hi hd, push_encode (s := withInterface u s) hi hd]
      exact hys u
    | dec =>
      obtain ⟨ys, hys⟩ := emitsAlike_decPush x { s with any := true }
      refine ⟨ys, fun u => ?_⟩
      rw [push_decode hi hd, push_decode (s := withInterface u s) hi hd]
      exact hys u

theorem emitsAlike_releaseHeld (s : State) : EmitsAlike releaseHeld s := by
  rcases releaseHeld_cases s with ⟨-, hs, e⟩ | ⟨hp, hv, e⟩ | ⟨e, hs, hv⟩
  · exact ⟨List.replicate s.scrZc.val 0x00, fun u => by rw [e, releaseHeld_scrambled (s := withInterface u s) hs]; rfl⟩
  · exact .of_silent fun u => by rw [e, releaseHeld_unpaired (s := withInterface u s) hp hv]; rfl
  · have hoff : s.mode.scr = .off := by
      by_contra hne
      exact hs ⟨(scr_only_with_enc_ami hne).1, hne⟩
    have hnone : pairDecoder s.mode = true → s.decHv = false :=
      fun hp => Bool.eq_false_iff.2 fun hheld => hv ⟨hp, hheld⟩
    exact .of_silent fun u => by rw [e, releaseHeld_nothing (s := withInterface u s) hoff hnone]

/-! ### Two states in the same place of a frame -/

theorem exists_withInterface {r s : State} (h : sameFrame r s) : ∃ u, s = withInterface u r := ⟨s, h⟩

theorem sameFrame_withInterface (u r : State) : sameFrame r (withInterface u r) := rfl

/-- An operation that emits alike takes two states in the same place of a frame to one place, and appends the same
bytes. -/
theorem EmitsAlike.sameFrame {f : State → State} {r s : State} (h : EmitsAlike f r) (hr : sameFrame r s) :
    ∃ ys, (f s).out = s.out ++ ys ∧ (f r).out = r.out ++ ys ∧ sameFrame (f r) (f s) := by
  obtain ⟨ys, hys⟩ := h
  obtain ⟨u, rfl⟩ := exists_withInterface hr
  have hself : f r = withInterface (emitAll ys r) (f r) := hys r
  rw [hys u]
  exact ⟨ys, rfl, congrArg State.out hself, sameFrame_withInterface _ _⟩

theorem sameFrame_protocolError {r s : State} (hr : sameFrame r s) : sameFrame r (protocolError s) :=
  congrArg protocolError hr

theorem sameFrame_illegal {r s : State} (hr : sameFrame r s) : sameFrame r (illegal s) :=
  congrArg illegal hr

theorem sameFrame_io {r s : State} (hr : sameFrame r s) (out : List Byte) (host : List HostAccess)
    (replies : List Reply) : sameFrame r { s with out := out, host := host, replies := replies } := by
  obtain ⟨u, rfl⟩ := exists_withInterface hr
  rfl

/-- R26, R96: what an END reports and closes. -/
theorem sameFrame_report {r s : State} (hr : sameFrame r s) :
    sameFrame { r with empty := !r.any, act := false } { s with empty := !s.any, act := false } := by
  obtain ⟨u, rfl⟩ := exists_withInterface hr
  rfl

/-- R96: END takes two states in the same place of a frame to one place, and appends the same bytes. -/
theorem closeFrame_sameFrame {r s : State} (hr : sameFrame r s) : ∃ ys, (closeFrame s).out = s.out ++ ys ∧
    (closeFrame r).out = r.out ++ ys ∧ sameFrame (closeFrame r) (closeFrame s) := by
  have hinv : s.inv = r.inv := by
    obtain ⟨u, rfl⟩ := exists_withInterface hr
    rfl
  rcases closeFrame_eq r with ⟨hi, e⟩ | ⟨hi, e⟩
  · rw [e, closeFrame_aborted (hinv.trans hi)]
    exact ⟨[], by simp, by simp, sameFrame_report hr⟩
  · obtain ⟨ys, hs, hr', hsame⟩ := (emitsAlike_releaseHeld r).sameFrame hr
    rw [e, closeFrame_unaborted (hinv.trans hi), ← releaseHeld_any s]
    exact ⟨ys, hs, hr', sameFrame_report hsame⟩

theorem frameResult_sameFrame {r s : State} (hr : sameFrame r s) (bytes : List Byte) :
    frameResult bytes s = frameResult bytes r := by
  obtain ⟨u, rfl⟩ := exists_withInterface hr
  rfl

end Sys2Proof.Machine
end

section
/-! SUPPORT. Frames followed word by word, and the trace a reader keeps of them (R99 to R104): the obligations O50, O51
and O52. -/

namespace Sys2Proof.Machine

/-! ### One word in an open frame -/

theorem pushedByte_push {w : Word} {x : Byte} (h : decode w = .ok (.push x)) : pushedByte w = some x := by
  simp [pushedByte, h]

theorem pushedByte_of_not_push {w : Word} (h : ∀ x, decode w ≠ .ok (.push x)) : pushedByte w = none := by
  unfold pushedByte
  split
  · exact absurd (by assumption) (h _)
  · rfl

theorem itemsOf_cons (w : Word) (ws : List Word) : itemsOf (w :: ws) = (pushedByte w).toList ++ itemsOf ws := by
  cases h : pushedByte w <;> simp [itemsOf, h]

theorem replay_concat (m : Mode) (d : List Byte) (x : Byte) : replay m (d ++ [x]) = push x (replay m d) := by
  simp [replay]

/-- LCC stands in an open frame of mode `m` where the items `d` alone take a fresh one (R99, R100). -/
structure InFrame (m : Mode) (d : List Byte) (s : State) : Prop where
  act : s.act = true
  mode : s.mode = m
  place : sameFrame (replay m d) s

/-- R92, R99: a START opens a frame at its seeds, whatever came before. -/
theorem inFrame_start (m : Mode) (s : State) : InFrame m [] (start m s) := ⟨rfl, rfl, rfl⟩

/-- R94, R98, R100: in an open frame a word but END appends what its item, if it is one, appends to a fresh frame. -/
theorem InFrame.word {m : Mode} {d : List Byte} {s t : State} {w : Word} (h : InFrame m d s)
    (he : WordEffect w s t) (hend : decode w ≠ .ok .endFrame) : InFrame m (d ++ (pushedByte w).toList) t ∧
      ∃ ys, t.out = s.out ++ ys ∧ (replay m (d ++ (pushedByte w).toList)).out = (replay m d).out ++ ys := by
  obtain ⟨hact, hmode, hplace⟩ := h
  have hno : (∀ x, decode w ≠ .ok (.push x)) → d ++ (pushedByte w).toList = d := fun h => by
    simp [pushedByte_of_not_push h]
  cases he with
  | nop hd =>
    rw [hno (by simp [hd])]
    exact ⟨⟨hact, hmode, hplace⟩, [], by simp⟩
  | start m' _ ha => exact absurd (hact.symm.trans ha) (by decide)
  | push x hd =>
    obtain ⟨ys, hs, hr, hsame⟩ := (emitsAlike_push x (replay m d)).sameFrame hplace
    rw [pushedByte_push hd, Option.toList_some, replay_concat]
    exact ⟨⟨by simpa using hact, by simpa using hmode, by rwa [replay_concat]⟩, ys, hs, hr⟩
  | close hd => exact absurd hd hend
  | outOfPhase i hd hp =>
    rw [hno fun x hx => by simp [Except.ok.inj (hd.symm.trans hx), allowedInPhase, hact] at hp]
    exact ⟨⟨hact, hmode, sameFrame_protocolError hplace⟩, [], by simp⟩
  | illegal e hd =>
    rw [hno (by simp [hd])]
    exact ⟨⟨hact, hmode, sameFrame_illegal hplace⟩, [], by simp⟩

/-- R104: the END of a frame gives the source's result on its items. -/
theorem InFrame.close {m : Mode} {d : List Byte} {s : State} (h : InFrame m d s) :
    ∃ ys, (closeFrame s).out = s.out ++ ys ∧
      frameResult ((replay m d).out ++ ys) (closeFrame s) = sourceResult m d := by
  obtain ⟨ys, hs, hr, hsame⟩ := closeFrame_sameFrame h.place
  exact ⟨ys, hs, by rw [frameResult_sameFrame hsame, ← hr, frameResult_replay]⟩

/-! ### A whole frame -/

theorem closeFrame_act (s : State) : (closeFrame s).act = false := rfl

/-- R104, from any place of a frame on. -/
theorem InFrame.run {m : Mode} {d : List Byte} {s : State} {body : List Word} (h : InFrame m d s)
    (hbody : ∀ w ∈ body, decode w ≠ .ok .endFrame) :
    ∃ t bytes, runWords (body ++ [encode .endFrame]) s = .next t ∧ t.act = false ∧ t.mode = m ∧
      t.out = s.out ++ bytes ∧ frameResult ((replay m d).out ++ bytes) t = sourceResult m (d ++ itemsOf body) := by
  induction body generalizing d s with
  | nil =>
    obtain ⟨ys, hout, hres⟩ := h.close
    have hrun : executeWord (encode .endFrame) s = .next (closeFrame s) :=
      (executeWord_ok (decode_encode .endFrame) s).trans (exec_end_open h.act)
    refine ⟨closeFrame s, ys, (runWords_cons hrun []).trans rfl, rfl, by rw [closeFrame_mode, h.mode], hout, ?_⟩
    simpa [itemsOf] using hres
  | cons w ws ih =>
    rw [List.forall_mem_cons] at hbody
    obtain ⟨u, hu⟩ := executeWord_completes w s
    obtain ⟨hnext, ys, hs, hr⟩ := h.word (wordEffect_of_executeWord hu) hbody.1
    obtain ⟨t, bytes, hrun, hact, hmode, hout, hres⟩ := ih hnext hbody.2
    refine ⟨t, ys ++ bytes, (runWords_cons hu _).trans hrun, hact, hmode, ?_, ?_⟩
    · rw [hout, hs, List.append_assoc]
    · rwa [itemsOf_cons, ← List.append_assoc, ← List.append_assoc, ← hr]

/-- Settles O50: the frame's START puts LCC at the seeds, and each word of its body and its END then do what they do in
a fresh frame of the same items, whose result is the source's. -/
theorem frameResultIsTheSourceFunction : Obligations.FrameResultIsTheSourceFunction := by
  intro m body s ha hbody
  have hstart : executeWord (encode m.start) s = .next (start m s) :=
    (executeWord_ok (decode_encode m.start) s).trans (exec_start_idle m ha)
  obtain ⟨t, bytes, hrun, hact, hmode, hout, hres⟩ := (inFrame_start m s).run hbody
  exact ⟨t, bytes, (runWords_cons hstart _).trans hrun, hact, hmode, hout, hres⟩

/-! ### The trace -/

theorem TraceInv.inFrame {s : State} {tr : FrameTrace} (h : TraceInv s tr) (ha : s.act = true) :
    InFrame s.mode tr.items s ∧ tr.bytes = (replay s.mode tr.items).out :=
  ⟨⟨ha, rfl, (h.openFrame ha).1⟩, (h.openFrame ha).2⟩

/-- A trace is sound in an open frame if it has the frame's items and bytes. -/
theorem traceInv_of_inFrame {m : Mode} {s : State} {tr : FrameTrace} (h : InFrame m tr.items s)
    (hbytes : tr.bytes = (replay m tr.items).out)
    (hended : ∀ r ∈ tr.ended, r.result = sourceResult r.mode r.items) : TraceInv s tr := by
  obtain ⟨-, rfl, hplace⟩ := h
  exact ⟨fun _ => ⟨hplace, hbytes⟩, hended⟩

/-- While idle only the ended frames count. -/
theorem traceInv_of_idle {s : State} {tr : FrameTrace} (ha : s.act = false)
    (hended : ∀ r ∈ tr.ended, r.result = sourceResult r.mode r.items) : TraceInv s tr :=
  ⟨fun hopen => absurd (ha.symm.trans hopen) (by decide), hended⟩

/-- Settles O52: no frame is open and none has ended. -/
theorem frameTraceSoundAtBeginning : Obligations.FrameTraceSoundAtBeginning := fun _ ha =>
  traceInv_of_idle ha (by simp [FrameTrace.begin])

/-- R100, R101: a word but END in an open frame adds its item and the bytes emitted. -/
theorem command_open {tr : FrameTrace} {w : Word} {s : State} (t : State) (ha : s.act = true)
    (hend : decode w ≠ .ok .endFrame) : tr.command w s t =
      { tr with items := tr.items ++ (pushedByte w).toList, bytes := tr.bytes ++ t.out.drop s.out.length } := by
  simp only [FrameTrace.command, ha, if_true]
  split
  next x hd => rw [pushedByte_push hd, Option.toList_some]
  next hd => exact absurd hd hend
  next hno _ => rw [pushedByte_of_not_push hno, Option.toList_none, List.append_nil]

/-- R103: END records the frame's result. -/
theorem command_end {tr : FrameTrace} {w : Word} {s : State} (t : State) (ha : s.act = true)
    (hend : decode w = .ok .endFrame) : tr.command w s t =
      { tr with
        bytes := tr.bytes ++ t.out.drop s.out.length
        ended := tr.ended ++ [⟨s.mode, tr.items, frameResult (tr.bytes ++ t.out.drop s.out.length) t⟩] } := by
  simp [FrameTrace.command, ha, hend]

/-- R100, R101: while idle a word that opens a frame begins with no item and no byte. -/
theorem command_idle {tr : FrameTrace} {w : Word} {s : State} (t : State) (ha : s.act = false) : tr.command w s t =
    if t.act then { tr with items := [], bytes := t.out.drop s.out.length } else tr := by
  simp [FrameTrace.command, ha]

/-- R93, R95, R97: while idle a word opens a frame by an accepted START or not at all. -/
theorem WordEffect.of_idle {w : Word} {s t : State} (he : WordEffect w s t) (ha : s.act = false) :
    t.act = false ∨ ∃ m, t = Machine.start m s := by
  cases he with
  | start m => exact .inr ⟨m, rfl⟩
  | push _ _ hopen => exact absurd (ha.symm.trans hopen) (by decide)
  | close _ hopen => exact absurd (ha.symm.trans hopen) (by decide)
  | nop => exact .inl ha
  | outOfPhase => exact .inl ha
  | illegal => exact .inl ha

/-- Every word keeps the trace sound. -/
theorem traceInv_command {tr : FrameTrace} {w : Word} {s t : State} (h : TraceInv s tr)
    (hx : executeWord w s = .next t) : TraceInv t (tr.command w s t) := by
  have he := wordEffect_of_executeWord hx
  rcases Bool.eq_false_or_eq_true s.act with ha | ha
  · obtain ⟨hin, hbytes⟩ := h.inFrame ha
    by_cases hend : decode w = .ok .endFrame
    · obtain rfl := Host.Outcome.next.inj ((exec_end_open ha).symm.trans ((executeWord_ok hend s).symm.trans hx))
      obtain ⟨ys, hout, hres⟩ := hin.close
      rw [command_end _ ha hend, hout, List.drop_left, hbytes, hres]
      refine traceInv_of_idle (closeFrame_act s) fun r hr => ?_
      rcases List.mem_append.1 hr with hr | hr
      · exact h.endedFrames r hr
      · rw [List.mem_singleton.1 hr]
    · obtain ⟨hnext, ys, hs, hr⟩ := hin.word he hend
      rw [command_open t ha hend, hs, List.drop_left, hbytes, ← hr]
      exact traceInv_of_inFrame hnext rfl h.endedFrames
  · rw [command_idle t ha]
    rcases he.of_idle ha with hidle | ⟨m, rfl⟩
    · rw [hidle, if_neg Bool.false_ne_true]
      exact traceInv_of_idle hidle h.endedFrames
    · rw [start_act, if_pos rfl, start_out, List.drop_length]
      exact traceInv_of_inFrame (inFrame_start m s) rfl h.endedFrames

/-- The trace speaks neither of the host's side nor of what is read from the queue. -/
theorem TraceInv.interface {s : State} {tr : FrameTrace} (h : TraceInv s tr) (out : List Byte)
    (host : List HostAccess) (replies : List Reply) :
    TraceInv { s with out := out, host := host, replies := replies } tr where
  openFrame ha := by
    obtain ⟨hplace, hbytes⟩ := h.openFrame ha
    exact ⟨sameFrame_io hplace out host replies, hbytes⟩
  endedFrames := h.endedFrames

theorem traceInv_readPort {s : State} {tr : FrameTrace} (h : TraceInv s tr) (p : Port) :
    TraceInv (readPort p s) tr := by
  cases p <;> exact h.interface _ s.host _

theorem access_command {tr : FrameTrace} {a : HostAccess} {w : Word} (hw : a.commandWord = some w) (s t : State) :
    tr.access a s t = tr.command w s t := by
  simp [FrameTrace.access, hw]

theorem access_no_command {tr : FrameTrace} {a : HostAccess} (hw : a.commandWord = none) (hne : a ≠ .reset)
    (s t : State) : tr.access a s t = tr := by
  simp [FrameTrace.access, hw, hne]

/-- Settles O51: a command keeps the trace sound, a read or an ignored access leaves what it speaks of, and a reset
abandons the open frame. -/
theorem frameTraceStaysSound : Obligations.FrameTraceStaysSound := by
  intro s t a rest tr hh h hst
  rw [step_of_host hh] at hst
  have htaken : TraceInv { s with host := rest } tr := h.interface s.out rest s.replies
  rcases hostAccess_cases hst with ⟨w, hw, hx⟩ | ⟨hw, hne, p, rfl⟩ | ⟨hw, hne, rfl⟩ | ⟨rfl, rfl⟩
  · rw [access_command hw]
    exact traceInv_command (s := { s with host := rest }) htaken hx
  · rw [access_no_command hw hne]
    exact traceInv_readPort htaken p
  · rw [access_no_command hw hne]
    exact htaken
  · exact traceInv_of_idle rfl h.endedFrames

end Sys2Proof.Machine
end

section
/-! SUPPORT. The source's encode and decode functions on their own (R118, R119, R159, R161): the obligation O54. -/

namespace Sys2Proof

/-! ### How many levels an encode gives -/

theorem length_encodeNrziFrom (cur : Int) (bits : List Bool) : (encodeNrziFrom cur bits).length = bits.length := by
  induction bits generalizing cur with
  | nil => rfl
  | cons b bits ih => simp [encodeNrziFrom, ih]

theorem length_encodeDmanFrom (cur : Int) (bits : List Bool) : (encodeDmanFrom cur bits).length = 2 * bits.length := by
  induction bits generalizing cur with
  | nil => rfl
  | cons b bits ih => simp [encodeDmanFrom, ih, Nat.mul_add]

theorem length_encodeAmiFrom (last : Int) (bits : List Bool) : (encodeAmiFrom last bits).length = bits.length := by
  induction bits generalizing last with
  | nil => rfl
  | cons b bits ih => cases b <;> simp [encodeAmiFrom, ih]

theorem encodeRef_man_cons (b : Bool) (bits : List Bool) :
    encodeRef .man (b :: bits) = (if b then [-1, 1] else [1, -1]) ++ encodeRef .man bits := rfl

theorem length_encodeRef_man (bits : List Bool) : (encodeRef .man bits).length = 2 * bits.length := by
  induction bits with
  | nil => rfl
  | cons b bits ih => cases b <;> simp [encodeRef_man_cons, ih, Nat.mul_add]

/-- R119, R153: one level a bit, or two. -/
theorem length_encodeRef (k : Scheme) (bits : List Bool) :
    (encodeRef k bits).length = Machine.samplesPerBit k * bits.length := by
  cases k with
  | nrzl => simp [encodeRef, Machine.samplesPerBit]
  | nrzi => simp [encodeRef, Machine.samplesPerBit, length_encodeNrziFrom]
  | man => exact length_encodeRef_man bits
  | dman => exact length_encodeDmanFrom 1 bits
  | ami => simp [encodeRef, Machine.samplesPerBit, length_encodeAmiFrom]

/-! ### Which levels it gives -/

theorem encodeNrziFrom_eq_pulses (p : Polarity) (bits : List Bool) :
    ∃ ps : List Polarity, encodeNrziFrom p.toInt bits = ps.map Polarity.toInt := by
  induction bits generalizing p with
  | nil => exact ⟨[], rfl⟩
  | cons b bits ih =>
    obtain ⟨ps, hps⟩ := ih (if b then p.flip else p)
    exact ⟨(if b then p.flip else p) :: ps, by cases b <;> simpa [encodeNrziFrom] using hps⟩

theorem encodeDmanFrom_eq_pulses (p : Polarity) (bits : List Bool) :
    ∃ ps : List Polarity, encodeDmanFrom p.toInt bits = ps.map Polarity.toInt := by
  induction bits generalizing p with
  | nil => exact ⟨[], rfl⟩
  | cons b bits ih =>
    obtain ⟨ps, hps⟩ := ih (if b then p.flip else p)
    exact ⟨(if b then p else p.flip) :: (if b then p.flip else p) :: ps,
      by cases b <;> simpa [encodeDmanFrom] using hps⟩

/-- R119: without AMI every level is a pulse. -/
theorem encodeRef_eq_pulses {k : Scheme} (hk : k ≠ .ami) (bits : List Bool) :
    ∃ ps : List Polarity, encodeRef k bits = ps.map Polarity.toInt := by
  cases k with
  | nrzl => exact ⟨bits.map fun b => if b then .pos else .neg, by simp [encodeRef, Polarity.toInt]⟩
  | nrzi => exact encodeNrziFrom_eq_pulses .neg bits
  | man =>
    refine ⟨bits.flatMap fun b => if b then [.neg, .pos] else [.pos, .neg], ?_⟩
    simp [encodeRef, List.map_flatMap, apply_ite (List.map Polarity.toInt), Polarity.toInt]
  | dman => exact encodeDmanFrom_eq_pulses .pos bits
  | ami => exact absurd rfl hk

/-- R119: every level is −1, 0 or +1. -/
theorem encodeRef_eq_levels (k : Scheme) (bits : List Bool) :
    ∃ vs : List Level, encodeRef k bits = vs.map Level.toInt := by
  by_cases hk : k = .ami
  · exact ⟨Machine.amiLevels .pos bits, hk ▸ (Machine.map_toInt_amiLevels .pos bits).symm⟩
  · obtain ⟨ps, hps⟩ := encodeRef_eq_pulses hk bits
    exact ⟨ps.map .pulse, by simp [hps, Function.comp_def]⟩

theorem toInt_range (v : Level) : v.toInt = -1 ∨ v.toInt = 0 ∨ v.toInt = 1 := by
  rcases v with _ | _ | _ <;> decide

/-- Settles O54: the length is that of each scheme's fold, and each level is a `Level`, without AMI a pulse. -/
theorem encodeLengthAndLevels : Obligations.EncodeLengthAndLevels := by
  intro k bits
  refine ⟨?_, by cases k <;> rfl, fun v hv => ⟨?_, fun h0 => ?_⟩⟩
  · rw [length_encodeRef]
    cases k <;> simp [Machine.samplesPerBit]
  · obtain ⟨vs, hvs⟩ := encodeRef_eq_levels k bits
    obtain ⟨l, -, rfl⟩ := List.mem_map.1 (hvs ▸ hv)
    exact toInt_range l
  · by_contra hk
    obtain ⟨ps, hps⟩ := encodeRef_eq_pulses hk bits
    obtain ⟨p, -, rfl⟩ := List.mem_map.1 (hps ▸ hv)
    exact toInt_ne_zero p h0

/-! ### What a decode gives back -/

theorem neg_toInt_ne_toInt (p : Polarity) : -p.toInt ≠ p.toInt := by cases p <;> decide

theorem decodeNrziFrom_encodeNrziFrom (p : Polarity) (bits : List Bool) :
    decodeNrziFrom p.toInt (encodeNrziFrom p.toInt bits) = bits := by
  induction bits generalizing p with
  | nil => rfl
  | cons b bits ih =>
    cases b with
    | false => simp [encodeNrziFrom, decodeNrziFrom, ih]
    | true => simpa [encodeNrziFrom, decodeNrziFrom, neg_toInt_ne_toInt] using ih p.flip

theorem decodeDmanPairs_encodeDmanFrom (p : Polarity) (bits : List Bool) :
    decodeDmanPairs p.toInt (encodeDmanFrom p.toInt bits) = bits := by
  induction bits generalizing p with
  | nil => rfl
  | cons b bits ih =>
    cases b with
    | false => simp [encodeDmanFrom, decodeDmanPairs, neg_toInt_ne_toInt, ih]
    | true => simpa [encodeDmanFrom, decodeDmanPairs] using ih p.flip

theorem decodeManPairs_encodeRef (bits : List Bool) : decodeManPairs (encodeRef .man bits) = bits := by
  induction bits with
  | nil => rfl
  | cons b bits ih => cases b <;> simp [encodeRef_man_cons, decodeManPairs, ih]

theorem decodeRef_ami_cons (v : Int) (vs : List Int) :
    decodeRef .ami (v :: vs) = decide (v ≠ 0) :: decodeRef .ami vs := rfl

theorem decodeRef_encodeAmiFrom (p : Polarity) (bits : List Bool) :
    decodeRef .ami (encodeAmiFrom p.toInt bits) = bits := by
  induction bits generalizing p with
  | nil => rfl
  | cons b bits ih =>
    cases b with
    | false => simp [encodeAmiFrom, decodeRef_ami_cons, ih]
    | true => simpa [encodeAmiFrom, decodeRef_ami_cons, toInt_ne_zero] using ih p.flip

/-- R161: each scheme's decode undoes its encode. -/
theorem decodeRef_encodeRef (k : Scheme) (bits : List Bool) : decodeRef k (encodeRef k bits) = bits := by
  cases k with
  | nrzl =>
    have hbit : ∀ b : Bool, decide ((if b then 1 else -1 : Int) > 0) = b := by decide
    simp [encodeRef, decodeRef, Function.comp_def, hbit]
  | nrzi => exact decodeNrziFrom_encodeNrziFrom .neg bits
  | man => exact decodeManPairs_encodeRef bits
  | dman => exact decodeDmanPairs_encodeDmanFrom .pos bits
  | ami => exact decodeRef_encodeAmiFrom .pos bits

end Sys2Proof
end

section
/-! SUPPORT. A frame whose words are the PUSHes of its items, after the source's function (R100 to R104), and the frame
that decodes what an encode frame emitted (R161): the obligation O53. -/

namespace Sys2Proof.Machine

/-! ### A frame of PUSHes -/

theorem itemsOf_pushes (xs : List Byte) : itemsOf (pushes xs) = xs := by
  induction xs with
  | nil => rfl
  | cons x xs ih =>
    have hx : pushedByte (encode (.push x)) = some x := pushedByte_push (decode_encode _)
    rw [pushes, List.map_cons, itemsOf_cons, hx]
    exact congrArg (x :: ·) ih

theorem pushes_ne_end (xs : List Byte) : ∀ w ∈ pushes xs, decode w ≠ .ok .endFrame := by
  intro w hw
  obtain ⟨x, -, rfl⟩ := List.mem_map.1 hw
  simp [decode_encode]

theorem frameResult_eq_ok {bytes out : List Byte} {t : State} {trunc empty : Bool}
    (h : frameResult bytes t = .ok out trunc empty) :
    t.inv = false ∧ bytes = out ∧ t.trunc = trunc ∧ t.empty = empty := by
  cases hi : t.inv <;> simp_all [frameResult]

/-- R104: a frame of PUSHes on which the source's function is no error emits its bytes and reports its flags. -/
theorem runWords_pushes {m : Mode} {xs out : List Byte} {trunc empty : Bool}
    (hsource : sourceResult m xs = .ok out trunc empty) {s : State} (ha : s.act = false) :
    ∃ t, runWords (frameWords m (pushes xs)) s = .next t ∧ t.out = s.out ++ out ∧ t.inv = false ∧ t.trunc = trunc ∧
      t.empty = empty := by
  obtain ⟨t, bytes, hrun, -, -, hout, hres⟩ := frameResultIsTheSourceFunction m (pushes xs) s ha (pushes_ne_end xs)
  rw [itemsOf_pushes, hsource] at hres
  obtain ⟨hinv, rfl, htrunc, hempty⟩ := frameResult_eq_ok hres
  exact ⟨t, hrun, hout, hinv, htrunc, hempty⟩

/-- R102: the source's function of a scheme's unscrambled encode mode on symbols. -/
theorem sourceResult_encMode (k : Scheme) (bits : List Bool) :
    sourceResult (encMode k) (bits.map sym) = .ok ((encodeRef k bits).map code) false bits.isEmpty := by
  cases k <;> simp [sourceResult, encMode, Mode.dir, Mode.scr, Mode.scheme, scrambleRef, Function.comp_def]

/-- R102: the source's function of a scheme's decode mode. -/
theorem sourceResult_decMode (k : Scheme) (d : List Byte) :
    sourceResult (decMode k) d =
      .ok ((decodeRef k (d.map lv)).map sym) (decide (d.length % samplesPerBit k ≠ 0)) d.isEmpty := by
  cases k <;> rfl

/-! ### The round trip -/

theorem lv_code_toInt (v : Level) : lv (code v.toInt) = v.toInt := by
  rcases v with _ | _ | _ <;> decide

/-- R10, R119: the bytes of an encode are read back as its levels. -/
theorem map_lv_map_code_encodeRef (k : Scheme) (bits : List Bool) :
    ((encodeRef k bits).map code).map lv = encodeRef k bits := by
  obtain ⟨vs, hvs⟩ := encodeRef_eq_levels k bits
  simp [hvs, lv_code_toInt, Function.comp_def]

/-- R161: the source's function of the decode mode, on the bytes of the encode, gives the symbols and no `TRUNC`. -/
theorem sourceResult_decMode_encode (k : Scheme) (bits : List Bool) :
    sourceResult (decMode k) ((encodeRef k bits).map code) =
      .ok (bits.map sym) false ((encodeRef k bits).map code).isEmpty := by
  rw [sourceResult_decMode, map_lv_map_code_encodeRef, decodeRef_encodeRef, List.length_map, length_encodeRef,
    Nat.mul_mod_right]
  rfl

/-- Settles O53: the source's functions undo each other, and each frame's result is that of the source's function. -/
theorem roundTripOfEveryScheme : Obligations.RoundTripOfEveryScheme := by
  refine ⟨decodeRef_encodeRef, fun k bits s u hs hu => ?_⟩
  obtain ⟨t, hrun, hout, -⟩ := runWords_pushes (sourceResult_encMode k bits) hs
  obtain ⟨v, hrun', hout', -, htrunc, -⟩ := runWords_pushes (sourceResult_decMode_encode k bits) hu
  exact ⟨t, _, v, hrun, hout, hrun', hout', htrunc⟩

end Sys2Proof.Machine
end

section
/-! SUPPORT. One PUSH in an encode frame, scheme by scheme (R110 to R117, R130, R132): the obligations O13 and O15 to
O20. -/

namespace Sys2Proof.Machine

/-! ### An aborted frame -/

/-- R112: a byte that is no symbol. -/
theorem encPush_invalid {x : Byte} (hx : bit x = none) (s : State) : encPush x s = { s with inv := true } := by
  simp [encPush, hx, setFlag]

/-- Settles O13: a byte without a bit sets `INV`, after which a PUSH is only consumed and END releases nothing. -/
theorem invalidSymbolAbortsFrame : Obligations.InvalidSymbolAbortsFrame := by
  refine ⟨fun x s ha hi hd h0 h1 => ?_, fun x s ha hi => ?_, fun s ha hi => ?_, fun bytes s hi => ?_⟩
  · rw [exec_push_open ha, push_encode hi hd, encPush_invalid (bit_eq_none.2 ⟨h0, h1⟩)]
  · rw [exec_push_open ha, push_aborted hi]
  · rw [exec_end_open ha, closeFrame_aborted hi]
  · simp [frameResult, hi]

/-! ### The mappers without a stage -/

theorem mapBit_nrzl {s : State} (h : s.mode.scheme = .nrzl) (b : Bool) : mapBit b s = nrzl b s := by
  simp [mapBit, h]

theorem mapBit_nrzi {s : State} (h : s.mode.scheme = .nrzi) (b : Bool) : mapBit b s = nrzi b s := by
  simp [mapBit, h]

theorem mapBit_man {s : State} (h : s.mode.scheme = .man) (b : Bool) : mapBit b s = man b s := by
  simp [mapBit, h]

theorem mapBit_dman {s : State} (h : s.mode.scheme = .dman) (b : Bool) : mapBit b s = dman b s := by
  simp [mapBit, h]

/-- Settles O15: the symbol's bit goes to `nrzl`. -/
theorem nrzlEncodesLevelPerBit : Obligations.NrzlEncodesLevelPerBit := by
  intro b s ha hi hm
  have hpush := exec_push_symbol ha hi (by rw [hm]; rfl) b
  rw [mapBit_nrzl (by rw [hm]; rfl)] at hpush
  exact hpush

/-- Settles O16: the symbol's bit goes to `nrzi`, and START loads the seed of `ENC_CUR`. -/
theorem nrziEncodesByInversion : Obligations.NrziEncodesByInversion := by
  refine ⟨fun s ha hi hm => ?_, fun s ha => ⟨_, exec_start_idle .encNrzi ha, rfl, rfl⟩⟩
  have hpush : ∀ b, exec (.push (sym b)) s = .next (nrzi b { s with any := true }) := fun b => by
    rw [exec_push_symbol ha hi (by rw [hm]; rfl), mapBit_nrzi (by rw [hm]; rfl)]
  rw [← byte_eq_pulseByte, ← byte_eq_pulseByte]
  exact ⟨hpush false, hpush true⟩

/-- Settles O17: the symbol's bit goes to `man`. -/
theorem manchesterEncodesTwoLevels : Obligations.ManchesterEncodesTwoLevels := by
  intro b s ha hi hm
  have hpush := exec_push_symbol ha hi (by rw [hm]; rfl) b
  rw [mapBit_man (by rw [hm]; rfl)] at hpush
  exact hpush

/-- Settles O18: the symbol's bit goes to `dman`, where a 0 inverts `ENC_CUR` twice, and START loads its seed. -/
theorem diffManchesterEncodesByTransition : Obligations.DiffManchesterEncodesByTransition := by
  refine ⟨fun s ha hi hm => ?_, fun s ha => ⟨_, exec_start_idle .encDman ha, rfl, rfl⟩⟩
  have hpush : ∀ b, exec (.push (sym b)) s = .next (dman b { s with any := true }) := fun b => by
    rw [exec_push_symbol ha hi (by rw [hm]; rfl), mapBit_dman (by rw [hm]; rfl)]
  rw [← byte_eq_pulseByte, ← byte_eq_pulseByte]
  refine ⟨(hpush false).trans ?_, hpush true⟩
  simp [dman, emitAll]

/-! ### AMI and its stage -/

/-- R117: what the two symbols send to the stage of an AMI encode frame. -/
theorem exec_push_zero_ami {s : State} (ha : s.act = true) (hi : s.inv = false) (hd : s.mode.dir = .enc)
    (hk : s.mode.scheme = .ami) : exec (.push 0x30) s = .next (stage .zero { s with any := true }) :=
  exec_push_ami ha hi hd hk false

theorem exec_push_one_ami {s : State} (ha : s.act = true) (hi : s.inv = false) (hd : s.mode.dir = .enc)
    (hk : s.mode.scheme = .ami) : exec (.push 0x31) s =
      .next (stage (.pulse s.amiLast.flip) { s with any := true, amiLast := s.amiLast.flip }) :=
  exec_push_ami ha hi hd hk true

/-- Settles O19: the symbol's level goes to the stage, which emits it where the frame does not scramble. -/
theorem amiEncodesAlternatingPulses : Obligations.AmiEncodesAlternatingPulses := by
  refine ⟨fun s ha hi hm => ?_,
    fun s ha hi hd hk => ⟨exec_push_zero_ami ha hi hd hk, exec_push_one_ami ha hi hd hk⟩,
    fun m s ha _ _ => ⟨_, exec_start_idle m ha, rfl, rfl⟩⟩
  have hd : s.mode.dir = .enc := by rw [hm]; rfl
  have hk : s.mode.scheme = .ami := by rw [hm]; rfl
  have hscr : s.mode.scr = .off := by rw [hm]; rfl
  rw [exec_push_zero_ami ha hi hd hk, exec_push_one_ami ha hi hd hk, ← byte_eq_pulseByte,
    stage_off (s := { s with any := true }) hscr,
    stage_off (s := { s with any := true, amiLast := s.amiLast.flip }) hscr]
  exact ⟨rfl, rfl⟩

/-! ### B8ZS -/

/-- R132: a zero is the next of at most seven held ones, or completes a block. -/
theorem b8zsStep_zero_block {s : State} (h : s.scrZc = 7) :
    b8zsStep .zero s = { emitAll (b8zsBlock s.scrPol) s with scrZc := 0 } := by
  rcases b8zsStep_cases .zero s with ⟨-, -, e⟩ | ⟨-, hne, -⟩ | ⟨_, hv, -⟩
  · exact e
  · exact absurd h hne
  · cases hv

theorem b8zsStep_zero_held {s : State} (h : s.scrZc ≠ 7) : b8zsStep .zero s = { s with scrZc := s.scrZc + 1 } := by
  rcases b8zsStep_cases .zero s with ⟨-, h7, -⟩ | ⟨-, -, e⟩ | ⟨_, hv, -⟩
  · exact absurd h7 h
  · exact e
  · cases hv

/-- Settles O20: a pushed symbol is one `b8zsStep`, of a zero or of the next pulse. -/
theorem b8zsHoldsZerosAndSubstitutes : Obligations.B8zsHoldsZerosAndSubstitutes := by
  intro s ha hi hm
  have hd : s.mode.dir = .enc := by rw [hm]; rfl
  have hk : s.mode.scheme = .ami := by rw [hm]; rfl
  have hscr : s.mode.scr = .b8zs := by rw [hm]; rfl
  rw [exec_push_zero_ami ha hi hd hk, exec_push_one_ami ha hi hd hk,
    stage_b8zs (s := { s with any := true }) hscr,
    stage_b8zs (s := { s with any := true, amiLast := s.amiLast.flip }) hscr]
  refine ⟨fun hz => ?_, fun hlt => ?_, ?_⟩
  · rw [b8zsStep_zero_block (s := { s with any := true }) hz]
    simp [b8zsBlock, byte_eq_pulseByte, emitAll]
  · rw [b8zsStep_zero_held (s := { s with any := true }) fun h7 => absurd hlt (by rw [h7]; decide)]
  · rw [← byte_eq_pulseByte]
    rfl

end Sys2Proof.Machine
end

section
/-! SUPPORT. The laws of the source's two scans (R134, R138 to R140), proved once of `scanFrom` over a rule whose blocks
fill the zeros they replace and hold a pulse: the obligations O22 to O24. -/

namespace Sys2Proof

/-! ### The stage -/

/-- Settles O22: the stage is flushed to the scan of its own scrambling. -/
theorem scramblerStageComputesTheScan : Obligations.ScramblerStageComputesTheScan := by
  intro a s hz hp hc
  have hscan := Machine.out_flushZeros_foldl_stage a hz hp hc
  refine ⟨fun hs => ?_, fun hs => ?_⟩ <;> simpa [hs, scrambleRef] using hscan

/-! ### The rules -/

/-- What both rules keep: a block is as long as the zeros it replaces and holds a pulse; the last pulse is never 0. -/
structure ScanRule.Lawful (r : ScanRule) : Prop where
  block_length : ∀ p c, (r.block p c).length = r.run
  block_pulse : ∀ p c, p ≠ 0 → ∃ v ∈ r.block p c, v ≠ 0
  last_ne_zero : ∀ p c, p ≠ 0 → r.last p c ≠ 0
  keep_ne_zero : ∀ v, v ≠ 0 → r.keep v ≠ 0

/-- R132: the fourth level of a B8ZS block is its last pulse. -/
theorem b8zsRule_lawful : b8zsRule.Lawful where
  block_length _ _ := rfl
  block_pulse p _ hp := ⟨p, by simp [b8zsRule], hp⟩
  last_ne_zero _ _ hp := hp
  keep_ne_zero _ hv := mt Int.sign_eq_zero_iff_zero.1 hv

/-- R136: the fourth level of an HDB3 block is the last pulse it leaves. -/
theorem hdb3Rule_lawful : hdb3Rule.Lawful := by
  have hlast : ∀ (p : Int) (c : Nat), p ≠ 0 → hdb3Rule.last p c ≠ 0 := by
    intro p c hp
    by_cases hc : c % 2 = 0 <;> simp [hdb3Rule, hc, hp]
  refine ⟨fun p c => ?_, fun p c hp => ⟨hdb3Rule.last p c, ?_, hlast p c hp⟩, hlast, fun _ hv => hv⟩ <;>
    by_cases hc : c % 2 = 0 <;> simp [hdb3Rule, hc]

/-! ### Length and pulses -/

/-- R134 (a), R138 (a): the scan writes as many levels as it holds and reads. -/
theorem length_scanFrom {r : ScanRule} (hr : r.Lawful) (p : Int) (c k : Nat) (a : List Int) :
    (scanFrom r p c k a).length = k + a.length := by
  induction a generalizing p c k with
  | nil => simp [scanFrom]
  | cons v vs ih =>
    by_cases hv : v = 0
    · subst hv
      by_cases hfull : k + 1 = r.run
      · rw [Machine.scanFrom_zero_block hfull, List.length_append, hr.block_length, ih, List.length_cons]
        omega
      · rw [Machine.scanFrom_zero_held hfull, ih, List.length_cons]
        omega
    · simp [scanFrom, hv, ih]

/-- R134 (b), R138 (b): a pulse of the levels read stands behind the held zeros, where it was. -/
theorem scanFrom_getElem?_pulse {r : ScanRule} (hr : r.Lawful) {a : List Int} {i : Nat} {v : Int}
    (hi : a[i]? = some v) (hv : v ≠ 0) (p : Int) (c k : Nat) : (scanFrom r p c k a)[k + i]? = some v := by
  induction a generalizing p c k i with
  | nil => cases hi
  | cons u us ih =>
    by_cases hu : u = 0
    · subst hu
      cases i with
      | zero => exact absurd (Option.some.inj hi).symm hv
      | succ i =>
        have hshift : k + (i + 1) = k + 1 + i := by omega
        by_cases hfull : k + 1 = r.run
        · have hrest := ih (i := i) hi (r.last p c) (c + 1) 0
          rw [Nat.zero_add] at hrest
          rw [Machine.scanFrom_zero_block hfull, hshift, hfull, ← hr.block_length p c,
            List.getElem?_append_right (Nat.le_add_right ..), Nat.add_sub_cancel_left, hrest]
        · rw [Machine.scanFrom_zero_held hfull, hshift]
          exact ih hi p c (k + 1)
    · rw [scanFrom, if_neg hu, List.getElem?_append_right (by simp), List.length_replicate, Nat.add_sub_cancel_left]
      cases i with
      | zero => exact hi
      | succ i => simpa using ih (i := i) hi (r.keep u) (c + 1) 0

/-- Settles O23: the reference scans are `scanFrom` with nothing held. -/
theorem scansKeepLengthAndPulses : Obligations.ScansKeepLengthAndPulses := by
  intro a
  rw [b8zsRef_eq_scanFrom a 0, hdb3Ref_eq_scanFrom]
  refine ⟨?_, ?_, fun i v hi hv => ⟨?_, ?_⟩⟩
  · simpa using length_scanFrom b8zsRule_lawful 1 0 0 a
  · simpa using length_scanFrom hdb3Rule_lawful 1 0 0 a
  · simpa using scanFrom_getElem?_pulse b8zsRule_lawful hi hv 1 0 0
  · simpa using scanFrom_getElem?_pulse hdb3Rule_lawful hi hv 1 0 0

/-! ### What the AMI decoder makes of a block -/

theorem decodeRef_ami_append (a b : List Int) : decodeRef .ami (a ++ b) = decodeRef .ami a ++ decodeRef .ami b :=
  List.map_append

/-- R157: the AMI decoder gives zeros for zeros only. -/
theorem decodeRef_ami_eq_replicate {a : List Int} {n : Nat} :
    decodeRef .ami a = List.replicate n false ↔ a = List.replicate n 0 := by
  simp [decodeRef, List.eq_replicate_iff]

/-- A run of zeros that does not start the list lies in its tail. -/
theorem replicate_infix_tail {n : Nat} {v : Int} {vs : List Int} (hw : zeroWindow n (v :: vs) 0 = false)
    (h : List.replicate n 0 <:+: v :: vs) : List.replicate n 0 <:+: vs := by
  rcases List.infix_cons_iff.1 h with ⟨b, hb⟩ | htail
  · rw [zeroWindow_iff.2 ⟨b, hb.symm⟩] at hw
    cases hw
  · exact htail

/-- A run of zeros lies behind a pulse that has too few zeros before it. -/
theorem replicate_infix_behind_pulse {n k : Nat} {v : Int} {vs : List Int} (hk : k < n) (hv : v ≠ 0)
    (h : List.replicate n 0 <:+: List.replicate k 0 ++ v :: vs) : List.replicate n 0 <:+: vs := by
  have hhead : ∀ u ∈ (v :: vs).head?, u ≠ 0 := by simpa using hv
  induction k with
  | zero => exact replicate_infix_tail (zeroWindow_short (k := 0) hk hhead) h
  | succ k ih => exact ih (Nat.lt_of_succ_lt hk) (replicate_infix_tail (zeroWindow_short hk hhead) h)

/-- R140: the first block of the scan already decodes to other bits than the zeros it replaces. -/
theorem decodeRef_ami_scanFrom_ne {r : ScanRule} (hr : r.Lawful) {p : Int} (hp : p ≠ 0) (c : Nat) {k : Nat}
    (hk : k < r.run) {a : List Int} (hrun : List.replicate r.run 0 <:+: List.replicate k 0 ++ a) :
    decodeRef .ami (scanFrom r p c k a) ≠ decodeRef .ami (List.replicate k 0 ++ a) := by
  induction a generalizing p c k with
  | nil =>
    have hle := hrun.length_le
    simp only [List.length_append, List.length_replicate, List.length_nil] at hle
    omega
  | cons v vs ih =>
    by_cases hv : v = 0
    · subst hv
      have hshift : List.replicate k 0 ++ 0 :: vs = List.replicate (k + 1) 0 ++ vs := by simp [List.replicate_succ']
      by_cases hfull : k + 1 = r.run
      · intro heq
        rw [hshift, hfull, Machine.scanFrom_zero_block hfull, decodeRef_ami_append, decodeRef_ami_append] at heq
        have hblock := List.append_inj_left heq (by simp [decodeRef, hr.block_length])
        rw [decodeRef_ami_eq_replicate.2 rfl, decodeRef_ami_eq_replicate] at hblock
        obtain ⟨u, hu, hne⟩ := hr.block_pulse p c hp
        exact hne (List.eq_of_mem_replicate (hblock ▸ hu))
      · rw [Machine.scanFrom_zero_held hfull, hshift]
        exact ih hp c (by omega) (hshift ▸ hrun)
    · have hrest := ih (hr.keep_ne_zero v hv) (c + 1) (k := 0) (Nat.zero_lt_of_lt hk)
        (replicate_infix_behind_pulse hk hv hrun)
      simpa [scanFrom, hv, decodeRef_ami_append, decodeRef_ami_cons] using hrest

/-- R157: zeros in a row among the decoded bits are zeros in a row among the levels. -/
theorem replicate_infix_of_decodeRef_ami {n : Nat} {a : List Int} (h : List.replicate n false <:+: decodeRef .ami a) :
    List.replicate n 0 <:+: a := by
  obtain ⟨l, hl, hzeros⟩ := List.infix_map_iff.1 h
  exact decodeRef_ami_eq_replicate.1 hzeros.symm ▸ hl

/-- R140, for either rule: scrambled AMI with a substituted run does not decode to its bits. -/
theorem decodeRef_ami_scanFrom_encodeRef_ne {r : ScanRule} (hr : r.Lawful) (hpos : 0 < r.run) {bits : List Bool}
    (h : List.replicate r.run false <:+: bits) : decodeRef .ami (scanFrom r 1 0 0 (encodeRef .ami bits)) ≠ bits := by
  have hdec : decodeRef .ami (encodeRef .ami bits) = bits := decodeRef_encodeRef .ami bits
  have hrun : List.replicate r.run 0 <:+: encodeRef .ami bits := replicate_infix_of_decodeRef_ami (hdec.symm ▸ h)
  exact fun heq => decodeRef_ami_scanFrom_ne hr Int.one_ne_zero 0 hpos hrun (heq.trans hdec.symm)

/-- Settles O24: the first substituted block decodes to a 1; the spec's two examples are evaluated. -/
theorem scrambledAmiDoesNotRoundTrip : Obligations.ScrambledAmiDoesNotRoundTrip := by
  refine ⟨fun bits h => ?_, fun bits h => ?_, by decide, by decide⟩
  · rw [b8zsRef_eq_scanFrom _ 0]
    exact decodeRef_ami_scanFrom_encodeRef_ne b8zsRule_lawful (by decide) h
  · rw [hdb3Ref_eq_scanFrom]
    exact decodeRef_ami_scanFrom_encodeRef_ne hdb3Rule_lawful (by decide) h

end Sys2Proof
end

section
/-! SUPPORT. One PUSH in a decode frame, scheme by scheme, and a decode frame as a whole (R150 to R158, R162): the
obligations O25 to O29 and O55. -/

namespace Sys2Proof

/-! ### How many bits a decode gives -/

theorem length_decodeNrziFrom (prev : Int) (levels : List Int) :
    (decodeNrziFrom prev levels).length = levels.length := by
  induction levels generalizing prev with
  | nil => rfl
  | cons v vs ih => simp [decodeNrziFrom, ih]

theorem length_decodeManPairs (levels : List Int) : (decodeManPairs levels).length = levels.length / 2 := by
  induction levels using decodeManPairs.induct with
  | case1 v w rest ih =>
    simp only [decodeManPairs, List.length_cons, ih]
    omega
  | case2 v => simp [decodeManPairs]
  | case3 => rfl

theorem length_decodeDmanPairs (prevEnd : Int) (levels : List Int) :
    (decodeDmanPairs prevEnd levels).length = levels.length / 2 := by
  induction prevEnd, levels using decodeDmanPairs.induct with
  | case1 prevEnd v w rest ih =>
    simp only [decodeDmanPairs, List.length_cons, ih]
    omega
  | case2 prevEnd v => simp [decodeDmanPairs]
  | case3 prevEnd => rfl

/-- R162: one bit for every `samplesPerBit` levels; an unpaired level gives none. -/
theorem length_decodeRef (k : Scheme) (levels : List Int) :
    (decodeRef k levels).length = levels.length / Machine.samplesPerBit k := by
  cases k with
  | nrzl => simp [decodeRef, Machine.samplesPerBit]
  | nrzi => simp [decodeRef, Machine.samplesPerBit, length_decodeNrziFrom]
  | man => exact length_decodeManPairs levels
  | dman => exact length_decodeDmanPairs 1 levels
  | ami => simp [decodeRef, Machine.samplesPerBit]

end Sys2Proof

namespace Sys2Proof.Machine

/-! ### A decode frame -/

/-- Settles O55: the frame's output and flags are the source's function of its levels, one symbol a decoded bit. -/
theorem decodeFrameOutput : Obligations.DecodeFrameOutput := by
  intro k d s ha
  obtain ⟨t, hrun, hout, hinv, htrunc, hempty⟩ := runWords_pushes (sourceResult_decMode k d) ha
  refine ⟨t, decodeRef k (d.map lv), hrun, hout, rfl, ?_, hinv, ?_, ?_⟩
  · rw [length_decodeRef, List.length_map]
  · rw [htrunc, decide_eq_true_iff]
  · rw [hempty, List.isEmpty_iff]

/-! ### The inverse mappers -/

theorem decPush_nrzl {s : State} (h : s.mode.scheme = .nrzl) (x : Byte) :
    decPush x s = emit (sym (dnrzl (lv x))) s := by
  simp [decPush, h]

theorem decPush_nrzi {s : State} (h : s.mode.scheme = .nrzi) (x : Byte) : decPush x s = dnrzi x s := by
  simp [decPush, h]

theorem decPush_ami {s : State} (h : s.mode.scheme = .ami) (x : Byte) :
    decPush x s = emit (sym (dami (lv x))) s := by
  simp [decPush, h]

/-- R155, R156: a pair decoder that holds no level holds the one it is given. -/
theorem decPush_first {s : State} (h : samplesPerBit s.mode.scheme = 2) (hv : s.decHv = false) (x : Byte) :
    decPush x s = { s with decHd := x, decHv := true } := by
  cases hk : s.mode.scheme with
  | man => simp [decPush, hk, dmanPair, hv]
  | dman => simp [decPush, hk, ddmanPair, hv]
  | _ => simp [hk, samplesPerBit] at h

theorem decPush_man_second {s : State} (h : s.mode.scheme = .man) (hv : s.decHv = true) (x : Byte) :
    decPush x s = { emit (sym (manPairBit (lv s.decHd) (lv x))) s with decHv := false } := by
  simp [decPush, h, dmanPair, hv]

theorem decPush_dman_second {s : State} (h : s.mode.scheme = .dman) (hv : s.decHv = true) (x : Byte) :
    decPush x s =
      { emit (sym (dmanGroupBit (lv s.decPrev) (lv s.decHd))) s with decPrev := x, decHv := false } := by
  simp [decPush, h, ddmanPair, hv]

/-! ### One PUSH in a decode frame -/

/-- R11: the symbol of a condition. -/
theorem sym_decide (p : Prop) [Decidable p] : sym (decide p) = if p then 0x31 else 0x30 := by
  by_cases hp : p <;> simp [sym, hp, Config.sym0, Config.sym1]

/-- R151: the level 0 is the byte 0x00. -/
theorem lv_eq_zero_iff {x : Byte} : lv x = 0 ↔ x = 0x00 :=
  ⟨fun h => lv_injective (h.trans (by decide)), fun h => by rw [h]; decide⟩

/-- Settles O25: the level's sign is the symbol. -/
theorem nrzlDecodesBySign : Obligations.NrzlDecodesBySign := by
  intro x s ha hi hm
  rw [exec_push_level ha hi (by rw [hm]; rfl), decPush_nrzl (by rw [hm]; rfl), dnrzl, sym_decide, lv_eq_toInt]
  rfl

/-- Settles O26: the level goes to `dnrzi`, and START loads the seed of `DEC_PREV`. -/
theorem nrziDecodesByChange : Obligations.NrziDecodesByChange := by
  refine ⟨fun x s ha hi hm => ?_, fun s ha => ⟨_, exec_start_idle .decNrzi ha, rfl, rfl⟩⟩
  rw [exec_push_level ha hi (by rw [hm]; rfl), decPush_nrzi (by rw [hm]; rfl), dnrzi, sym_decide, ite_not,
    lv_eq_toInt, lv_eq_toInt]
  rfl

/-- Settles O27: the level is held, or goes to `dmanPair` as the second of its pair. -/
theorem manchesterDecodesPairs : Obligations.ManchesterDecodesPairs := by
  refine ⟨fun x s ha hi hm => ?_, fun s ha => ⟨_, exec_start_idle .decMan ha, rfl, rfl⟩⟩
  have hk : s.mode.scheme = .man := congrArg Mode.scheme hm
  rw [exec_push_level ha hi (by rw [hm]; rfl)]
  refine ⟨fun hv => ?_, fun hv => ?_⟩
  · rw [decPush_first (s := { s with any := true }) (congrArg samplesPerBit hk) hv]
  · rw [decPush_man_second (s := { s with any := true }) hk hv, manPairBit, sym_decide, lv_eq_toInt, lv_eq_toInt]
    rfl

/-- Settles O28: the level is held, or goes to `ddmanPair` as the second of its group; START loads the seeds. -/
theorem diffManchesterDecodesGroups : Obligations.DiffManchesterDecodesGroups := by
  refine ⟨fun x s ha hi hm => ?_, fun s ha => ⟨_, exec_start_idle .decDman ha, rfl, rfl, rfl⟩⟩
  have hk : s.mode.scheme = .dman := congrArg Mode.scheme hm
  rw [exec_push_level ha hi (by rw [hm]; rfl)]
  refine ⟨fun hv => ?_, fun hv => ?_⟩
  · rw [decPush_first (s := { s with any := true }) (congrArg samplesPerBit hk) hv]
  · rw [decPush_dman_second (s := { s with any := true }) hk hv, dmanGroupBit, sym_decide, lv_eq_toInt, lv_eq_toInt]
    rfl

/-- Settles O29: the level 0 is the symbol of 0, every other the symbol of 1. -/
theorem amiDecodesByNonZero : Obligations.AmiDecodesByNonZero := by
  intro x s ha hi hm
  rw [exec_push_level ha hi (by rw [hm]; rfl), decPush_ami (by rw [hm]; rfl), dami, sym_decide, ite_not]
  simp only [lv_eq_zero_iff]
  rfl

end Sys2Proof.Machine
end

section
/-! SUPPORT. Which condition a word raises (R81, R93 to R97, R112, R158, R177): the obligation O45. -/

namespace Sys2Proof.Machine

/-! ### The condition each operation raises -/

/-- The condition's flag was 0 before, in `s`, and is 1 after, in `t` (R177). -/
def Raises (c : Condition) (s t : State) : Prop := s.flag c = false ∧ t.flag c = true

theorem not_raises_of_flag_eq {c : Condition} {s t : State} (h : t.flag c = s.flag c) : ¬ Raises c s t := by
  rintro ⟨hs, ht⟩
  simp [h, hs] at ht

theorem flag_setFlag (c d : Condition) (s : State) : (setFlag d s).flag c = (s.flag c || c == d) := by
  cases d <;> cases c <;> simp [setFlag, State.flag]

/-- R13: `setflag` raises no other condition than its own. -/
theorem Raises.eq_of_setFlag {c d : Condition} {s : State} (h : Raises c s (setFlag d s)) : c = d := by
  obtain ⟨hs, ht⟩ := h
  simpa [flag_setFlag, hs] using ht

theorem flag_mapBit (c : Condition) (b : Bool) (s : State) : (mapBit b s).flag c = s.flag c := by
  obtain ⟨_, _, _, _, _, _, e, -⟩ := mapBit_writes b s
  rw [e]
  rfl

theorem flag_decPush (c : Condition) (x : Byte) (s : State) : (decPush x s).flag c = s.flag c := by
  obtain ⟨_, _, _, _, e, -⟩ := decPush_writes x s
  rw [e]
  rfl

/-- R29: that an item is consumed raises nothing. -/
theorem Raises.of_consume {c : Condition} {s t : State} (h : Raises c s t) : Raises c { s with any := true } t := h

/-- R112: a PUSH raises `INV` alone, at an invalid symbol of an encode frame not yet aborted. -/
theorem Raises.of_push {c : Condition} {x : Byte} {s : State} (h : Raises c s (push x s)) :
    s.inv = false ∧ s.mode.dir = .enc ∧ bit x = none ∧ c = .invalidSymbol := by
  rcases push_cases x s with ⟨-, e⟩ | ⟨hi, henc, e⟩ | ⟨-, -, e⟩ <;> rw [e] at h
  · exact (not_raises_of_flag_eq rfl h).elim
  · rcases encPush_cases x { s with any := true } with ⟨hx, e2⟩ | ⟨b, -, e2⟩ <;> rw [e2] at h
    · exact ⟨hi, henc, hx, Raises.eq_of_setFlag h.of_consume⟩
    · exact (not_raises_of_flag_eq (flag_mapBit c b _) h.of_consume).elim
  · exact (not_raises_of_flag_eq (flag_decPush c x _) h.of_consume).elim

/-- R26, R158: END raises `TRUNC` or `EMPTY`. -/
theorem Raises.of_closeFrame {c : Condition} {s : State} (h : Raises c s (closeFrame s)) :
    c = .truncatedSequence ∨ c = .emptyInput := by
  obtain ⟨_, _, _, _, e, -⟩ := closeFrame_writes s
  rw [e] at h
  cases c with
  | truncatedSequence => exact .inl rfl
  | emptyInput => exact .inr rfl
  | _ => exact (not_raises_of_flag_eq rfl h).elim

theorem not_raises_start (c : Condition) (m : Mode) (s : State) : ¬ Raises c s (start m s) := by
  rintro ⟨-, ht⟩
  cases c <;> exact Bool.false_ne_true ht

/-! ### The conditions of a frame exclude each other -/

/-- R177: `INV` belongs to encode frames and `TRUNC` to decode frames (R24, R25), and `EMPTY` to frames without an item,
in which neither arises (R26, R29). -/
theorem Inv.conditions_exclusive {s : State} (h : Inv s) :
    ¬ (s.inv = true ∧ s.trunc = true) ∧ ¬ (s.inv = true ∧ s.empty = true) ∧ ¬ (s.trunc = true ∧ s.empty = true) := by
  have hempty : s.empty = true → s.inv = false ∧ s.trunc = false := fun he =>
    have ⟨hi, ht, _⟩ := h.noItemNothing (h.emptyNoItem he)
    ⟨hi, ht⟩
  refine ⟨fun ⟨hi, ht⟩ => ?_, fun ⟨hi, he⟩ => ?_, fun ⟨ht, he⟩ => ?_⟩
  · have henc := h.invEncodeOnly hi
    have hpair := h.truncPairOnly ht
    simp [pairDecoder, henc] at hpair
  · simp [(hempty he).1] at hi
  · simp [(hempty he).2] at ht

/-! ### One word -/

/-- R177: which condition a word raises. -/
theorem WordEffect.raises_cases {w : Word} {s t : State} {c : Condition} (he : WordEffect w s t) (h : Raises c s t) :
    (∃ e, decode w = .error e ∧ c = .illegalCommand) ∨
    (∃ i, decode w = .ok i ∧ allowedInPhase i s.act = false ∧ c = .protocolError) ∨
    (∃ x, decode w = .ok (.push x) ∧ s.act = true ∧ s.inv = false ∧ s.mode.dir = .enc ∧ bit x = none ∧
      c = .invalidSymbol) ∨
    (decode w = .ok .endFrame ∧ s.act = true ∧ (c = .truncatedSequence ∨ c = .emptyInput)) := by
  cases he with
  | nop => exact (not_raises_of_flag_eq rfl h).elim
  | start m => exact (not_raises_start c m s h).elim
  | push x hd ha =>
    obtain ⟨hi, henc, hx, hc⟩ := h.of_push
    exact .inr (.inr (.inl ⟨x, hd, ha, hi, henc, hx, hc⟩))
  | close hd ha => exact .inr (.inr (.inr ⟨hd, ha, h.of_closeFrame⟩))
  | outOfPhase i hd hp => exact .inr (.inl ⟨i, hd, hp, h.eq_of_setFlag⟩)
  | illegal e hd => exact .inl ⟨e, hd, h.eq_of_setFlag⟩

/-- R177: no word raises two conditions; of the two that END can raise, the invariant after it excludes one. -/
theorem WordEffect.raises_unique {w : Word} {s t : State} {c d : Condition} (he : WordEffect w s t) (h : Inv s)
    (hc : Raises c s t) (hd : Raises d s t) : c = d := by
  cases he with
  | nop => exact (not_raises_of_flag_eq rfl hc).elim
  | start m => exact (not_raises_start c m s hc).elim
  | push x =>
    obtain ⟨-, -, -, rfl⟩ := hc.of_push
    obtain ⟨-, -, -, rfl⟩ := hd.of_push
    rfl
  | close =>
    obtain ⟨-, -, hexcl⟩ := (inv_closeFrame h).conditions_exclusive
    rcases hc.of_closeFrame with rfl | rfl <;> rcases hd.of_closeFrame with rfl | rfl
    · rfl
    · exact (hexcl ⟨hc.2, hd.2⟩).elim
    · exact (hexcl ⟨hd.2, hc.2⟩).elim
    · rfl
  | outOfPhase => exact hc.eq_of_setFlag.trans hd.eq_of_setFlag.symm
  | illegal => exact hc.eq_of_setFlag.trans hd.eq_of_setFlag.symm

/-- Settles O45: each effect a word can have raises its own condition, and END keeps the invariant, which excludes two. -/
theorem oneWordRaisesAtMostOneCondition : Obligations.OneWordRaisesAtMostOneCondition := by
  refine ⟨fun w s t c d h ht hc hc' hd hd' => ?_, fun w s t c ht hc hc' => ?_, fun s t h ha ht => ?_⟩
  · exact (wordEffect_of_executeWord ht).raises_unique h ⟨hc, hc'⟩ ⟨hd, hd'⟩
  · exact (wordEffect_of_executeWord ht).raises_cases ⟨hc, hc'⟩
  · rw [exec_end_open ha, Host.Outcome.next.injEq] at ht
    exact ht ▸ (inv_closeFrame h).conditions_exclusive

end Sys2Proof.Machine
end

section
/-! SUPPORT. Reset through the host's port (R190, R191); and the obligation O9. -/

namespace Sys2Proof.Machine

/-- R190, R191: a reset at the head of the host's list is taken from it and acts on LCC, whatever LCC holds. -/
theorem step_reset {s : State} {rest : List HostAccess} (hh : s.host = .reset :: rest) :
    step s = .next (resetLcc { s with host := rest }) := step_of_host hh

/-- Settles O9: the step is `resetLcc`, which takes all but the host's two fields from the reset state of R42. -/
theorem resetWritesEveryField : Obligations.ResetWritesEveryField := by
  intro s rest hh
  simp only [step_reset hh, resetLcc, State.reset]

end Sys2Proof.Machine
end
